-- ==== Sys2Proof/Word.lean ====
section
/-! DEFINITION. The word types of the block (spec R9, R10, R21, R30, R31) and two byte constants. -/

namespace Sys2Proof

/-- `u8` of R9: a byte of a stream. -/
abbrev Byte := BitVec 8

/-- `u11` of R9: the throttle operand (R174). -/
abbrev U11 := BitVec 11

/-- `u16` of R9: a channel (R21), a rate or a speed (R30), a 16-bit frame (R111). -/
abbrev U16 := BitVec 16

/-- `u32` of R9: an endpoint id (R31). -/
abbrev U32 := BitVec 32

/-- A slot value, `W = 224` bits (R7, R21). -/
abbrev Value := BitVec 224

/-- R21: a ChannelFrame, exactly fourteen unsigned 16-bit channels. -/
abbrev ChannelFrame := Vector U16 14

/-- R10: `LF = 0x0A`, the line terminator. -/
def LF : Byte := 0x0A

/-- R10: `SP = 0x20`, the space. -/
def SP : Byte := 0x20

end Sys2Proof
end

