-- ==== Sys2Proof/Config.lean ====
section
/-! DEFINITION. What an implementation fixes: the constants of R6 and R7, the wire modes and framings, and the open
parameters of R8 (uninterpreted constants: nothing can be proved of their values). -/

namespace Sys2Proof

/-- R29, R30: the wire mode latched by INIT, `TEXT = 0`, `BIN16 = 1`. -/
inductive WireMode where
  | text
  | bin16
  deriving DecidableEq, Repr, Inhabited

/-- R8, R210: how a control loop reads its slot. -/
inductive ReadMode where
  | take
  | peek
  deriving DecidableEq, Repr, Inhabited

/-- R5, R98: the serial framings the document names. Only `lengthPrefixed` has a layout. -/
inductive Framing where
  | lengthPrefixed
  | doubleMarker
  | rawCommand
  deriving DecidableEq, Repr

namespace Config

/-- R6: `HDR_CHDATA`. -/
def hdrChdata : Byte := 0x40

/-- R6: `LEN_CHDATA`. -/
def lenChdata : Byte := 0x1E

/-- R6: `CHDATA_BYTES`. -/
def chdataBytes : Nat := 28

/-- R7: the default of `N_SLOTS` (D11). -/
def nSlots : Nat := 2

/-- R7: the default of `N_CONS` (D11). -/
def nCons : Nat := 1

/-- R7: `LINE_MAX` (D16). -/
def lineMax : Nat := 64

/-- R6: `THR_REV_OFFSET`. -/
def thrRevOffset : Int := 1024

/-- R6: `CH_MIN`. -/
def chMin : U16 := 1000

/-- R6: `CH_MID`. -/
def chMid : U16 := 1500

/-- R6: `CH_MAX`. -/
def chMax : U16 := 2000

/-- R8: `SERVO_K`, open (D39). -/
opaque servoK : Fin 14

/-- R8: `SERVO_LO`, open (D39). -/
opaque servoLo : Int

/-- R8: `SERVO_HI - SERVO_LO`, open (D39). A natural number, so that `SERVO_LO <= SERVO_HI`. -/
opaque servoSpan : Nat

/-- R8: `READ_MODE[servo]`, open (D39). -/
opaque readServo : ReadMode

/-- R8: `READ_MODE[esc]`, open (D39). -/
opaque readEsc : ReadMode

/-- R8: the pin the ESC loop gives INIT, open. -/
opaque pin : Byte

/-- R8: the rate the ESC loop gives INIT, open. -/
opaque rate : U16

/-- R8: the wire mode the ESC loop gives INIT, open. -/
opaque wireMode : WireMode

end Config

/-- The open parameters as data: a statement over every state holds for every value of them (R8: "a claim quantifies
over it or fixes it as a premise"). No step writes them. `peekClears` is U3's parameter. -/
structure Params where
  servoK : Fin 14
  servoLo : Int
  servoHi : Int
  readServo : ReadMode
  readEsc : ReadMode
  peekClears : Bool
  pin : Byte
  rate : U16
  wireMode : WireMode
  deriving DecidableEq, Repr

end Sys2Proof
end

