-- ==== Sys2Proof/Syntax.lean ====
section
/-! DEFINITION. The operations: one constructor of `Instr` per row of spec/opcode_table.json, the ports on which a unit
stands (R90 formats SFRAME, TLINE, BIN16, PORT and the table's FUNC), and the names under which decoding rejects. -/

namespace Sys2Proof

/-- The four keys of the speed table (R6, R171). -/
inductive Rate where
  | r150
  | r300
  | r600
  | r1200
  deriving DecidableEq, Repr

/-- R33, R35: command kinds `K_THROTTLE = 0`, `K_OK = 1`, `K_ERR = 2`; no fourth value (U16). -/
inductive Kind where
  | throttle
  | ok
  | err
  deriving DecidableEq, Repr

/-- R33: the parsed EscCommand, kind, target id and payload string. -/
structure EscCommand where
  kind : Kind
  id : U32
  payload : List Byte
  deriving DecidableEq, Repr

/-- The operations of the block, one per row of spec/opcode_table.json. -/
inductive Instr where
  /-- SFRAME.ZEROLEN (R96): the frame whose length byte is 0. -/
  | sframeZerolen
  /-- SFRAME.EMPTY (R96): the frame whose length byte is 1. -/
  | sframeEmpty
  /-- SFRAME.CHDATA (R93, R95): a channel-data frame. -/
  | sframeChdata (f : ChannelFrame)
  /-- SFRAME.BADLEN (R96): header 0x40, length other than 0x1E, and the frame bytes from the third on. -/
  | sframeBadlen (len : Byte) (rest : List Byte)
  /-- SFRAME.OTHER (R96): any other header, and the frame bytes from the third on. -/
  | sframeOther (len hdr : Byte) (rest : List Byte)
  /-- DEC.LEN (R131): the operand byte is the head of `rxq`. -/
  | decLen
  /-- DEC.PAYLOAD (R132): the operand byte is the head of `rxq`, its index is `dcnt`. -/
  | decPayload
  /-- DEC.DELIVER (R134) to slot `s`. -/
  | decDeliver (s : Nat)
  /-- DEC.RXERR (R135): the operand event is the head of `rxq`. -/
  | decRxerr
  /-- PUBLISH (R151). -/
  | publish (s : Nat) (v : Value)
  /-- TAKE (R152, R153). -/
  | take (s c : Nat)
  /-- PEEK (R154). -/
  | peek (s c : Nat)
  /-- INIT (R171). -/
  | init (pin : Byte) (rate : U16) (mode : WireMode)
  /-- SEND (R174). -/
  | send (thr : U11) (tel : Bool)
  /-- SEND.TEXT (R176). -/
  | sendText (thr : U11) (tel : Bool)
  /-- SEND.BIN16 (R177). -/
  | sendBin16 (thr : U11) (tel : Bool)
  /-- ESC.RSPBYTE (R180): the operand byte is the head of `rspq`. -/
  | escRspbyte
  /-- ESC.RSPERR (R182): the operand event is the head of `rspq`. -/
  | escRsperr
  /-- TLINE.ADD (R107). -/
  | tlineAdd (pin : Byte) (rate : Rate)
  /-- TLINE.THROTTLE (R108). -/
  | tlineThrottle (id : U32) (thr : U11) (tel : Bool)
  /-- HS.OK (R109): the line is "OK" and then `rest`, which ends in a usable integer. -/
  | hsOk (rest : List Byte)
  /-- HS.OK_NOINT (R113): the line is "OK" and then `rest`, which does not. -/
  | hsOkNoint (rest : List Byte)
  /-- HS.OTHER (R113): a line that does not start with "OK", or an overlong one. -/
  | hsOther (ln : List Byte)
  /-- RSP.THROTTLE (R110): the id field as text (leading zeros are allowed) and the payload. -/
  | rspThrottle (idText payload : List Byte)
  /-- RSP.OK (R110). -/
  | rspOk (idText payload : List Byte)
  /-- RSP.ERR (R110). -/
  | rspErr (idText payload : List Byte)
  /-- RSP.INVALID (R113): a line that `ParseCommand` fails on, or an overlong one. -/
  | rspInvalid (ln : List Byte)
  /-- BIN16.FRAME (R111). -/
  | bin16Frame (thr : U11) (tel : Bool)
  /-- SERVOMAP (R212) of a ChannelFrame. -/
  | servomap (f : ChannelFrame)
  /-- ESCMAP (R213) of a ChannelFrame. -/
  | escmap (f : ChannelFrame)
  deriving DecidableEq, Repr

/-- Where a unit stands: a stream with its wire format (R90), or a port (R37, R38, R39). -/
inductive Port where
  /-- A whole frame on the serial stream in a framing (R5). -/
  | serial (fr : Framing)
  /-- A cycle of the decoder's port (R38). -/
  | rx
  /-- A pending delivery (R134). -/
  | deliver
  /-- A cycle with `pub_valid = 1` (R37). -/
  | pub
  /-- `take_req` (R37). -/
  | take
  /-- A cycle with `peek_req = 1` (R37). -/
  | peek
  /-- A cycle of the operation port (R39, R114). -/
  | op
  /-- The action of SEND that `emode` selects (R174). -/
  | sendIn (m : WireMode)
  /-- A cycle of the response port (R39). -/
  | rsp
  /-- A text line on the command stream (R101). -/
  | cmdText
  /-- A 16-bit frame on the command stream (R111). -/
  | cmdBin
  /-- A line on the response stream during the handshake (R109). -/
  | hsLine
  /-- A line on the response stream during a SEND (R110). -/
  | rspLine
  /-- The servo mapping (format FUNC of the table). -/
  | servo
  /-- The ESC mapping (format FUNC of the table). -/
  | escFn
  deriving DecidableEq, Repr

/-- The names under which decoding rejects a unit. -/
inductive Reject where
  /-- Fewer bytes than the form has. -/
  | truncated
  /-- More bytes than the form has. -/
  | overrun
  /-- A framing without a layout (R5, R98). -/
  | framing (fr : Framing)
  /-- A port cycle in which no signal is valid (R38, R39). -/
  | noEvent
  /-- A cycle of the decoder's port sampled in `D_FATAL` or with a code never taken (R38, U16). -/
  | decoderStopped
  /-- A line without its LF (R101). -/
  | noLineFeed
  /-- A line with an LF before its end (R101). -/
  | innerLineFeed
  /-- Bytes that are neither an ADD nor a THROTTLE line (R107, R108). -/
  | notACommand
  /-- A 16-bit frame whose checksum does not verify (R191). -/
  | badChecksum
  deriving DecidableEq, Repr

end Sys2Proof
end

