-- ==== Sys2Proof/Machine/Text.lean ====
section
/-! DEFINITION. The text functions of the protocol (R100 to R110): decimal text in both directions, the handshake
answer, the response grammar, and the lines the engine writes. -/

namespace Sys2Proof.Machine

/-- R100: `"ADD"`. -/
def txtAdd : List Byte := [0x41, 0x44, 0x44]

/-- R100: `"THROTTLE"`. -/
def txtThrottle : List Byte := [0x54, 0x48, 0x52, 0x4F, 0x54, 0x54, 0x4C, 0x45]

/-- R100: `"OK"`. -/
def txtOk : List Byte := [0x4F, 0x4B]

/-- R100: `"ERR"`. -/
def txtErr : List Byte := [0x45, 0x52, 0x52]

/-- R100: `"true"`. -/
def txtTrue : List Byte := [0x74, 0x72, 0x75, 0x65]

/-- R100: `"false"`. -/
def txtFalse : List Byte := [0x66, 0x61, 0x6C, 0x73, 0x65]

/-- R100: a byte in `0x30..0x39`. -/
def isDigit (b : Byte) : Bool := decide (0x30 ≤ b.toNat) && decide (b.toNat ≤ 0x39)

/-- The ASCII digit of a number below ten (R100). -/
def digit (n : Nat) : Byte := BitVec.ofNat 8 (0x30 + n)

/-- The decimal digits of `n` in front of `acc`; `fuel` bounds the number of digits. -/
def decAux : Nat → Nat → List Byte → List Byte
  | 0, _, acc => acc
  | fuel + 1, n, acc => if n < 10 then digit n :: acc else decAux fuel (n / 10) (digit (n % 10) :: acc)

/-- R103: `dec(n)`, the shortest decimal text of `n`, most significant digit first. -/
def dec (n : Nat) : List Byte := decAux (n + 1) n []

/-- R104: `bool_str(b)`. -/
def boolStr (b : Bool) : List Byte := if b then txtTrue else txtFalse

/-- The decimal value of a string of digits, most significant first (R105). -/
def decValue (s : List Byte) : Nat := s.foldl (fun a b => 10 * a + (b.toNat - 0x30)) 0

/-- R105: `parse_dec(s)`; `none` is `Fail`. -/
def parseDec (s : List Byte) : Option U32 :=
  if 1 ≤ s.length ∧ s.length ≤ 10 ∧ s.all isDigit = true ∧ decValue s < 2 ^ 32 then
    some (BitVec.ofNat 32 (decValue s))
  else none

/-- R106: `digits_suffix(s)`. -/
def digitsSuffix (s : List Byte) : List Byte := (s.reverse.takeWhile isDigit).reverse

/-- The bytes before the first space and the bytes after it; `none` without a space (R110). -/
def splitSpace : List Byte → Option (List Byte × List Byte)
  | [] => none
  | b :: bs =>
    if b = SP then some ([], bs)
    else match splitSpace bs with
      | some (w, r) => some (b :: w, r)
      | none => none

/-- R100, R110: the kind a word names, exactly and case-sensitively. -/
def kindOf (w : List Byte) : Option Kind :=
  if w = txtThrottle then some .throttle
  else if w = txtOk then some .ok
  else if w = txtErr then some .err
  else none

/-- The word of a kind (R100). -/
def kindText : Kind → List Byte
  | .throttle => txtThrottle
  | .ok => txtOk
  | .err => txtErr

/-- R110: `ParseCommand(ln)`; `none` is `Fail`. -/
def parseCommand (ln : List Byte) : Option EscCommand :=
  match splitSpace ln with
  | none => none
  | some (w, r) =>
    match kindOf w with
    | none => none
    | some k =>
      match splitSpace r with
      | none => none
      | some (i, pay) =>
        match parseDec i with
        | none => none
        | some id => some ⟨k, id, pay⟩

/-- R109: a line starts with "OK". -/
def startsOk (ln : List Byte) : Bool := ln.take 2 == txtOk

/-- R109: the trailing integer of a line. -/
def trailingInt (ln : List Byte) : Option U32 := parseDec (digitsSuffix ln)

/-- R6, R171: the key of the speed table that a requested rate is, if any. -/
def rateOf (r : U16) : Option Rate :=
  if r = 150 then some .r150
  else if r = 300 then some .r300
  else if r = 600 then some .r600
  else if r = 1200 then some .r1200
  else none

/-- The requested rate of a key (R171). -/
def rateKbit : Rate → U16
  | .r150 => 150
  | .r300 => 300
  | .r600 => 600
  | .r1200 => 1200

/-- R6: `SPEED(rate)`. -/
def speedOf : Rate → U16
  | .r150 => 2500
  | .r300 => 1250
  | .r600 => 625
  | .r1200 => 313

/-- The key whose speed an `ADD` line carries (R107), if any. -/
def rateOfSpeed (v : Nat) : Option Rate :=
  if v = 2500 then some .r150
  else if v = 1250 then some .r300
  else if v = 625 then some .r600
  else if v = 313 then some .r1200
  else none

/-- R107: the `ADD` line with its LF. -/
def addLine (pin : Byte) (rate : Rate) : List Byte :=
  txtAdd ++ [SP] ++ dec pin.toNat ++ [SP] ++ dec (speedOf rate).toNat ++ [LF]

/-- R108: the `THROTTLE` line with its LF. -/
def throttleLine (id : U32) (thr : U11) (tel : Bool) : List Byte :=
  txtThrottle ++ [SP] ++ dec id.toNat ++ [SP] ++ dec thr.toNat ++ [SP] ++ boolStr tel ++ [LF]

/-- R101, R110: a three-field response line, without its LF. -/
def rspText (k : Kind) (idText payload : List Byte) : List Byte :=
  kindText k ++ [SP] ++ idText ++ [SP] ++ payload

/-- R101: a line holds no LF. -/
def noLf (ln : List Byte) : Bool := !ln.contains LF

/-- R32, R110: a line that the line buffer holds whole. -/
def fits (ln : List Byte) : Bool := decide (ln.length ≤ Config.lineMax)

end Sys2Proof.Machine
end

