-- ==== Sys2Proof/Machine/Operands.lean ====
section
/-! DEFINITION. The operand forms: byte order of channel data (R67), packing of a ChannelFrame into a slot value (R21),
the bytes of a channel-data frame (R95), the byte lanes of the channel registers (R132), and the 16-bit frame with its
checksum (R111, R190, R191). -/

namespace Sys2Proof.Machine

/-- R9: low byte of a 16-bit value. -/
def lowByte (w : U16) : Byte := w.extractLsb' 0 8

/-- R9: high byte of a 16-bit value. -/
def highByte (w : U16) : Byte := w.extractLsb' 8 8

/-- R9: `{hi, lo}`. -/
def joinBytes (hi lo : Byte) : U16 := hi ++ lo

/-- R67, R94: channels as bytes, each low byte first, in channel order. -/
def chanBytes : List U16 → List Byte
  | [] => []
  | w :: ws => lowByte w :: highByte w :: chanBytes ws

/-- R67, R94: bytes as channels; a lone last byte makes none. -/
def bytesChans : List Byte → List U16
  | lo :: hi :: bs => joinBytes hi lo :: bytesChans bs
  | _ => []

/-- A list of exactly fourteen channels as a ChannelFrame (R21). -/
def frameOfList (l : List U16) : Option ChannelFrame :=
  if h : l.length = 14 then some ⟨⟨l⟩, h⟩ else none

/-- R94: the ChannelFrame of 28 data bytes; `none` for any other number. -/
def frameOfBytes (bs : List Byte) : Option ChannelFrame :=
  if bs.length = Config.chdataBytes then frameOfList (bytesChans bs) else none

/-- R95: `EncodeFrame(V)`, the 30 bytes of a channel-data frame. -/
def encodeFrame (f : ChannelFrame) : List Byte :=
  Config.lenChdata :: Config.hdrChdata :: chanBytes f.toList

/-- Channels as one number, channel `i` at bits `16*i + 15 : 16*i` (R21). -/
def packNat : List U16 → Nat
  | [] => 0
  | w :: ws => w.toNat + 65536 * packNat ws

/-- R21: `Pack(f)`, channel 0 in bits 15:0 and channel 13 in bits 223:208. -/
def pack (f : ChannelFrame) : Value := BitVec.ofNat 224 (packNat f.toList)

/-- R210: `Unpack(v)`, the inverse of `Pack`. -/
def unpack (v : Value) : ChannelFrame := Vector.ofFn fun i : Fin 14 => v.extractLsb' (16 * i.val) 16

/-- Bytes as one number, the first the least significant. -/
def bytesNat : List Byte → Nat
  | [] => 0
  | b :: bs => b.toNat + 256 * bytesNat bs

/-- The 28 bytes of a slot value, the least significant first. -/
def valueBytes (v : Value) : List Byte := (List.range 28).map fun i => v.extractLsb' (8 * i) 8

/-- R132: channel register `w` with its low byte written. -/
def withLow (w : U16) (b : Byte) : U16 := joinBytes (highByte w) b

/-- R132: channel register `w` with its high byte written. -/
def withHigh (w : U16) (b : Byte) : U16 := joinBytes b (lowByte w)

/-- R132: the byte with payload index `p` (1 to 28) goes to channel `(p - 1) >> 1`, odd `p` to the low byte, even `p` to
the high byte. Index 0 and indexes from 29 on write no lane. -/
def laneWrite (ch : ChannelFrame) (p : Nat) (b : Byte) : ChannelFrame :=
  if p = 0 then ch
  else if h : (p - 1) / 2 < 14 then
    if (p - 1) % 2 = 0 then ch.set ((p - 1) / 2) (withLow ch[(p - 1) / 2] b)
    else ch.set ((p - 1) / 2) (withHigh ch[(p - 1) / 2] b)
  else ch

/-- R190: the checksum over bits 11:0, as the document's formula on 16 bits masked to four. -/
def checksum (d : U16) : U16 := (~~~(d ^^^ (d >>> 4) ^^^ (d >>> 8))) &&& 0x000F

/-- R190: the 12-bit field, throttle in bits 10:0 and telemetry in bit 11. -/
def binField (thr : U11) (tel : Bool) : U16 :=
  thr.setWidth 16 ||| ((BitVec.ofBool tel).setWidth 16 <<< 11)

/-- R190: `BinFrame(thr, tel)`. -/
def binFrame (thr : U11) (tel : Bool) : U16 :=
  binField thr tel ||| (checksum (binField thr tel) <<< 12)

/-- R191: `Verify(fr)`. -/
def verifyFrame (fr : U16) : Bool := checksum (fr &&& 0x0FFF) == fr >>> 12

/-- R111: the throttle field of a 16-bit frame. -/
def frameThr (fr : U16) : U11 := fr.extractLsb' 0 11

/-- R111: the telemetry bit of a 16-bit frame. -/
def frameTel (fr : U16) : Bool := fr.getLsbD 11

/-- R68, R177: the two bytes of a 16-bit frame, low byte first. -/
def binBytes (thr : U11) (tel : Bool) : List Byte :=
  [lowByte (binFrame thr tel), highByte (binFrame thr tel)]

end Sys2Proof.Machine
end

