-- ==== Sys2Proof/WellFormed.lean ====
section
/-! DEFINITION. The checks on an operation's operands that its encoding demands (R96, R105, R109, R110, R113), beyond
what the types already say. -/

namespace Sys2Proof

open Machine

/-- R101, R105, R110: the fields of a three-field response. -/
def wfResponse (k : Kind) (idText payload : List Byte) : Bool :=
  (parseDec idText).isSome && noLf payload && fits (rspText k idText payload)

/-- The operands are ones the operation's encoding can carry. -/
def Instr.wf : Instr → Bool
  | .sframeZerolen => true
  | .sframeEmpty => true
  | .sframeChdata _ => true
  | .sframeBadlen len rest =>
    decide (2 ≤ len.toNat) && decide (len ≠ Config.lenChdata) && decide (rest.length = len.toNat - 2)
  | .sframeOther len hdr rest =>
    decide (2 ≤ len.toNat) && decide (hdr ≠ Config.hdrChdata) && decide (rest.length = len.toNat - 2)
  | .decLen => true
  | .decPayload => true
  | .decDeliver s => decide (s < 256)
  | .decRxerr => true
  | .publish s _ => decide (s < 256)
  | .take s c => decide (s < 256) && decide (c < 256)
  | .peek s c => decide (s < 256) && decide (c < 256)
  | .init _ _ _ => true
  | .send _ _ => true
  | .sendText _ _ => true
  | .sendBin16 _ _ => true
  | .escRspbyte => true
  | .escRsperr => true
  | .tlineAdd _ _ => true
  | .tlineThrottle _ _ _ => true
  | .hsOk rest => noLf rest && fits (txtOk ++ rest) && (trailingInt (txtOk ++ rest)).isSome
  | .hsOkNoint rest => noLf rest && fits (txtOk ++ rest) && (trailingInt (txtOk ++ rest)).isNone
  | .hsOther ln => noLf ln && (!fits ln || !startsOk ln)
  | .rspThrottle i p => wfResponse .throttle i p
  | .rspOk i p => wfResponse .ok i p
  | .rspErr i p => wfResponse .err i p
  | .rspInvalid ln => noLf ln && (!fits ln || (parseCommand ln).isNone)
  | .bin16Frame _ _ => true
  | .servomap _ => true
  | .escmap _ => true

end Sys2Proof
end

