-- ==== Sys2Proof/Decode.lean ====
section
/-! DEFINITION. Decoding, total on any bytes at any port and rejecting by name; the encoder; and the opcode table's own
numbering of words. Serial frames are R91 to R96, lines R101 to R110, the 16-bit frame R111, port signals R37 to R39 and
R114. The byte layout of the PORT and FUNC forms is the model's (log entry 6, DESIGN CHOICE). -/

namespace Sys2Proof

open Machine

/-- The bytes of a form that has exactly `n`. -/
def exactly (n : Nat) (bs : List Byte) : Except Reject Unit :=
  if bs.length < n then .error .truncated
  else if bs.length = n then .ok ()
  else .error .overrun

/-- R92: the number of bytes of the frame whose length byte is `len`. -/
def frameLength (len : Byte) : Nat := if len = 0 then 1 else len.toNat

/-- R91, R96: the class of a whole serial frame. -/
def decodeSerial : List Byte → Except Reject Instr
  | [] => .error .truncated
  | len :: bs =>
    match exactly (frameLength len) (len :: bs) with
    | .error e => .error e
    | .ok () =>
      if len = 0 then .ok .sframeZerolen
      else if len = 1 then .ok .sframeEmpty
      else match bs with
        | [] => .error .truncated
        | hdr :: rest =>
          if hdr = Config.hdrChdata then
            if len = Config.lenChdata then
              match frameOfBytes rest with
              | some f => .ok (.sframeChdata f)
              | none => .error .truncated
            else .ok (.sframeBadlen len rest)
          else .ok (.sframeOther len hdr rest)

/-- R38, R236: a cycle of the decoder's port, one byte of sampled signals: `rx_valid` in bit 0, `rx_err` in bit 1, the code
of `dstate` in bits 3:2. An error wins over a byte. -/
def decodeRx (b : Byte) : Except Reject Instr :=
  if b.extractLsb' 2 2 = 0#2 then
    if b.getLsbD 1 then .ok .decRxerr else if b.getLsbD 0 then .ok .decLen else .error .noEvent
  else if b.extractLsb' 2 2 = 1#2 then
    if b.getLsbD 1 then .ok .decRxerr else if b.getLsbD 0 then .ok .decPayload else .error .noEvent
  else .error .decoderStopped

/-- R39, R236: a cycle of the response port: `rsp_valid` in bit 0, `rsp_err` in bit 1. An error wins over a byte. -/
def decodeRsp (b : Byte) : Except Reject Instr :=
  if b.getLsbD 1 then .ok .escRsperr else if b.getLsbD 0 then .ok .escRspbyte else .error .noEvent

/-- R30, R39: the wire mode a mode bit names. -/
def modeOfBit (b : Bool) : WireMode := if b then .bin16 else .text

/-- R30: the mode bit of a wire mode. -/
def bitOfMode : WireMode → Byte
  | .text => 0
  | .bin16 => 1

/-- An 11-bit throttle from its two bytes, the low one first. -/
def thrOfBytes (lo hi : Byte) : U11 := (joinBytes hi lo).setWidth 11

/-- R39, R114: a cycle of the operation port: `op_code` (bit 0), `op_pin`, `op_rate` low and high, `op_mode` (bit 0),
`op_thr` low and high, `op_tel` (bit 0). Operands of the other operation are ignored. -/
def decodeOp : List Byte → Except Reject Instr
  | [code, pin, rlo, rhi, mode, tlo, thi, tel] =>
    if code.getLsbD 0 then .ok (.send (thrOfBytes tlo thi) (tel.getLsbD 0))
    else .ok (.init pin (joinBytes rhi rlo) (modeOfBit (mode.getLsbD 0)))
  | bs => if bs.length < 8 then .error .truncated else .error .overrun

/-- R176, R177: the action of SEND in a mode: `op_thr` low and high, `op_tel` (bit 0). -/
def decodeSendIn (m : WireMode) : List Byte → Except Reject Instr
  | [tlo, thi, tel] =>
    match m with
    | .text => .ok (.sendText (thrOfBytes tlo thi) (tel.getLsbD 0))
    | .bin16 => .ok (.sendBin16 (thrOfBytes tlo thi) (tel.getLsbD 0))
  | bs => if bs.length < 3 then .error .truncated else .error .overrun

/-- R101: a line without its terminating LF. -/
def lineOf (bs : List Byte) : Except Reject (List Byte) :=
  if bs.getLast? = some LF then
    if noLf bs.dropLast then .ok bs.dropLast else .error .innerLineFeed
  else .error .noLineFeed

/-- R109, R113: the class of a handshake line. -/
def classifyHs (ln : List Byte) : Instr :=
  if fits ln && startsOk ln then
    if (trailingInt ln).isSome then .hsOk (ln.drop 2) else .hsOkNoint (ln.drop 2)
  else .hsOther ln

/-- R110, R113: the class of a response line, with the text of its id field. -/
def classifyRsp (ln : List Byte) : Instr :=
  if fits ln && (parseCommand ln).isSome then
    match splitSpace ln with
    | none => .rspInvalid ln
    | some (w, r) =>
      match splitSpace r with
      | none => .rspInvalid ln
      | some (i, pay) =>
        match kindOf w with
        | some .throttle => .rspThrottle i pay
        | some .ok => .rspOk i pay
        | some .err => .rspErr i pay
        | none => .rspInvalid ln
  else .rspInvalid ln

/-- R103: a decimal text that `dec` would write: no leading zero, at most `max`. -/
def canonical (max : Nat) (s : List Byte) : Option Nat :=
  match parseDec s with
  | some v => if dec v.toNat = s ∧ v.toNat ≤ max then some v.toNat else none
  | none => none

/-- R104: the boolean a word names. -/
def boolOf (w : List Byte) : Option Bool :=
  if w = txtTrue then some true else if w = txtFalse then some false else none

/-- R107: the operands of an ADD line, after `"ADD "`. -/
def decodeAdd (r : List Byte) : Except Reject Instr :=
  match splitSpace r with
  | none => .error .notACommand
  | some (p, v) =>
    match canonical 255 p, canonical 65535 v with
    | some pin, some speed =>
      match rateOfSpeed speed with
      | some rate => .ok (.tlineAdd (BitVec.ofNat 8 pin) rate)
      | none => .error .notACommand
    | _, _ => .error .notACommand

/-- R108: the operands of a THROTTLE line, after `"THROTTLE "`. -/
def decodeThrottle (r : List Byte) : Except Reject Instr :=
  match splitSpace r with
  | none => .error .notACommand
  | some (i, r1) =>
    match splitSpace r1 with
    | none => .error .notACommand
    | some (t, b) =>
      match canonical 4294967295 i, canonical 2047 t, boolOf b with
      | some id, some thr, some tel => .ok (.tlineThrottle (BitVec.ofNat 32 id) (BitVec.ofNat 11 thr) tel)
      | _, _, _ => .error .notACommand

/-- R107, R108: a line on the command stream. -/
def decodeCmdText (ln : List Byte) : Except Reject Instr :=
  match splitSpace ln with
  | none => .error .notACommand
  | some (w, r) =>
    if w = txtAdd then decodeAdd r
    else if w = txtThrottle then decodeThrottle r
    else .error .notACommand

/-- R111, R191: a 16-bit frame on the command stream. -/
def decodeCmdBin : List Byte → Except Reject Instr
  | [lo, hi] =>
    if verifyFrame (joinBytes hi lo) then
      .ok (.bin16Frame (frameThr (joinBytes hi lo)) (frameTel (joinBytes hi lo)))
    else .error .badChecksum
  | bs => if bs.length < 2 then .error .truncated else .error .overrun

/-- The instruction that the bytes of one unit at a port are, or the name under which they are rejected. -/
def decode (p : Port) (bs : List Byte) : Except Reject Instr :=
  match p with
  | .serial fr => if fr = .lengthPrefixed then decodeSerial bs else .error (.framing fr)
  | .rx =>
    match bs with
    | [b] => decodeRx b
    | _ => if bs.length < 1 then .error .truncated else .error .overrun
  | .deliver =>
    match bs with
    | [s] => .ok (.decDeliver s.toNat)
    | _ => if bs.length < 1 then .error .truncated else .error .overrun
  | .pub =>
    match bs with
    | [] => .error .truncated
    | s :: v =>
      match exactly 28 v with
      | .ok () => .ok (.publish s.toNat (BitVec.ofNat 224 (bytesNat v)))
      | .error e => .error e
  | .take =>
    match bs with
    | [s, c] => .ok (.take s.toNat c.toNat)
    | _ => if bs.length < 2 then .error .truncated else .error .overrun
  | .peek =>
    match bs with
    | [s, c] => .ok (.peek s.toNat c.toNat)
    | _ => if bs.length < 2 then .error .truncated else .error .overrun
  | .op => decodeOp bs
  | .sendIn m => decodeSendIn m bs
  | .rsp =>
    match bs with
    | [b] => decodeRsp b
    | _ => if bs.length < 1 then .error .truncated else .error .overrun
  | .cmdText =>
    match lineOf bs with
    | .ok ln => decodeCmdText ln
    | .error e => .error e
  | .cmdBin => decodeCmdBin bs
  | .hsLine =>
    match lineOf bs with
    | .ok ln => .ok (classifyHs ln)
    | .error e => .error e
  | .rspLine =>
    match lineOf bs with
    | .ok ln => .ok (classifyRsp ln)
    | .error e => .error e
  | .servo =>
    match frameOfBytes bs with
    | some f => .ok (.servomap f)
    | none => if bs.length < 28 then .error .truncated else .error .overrun
  | .escFn =>
    match frameOfBytes bs with
    | some f => .ok (.escmap f)
    | none => if bs.length < 28 then .error .truncated else .error .overrun

/-- The byte of a boolean signal. -/
def bitByte (b : Bool) : Byte := if b then 1 else 0

/-- The two bytes of a throttle, the low one first. -/
def thrBytes (thr : U11) : List Byte := [lowByte (thr.setWidth 16), highByte (thr.setWidth 16)]

/-- Where an instruction's encoding stands. -/
def portOf : Instr → Port
  | .sframeZerolen => .serial .lengthPrefixed
  | .sframeEmpty => .serial .lengthPrefixed
  | .sframeChdata _ => .serial .lengthPrefixed
  | .sframeBadlen _ _ => .serial .lengthPrefixed
  | .sframeOther _ _ _ => .serial .lengthPrefixed
  | .decLen => .rx
  | .decPayload => .rx
  | .decDeliver _ => .deliver
  | .decRxerr => .rx
  | .publish _ _ => .pub
  | .take _ _ => .take
  | .peek _ _ => .peek
  | .init _ _ _ => .op
  | .send _ _ => .op
  | .sendText _ _ => .sendIn .text
  | .sendBin16 _ _ => .sendIn .bin16
  | .escRspbyte => .rsp
  | .escRsperr => .rsp
  | .tlineAdd _ _ => .cmdText
  | .tlineThrottle _ _ _ => .cmdText
  | .hsOk _ => .hsLine
  | .hsOkNoint _ => .hsLine
  | .hsOther _ => .hsLine
  | .rspThrottle _ _ => .rspLine
  | .rspOk _ _ => .rspLine
  | .rspErr _ _ => .rspLine
  | .rspInvalid _ => .rspLine
  | .bin16Frame _ _ => .cmdBin
  | .servomap _ => .servo
  | .escmap _ => .escFn

/-- The bytes of an instruction's encoding. -/
def encodeBytes : Instr → List Byte
  | .sframeZerolen => [0x00]
  | .sframeEmpty => [0x01]
  | .sframeChdata f => encodeFrame f
  | .sframeBadlen len rest => len :: Config.hdrChdata :: rest
  | .sframeOther len hdr rest => len :: hdr :: rest
  | .decLen => [0x01]
  | .decPayload => [0x05]
  | .decDeliver s => [BitVec.ofNat 8 s]
  | .decRxerr => [0x02]
  | .publish s v => BitVec.ofNat 8 s :: valueBytes v
  | .take s c => [BitVec.ofNat 8 s, BitVec.ofNat 8 c]
  | .peek s c => [BitVec.ofNat 8 s, BitVec.ofNat 8 c]
  | .init pin rate mode => [0, pin, lowByte rate, highByte rate, bitOfMode mode, 0, 0, 0]
  | .send thr tel => [1, 0, 0, 0, 0] ++ thrBytes thr ++ [bitByte tel]
  | .sendText thr tel => thrBytes thr ++ [bitByte tel]
  | .sendBin16 thr tel => thrBytes thr ++ [bitByte tel]
  | .escRspbyte => [0x01]
  | .escRsperr => [0x02]
  | .tlineAdd pin rate => addLine pin rate
  | .tlineThrottle id thr tel => throttleLine id thr tel
  | .hsOk rest => txtOk ++ rest ++ [LF]
  | .hsOkNoint rest => txtOk ++ rest ++ [LF]
  | .hsOther ln => ln ++ [LF]
  | .rspThrottle i p => rspText .throttle i p ++ [LF]
  | .rspOk i p => rspText .ok i p ++ [LF]
  | .rspErr i p => rspText .err i p ++ [LF]
  | .rspInvalid ln => ln ++ [LF]
  | .bin16Frame thr tel => binBytes thr tel
  | .servomap f => chanBytes f.toList
  | .escmap f => chanBytes f.toList

/-- The unit that is an instruction's encoding. -/
def encode (i : Instr) : Port × List Byte := (portOf i, encodeBytes i)

/-- The unit that a word of the opcode table stands for. Rows of 16 bits are SFRAME rows: `L` is bits 15:8 and `HDR` bits 7:0
(R116), the frame's further bytes are 0. Rows of at most 8 bits are the operation port's `op_code` (R114), its operands 0. -/
def tableUnit (nbits w : Nat) : Option (Port × List Byte) :=
  if nbits ≤ 8 then some (.op, [BitVec.ofNat 8 w, 0, 0, 0, 0, 0, 0, 0])
  else if nbits ≤ 16 then
    let len : Byte := BitVec.ofNat 8 (w / 256)
    some (.serial .lengthPrefixed,
      (len :: BitVec.ofNat 8 w :: List.replicate (frameLength len - 2) 0).take (frameLength len))
  else none

/-- The instruction the decoder reads from a word of the opcode table (bit 0 the least significant). -/
def decodeTableWord (nbits w : Nat) : Option Instr :=
  match tableUnit nbits w with
  | some (p, bs) =>
    match decode p bs with
    | .ok i => some i
    | .error _ => none
  | none => none

end Sys2Proof
end

