-- ==== Sys2Proof/Machine/State.lean ====
section
/-! DEFINITION. The state of the block (R20), of its environment (R17), of the observer (R18) and of the two control loops
(R210), as plain data; the faults and refusals of the model; the state after reset (R41). -/

namespace Sys2Proof.Machine

/-- R24: the decoder's sequencer, `D_LEN = 0`, `D_PAYLOAD = 1`, `D_FATAL = 2`. -/
inductive DState where
  | len
  | payload
  | fatal
  deriving DecidableEq, Repr

/-- R29: the engine's sequencer, `E_UNINIT = 0` to `E_FAULT = 4`. -/
inductive EState where
  | uninit
  | hsWait
  | ready
  | rspWait
  | fault
  deriving DecidableEq, Repr

/-- R35: the values `ecause` takes, codes 0, 2, 3, 4. -/
inductive Cause where
  | none
  | streamIo
  | protocol
  | config
  deriving DecidableEq, Repr

/-- R35: operation status, codes 0 to 3. -/
inductive Status where
  | ok
  | protocol
  | fault
  | badState
  deriving DecidableEq, Repr

/-- R31: the operation in progress, `0` INIT, `1` SEND. -/
inductive Op where
  | init
  | send
  deriving DecidableEq, Repr

/-- R35: skip reasons, codes `SK_HEADER = 1`, `SK_ZEROLEN = 2`, `SK_EMPTY = 3`, `SK_BADLEN = 4`. -/
inductive SkipReason where
  | header
  | zeroLen
  | empty
  | badLen
  deriving DecidableEq, Repr

/-- R17: an event of the serial or of the response stream. -/
inductive StreamEv where
  | byte (b : Byte)
  | ioError
  deriving DecidableEq, Repr

/-- R18: an event of the output trace. -/
inductive Event where
  | frame (f : ChannelFrame)
  | skip (r : SkipReason)
  | decFatal
  | hsIgnored (ln : List Byte)
  | escFault (c : Cause)
  deriving DecidableEq, Repr

/-- R18, R33: a value returned to the caller of an operation. Where the completion writes the status alone, the status
alone is returned (U15). -/
inductive Ret where
  | take (s c : Nat) (v : Value)
  | peek (s c : Nat) (r : Option Value)
  | init (st : Status) (id : Option U32)
  | send (st : Status) (cmd : Option EscCommand)
  deriving DecidableEq, Repr

/-- R22 to R24: the decoder. -/
structure Dec where
  dstate : DState
  dlen : Byte
  dcnt : Nat
  dhdr : Byte
  ch : ChannelFrame
  dpub : List Bool
  deriving DecidableEq, Repr

/-- R26, R27: one slot, with a waiter bit for each of its consumer ports. -/
structure Slot where
  val : Value
  full : Bool
  wait : List Bool
  deriving DecidableEq, Repr

/-- R29 to R33: the engine. -/
structure Esc where
  estate : EState
  emode : WireMode
  epin : Byte
  erate : U16
  espeed : U16
  eid : U32
  ecause : Cause
  eop : Op
  lbuf : List Byte
  llen : Nat
  lovf : Bool
  rstatus : Status
  rkind : Kind
  rid : U32
  rpay : List Byte
  rplen : Nat
  deriving DecidableEq, Repr

/-- R210: where the servo loop stands: about to read its slot, or holding a frame value to map. -/
inductive ServoPhase where
  | get
  | have (v : Value)
  deriving DecidableEq, Repr

/-- R210, R211, R264: where the ESC loop stands. -/
inductive EscPhase where
  | boot
  | waitInit
  | get
  | have (v : Value)
  | issue (thr : U11) (tel : Bool)
  | waitSend
  | stopped
  deriving DecidableEq, Repr

/-- What is scheduled next: an environment action, a control loop's turn, or one unit of an agent's operation as it
stands on a stream or a port (R14). -/
inductive Act where
  /-- SRC drives one cycle of the serial port (R38). -/
  | rx (valid err : Bool) (data : Byte)
  /-- SVC drives one cycle of the response port (R39). -/
  | rsp (valid err : Bool) (data : Byte)
  /-- SVC removes bytes from the head of the command stream (R17). -/
  | svcRead (n : Nat)
  /-- The environment's choice for a coming TxWrite (R17, R62): `none` is `Ok`, `some k` is `IoError(k)`. -/
  | cmdFail (c : Option Nat)
  /-- The reset input (R260, R261). -/
  | rst
  /-- The servo loop's turn (R210). -/
  | servoLoop
  /-- The ESC loop's turn (R210, R211). -/
  | escLoop
  /-- An operation, as its unit's bytes at its port; it is decoded and then executed. -/
  | unit (p : Port) (bytes : List Byte)
  deriving DecidableEq, Repr

/-- The whole machine. `dec`, `slots` and `esc` are the block (R20); `rxq`, `cmdq`, `rspq` and `cmdFail` its environment
(R17); `trace` the output trace and `rets` the returned values (R18); `cmdRead` what SVC has removed from `cmdq`;
`servoRes`, `escRes`, `servoOut`, `servoLoop`, `escLoop` the control loops (R210 to R213); `params` the open parameters
(R8); `sched` the schedule (R14). -/
structure State where
  dec : Dec
  slots : List Slot
  esc : Esc
  rxq : List StreamEv
  cmdq : List Byte
  rspq : List StreamEv
  cmdFail : List (Option Nat)
  trace : List Event
  rets : List Ret
  cmdRead : List Byte
  servoRes : Option Int
  escRes : Option (U11 × Bool)
  servoOut : List Int
  servoLoop : ServoPhase
  escLoop : EscPhase
  params : Params
  sched : List Act
  deriving DecidableEq, Repr

/-- Where the model stops on an operation of a port that does not exist. -/
inductive Fault where
  /-- An operation names a slot `s >= N_SLOTS` (R14: `s < N_SLOTS`). Raised by DEC.DELIVER, PUBLISH, TAKE, PEEK and the
  loops. Safe: the block has no such port, so no execution of it goes on there. -/
  | noSuchSlot (s : Nat)
  /-- TAKE or PEEK names a consumer port `c >= N_CONS` of the slot (R14: `c < N_CONS`). Safe, as above. -/
  | noSuchConsumer (s c : Nat)
  deriving DecidableEq, Repr

/-- Where the model has no meaning for what is scheduled. -/
inductive Refusal where
  /-- An instruction without a meaning; raised by `exec`'s arms only. Safe. -/
  | notModelled (mnemonic : String)
  /-- A unit whose bytes no rule reads, with decoding's name for why; raised by the step. Safe: the block has no such
  operation (R5, R96, R101, R111, R114). -/
  | undecodable (why : Reject)
  deriving DecidableEq, Repr

/-- R41: the decoder after reset; `ch` is unspecified there (log entry 7, DESIGN CHOICE 0). -/
def Dec.reset (n : Nat) : Dec where
  dstate := .len
  dlen := 0
  dcnt := 0
  dhdr := 0
  ch := Vector.replicate 14 0
  dpub := List.replicate n false

/-- R41: a slot with `m` consumer ports after reset; `sval` is unspecified there (log entry 7, DESIGN CHOICE 0). -/
def Slot.reset (m : Nat) : Slot where
  val := 0
  full := false
  wait := List.replicate m false

/-- R41: the engine after reset; the configuration, id, buffer and result registers are unspecified there (log entry 7,
DESIGN CHOICE 0). -/
def Esc.reset : Esc where
  estate := .uninit
  emode := .text
  epin := 0
  erate := 0
  espeed := 0
  eid := 0
  ecause := .none
  eop := .init
  lbuf := List.replicate Config.lineMax 0
  llen := 0
  lovf := false
  rstatus := .ok
  rkind := .throttle
  rid := 0
  rpay := List.replicate Config.lineMax 0
  rplen := 0

/-- The open parameters of a machine (log entry 9): uninterpreted constants, but for `PEEK_CLEARS`, whose default is
`false` (U3, log entry 10). -/
def Params.start : Params where
  servoK := Config.servoK
  servoLo := Config.servoLo
  servoHi := Config.servoLo + Config.servoSpan
  readServo := Config.readServo
  readEsc := Config.readEsc
  peekClears := false
  pin := Config.pin
  rate := Config.rate
  wireMode := Config.wireMode

/-- R41, R260: the machine right after the first reset, with `N_SLOTS = 2` and `N_CONS = 1` (R7), nothing in any stream and
nothing scheduled (log entries 2 and 16). -/
def State.reset : State where
  dec := Dec.reset Config.nSlots
  slots := List.replicate Config.nSlots (Slot.reset Config.nCons)
  esc := Esc.reset
  rxq := []
  cmdq := []
  rspq := []
  cmdFail := []
  trace := []
  rets := []
  cmdRead := []
  servoRes := none
  escRes := none
  servoOut := []
  servoLoop := .get
  escLoop := .boot
  params := Params.start
  sched := []

end Sys2Proof.Machine
end

