-- ==== Sys2Proof/Machine/Flags.lean ====
section
/-! DEFINITION. Every flag and level of the block as a function of the state: the codes of R24, R29 and R35, the enabling
conditions of the stream reads (R61, R64), and the output levels of the ports (R38, R39). No operation sets an arithmetic
condition code (R28). -/

namespace Sys2Proof.Machine

/-- R24: the code of `dstate`. -/
def dstateCode : DState → Nat
  | .len => 0
  | .payload => 1
  | .fatal => 2

/-- R29: the code of `estate`. -/
def estateCode : EState → Nat
  | .uninit => 0
  | .hsWait => 1
  | .ready => 2
  | .rspWait => 3
  | .fault => 4

/-- R35: the code of a cause. -/
def causeCode : Cause → Nat
  | .none => 0
  | .streamIo => 2
  | .protocol => 3
  | .config => 4

/-- R35: the code of a status. -/
def statusCode : Status → Nat
  | .ok => 0
  | .protocol => 1
  | .fault => 2
  | .badState => 3

/-- R35: the code of a command kind. -/
def kindCode : Kind → Nat
  | .throttle => 0
  | .ok => 1
  | .err => 2

/-- R35: the code of a skip reason. -/
def skipCode : SkipReason → Nat
  | .header => 1
  | .zeroLen => 2
  | .empty => 3
  | .badLen => 4

/-- R31: the code of the operation in progress. -/
def opCode : Op → Nat
  | .init => 0
  | .send => 1

/-- R61: no PUBLISH of a completed frame is pending. -/
def noPending (d : Dec) : Bool := d.dpub.all (fun b => !b)

/-- R61: the decoder may take a serial event, were there one. -/
def decTakes (d : Dec) : Bool := d.dstate != .fatal && noPending d

/-- R61: `RxNext` is enabled. -/
def rxEnabled (s : State) : Bool := !s.rxq.isEmpty && decTakes s.dec

/-- R29: the engine is busy. -/
def busy (e : Esc) : Bool := e.estate == .hsWait || e.estate == .rspWait

/-- R64: `RspNext` is enabled. -/
def rspEnabled (s : State) : Bool := !s.rspq.isEmpty && busy s.esc

/-- R154: the consumer has a TAKE outstanding. -/
def waiting (sl : Slot) (c : Nat) : Bool := sl.wait[c]? == some true

/-- R38: the level `rx_ready`. -/
def rxReady (d : Dec) : Bool := d.dstate != .fatal

/-- R28, R38: the level `dec_fatal`, the decoder's sticky fatal flag. -/
def decFatal (d : Dec) : Bool := d.dstate == .fatal

/-- R39: the level `op_ready`, engine idle. -/
def opReady (e : Esc) : Bool := !busy e

/-- R39: the level `rsp_ready`, 1 exactly while the engine is busy. -/
def rspReady (e : Esc) : Bool := busy e

/-- R28, R39: the level `esc_fault`, the engine's sticky fault flag. -/
def escFault (e : Esc) : Bool := e.estate == .fault

/-- R39: the output `esc_cause`. -/
def escCause (e : Esc) : Nat := causeCode e.ecause

/-- R38, R39, R236: the event of one cycle of a byte port: the error wins, and the byte of its cycle is not taken. -/
def cycleEvent (valid err : Bool) (data : Byte) : Option StreamEv :=
  if err then some .ioError else if valid then some (.byte data) else none

end Sys2Proof.Machine
end

