-- ==== Sys2Proof/Machine/Ops.lean ====
section
/-! DEFINITION. The named operations that the meanings share: the stream primitives (R61 to R64), the slot operations
(R151 to R154), the completion of an operation (R170), the entry of the four error classes (R240 to R243) as ONE
operation, and the only way back from a fatal state, reset (R245, R260). -/

namespace Sys2Proof.Machine

/-- R13: `emit`. -/
def emit (e : Event) (s : State) : State := { s with trace := s.trace ++ [e] }

/-- R18: hand a value to the caller of an operation. -/
def answer (r : Ret) (s : State) : State := { s with rets := s.rets ++ [r] }

/-- R62: `TxWrite(s)`, with the environment's next choice: `Ok` appends all of `bs`, `IoError(k)` with `k < n` the first `k`
bytes. Answers whether the write succeeded (log entry 11). -/
def txWrite (bs : List Byte) (s : State) : Bool × State :=
  match s.cmdFail with
  | [] => (true, { s with cmdq := s.cmdq ++ bs })
  | none :: r => (true, { s with cmdq := s.cmdq ++ bs, cmdFail := r })
  | some k :: r =>
    if k < bs.length then (false, { s with cmdq := s.cmdq ++ bs.take k, cmdFail := r })
    else (true, { s with cmdq := s.cmdq ++ bs, cmdFail := r })

/-- R170: complete the operation in progress with a status alone: the status register is written and `HOST` gets it. -/
def completeStatus (op : Op) (st : Status) (s : State) : State :=
  let s := { s with esc := { s.esc with rstatus := st } }
  match op with
  | .init => answer (.init st none) s
  | .send => answer (.send st none) s

/-- R172: INIT completes with `(ST_OK, id)`. -/
def completeInit (id : U32) (s : State) : State :=
  answer (.init .ok (some id)) { s with esc := { s.esc with rstatus := .ok, rid := id } }

/-- R33: the first bytes of a register replaced by `pay`, the others kept. -/
def overlay (pay old : List Byte) : List Byte := pay ++ old.drop pay.length

/-- R178: SEND completes with `ST_OK` and the parsed command. -/
def completeCommand (c : EscCommand) (s : State) : State :=
  answer (.send .ok (some c))
    { s with esc := { s.esc with
        rstatus := .ok, rkind := c.kind, rid := c.id, rplen := c.payload.length, rpay := overlay c.payload s.esc.rpay } }

/-- The places at which an error class is raised (R230's table). -/
inductive ErrorSite where
  /-- DecodeError (R231, R240). -/
  | decode (r : SkipReason)
  /-- StreamIoError in the decoder (R232, R241). -/
  | serialIo
  /-- StreamIoError in the engine, ending an operation (R232, R241). -/
  | engineIo (op : Op)
  /-- ProtocolError in the handshake (R233, R242). -/
  | handshake
  /-- ProtocolError in a SEND (R233, R242). -/
  | response
  /-- ConfigError (R234, R243). -/
  | config
  deriving DecidableEq, Repr

/-- R170: `Fault(c)`. -/
def escStop (c : Cause) (s : State) : State :=
  emit (.escFault c) { s with esc := { s.esc with estate := .fault, ecause := c } }

/-- R241: the line reader is emptied. -/
def dropLine (s : State) : State := { s with esc := { s.esc with llen := 0, lovf := false } }

/-- R13, R240 to R244: the entry of an error class, everything it does and nothing else: the sequencer it moves, the
event it emits, and the completion of the operation it ends. -/
def raise (e : ErrorSite) (s : State) : State :=
  match e with
  | .decode r => emit (.skip r) { s with dec := { s.dec with dstate := .len } }
  | .serialIo => emit .decFatal { s with dec := { s.dec with dstate := .fatal } }
  | .engineIo op => completeStatus op .fault (escStop .streamIo (dropLine s))
  | .handshake => completeStatus .init .fault (escStop .protocol (dropLine s))
  | .response => completeStatus .send .protocol { s with esc := { s.esc with estate := .ready } }
  | .config => completeStatus .init .fault (escStop .config s)

/-- R245, R260 to R262: reset, the only exit from `D_FATAL` and `E_FAULT`. Every piece of the block's state takes its value of
R41, all sub-blocks together, and calls in progress are dropped. The streams, the observation, the parameters and the
schedule are not the block's and stay. The control loops restart (log entry 15). -/
def resetBlock (s : State) : State :=
  { s with
    dec := Dec.reset s.slots.length
    slots := s.slots.map fun sl => Slot.reset sl.wait.length
    esc := Esc.reset
    servoLoop := .get
    escLoop := .boot }

/-- R151: PUBLISH. A waiter is not changed: being woken is only that its TAKE may now complete (R155). -/
def slotPublish (k : Nat) (v : Value) (s : State) : State :=
  { s with slots := s.slots.modify k fun sl => { sl with val := v, full := true } }

/-- R152, R153: TAKE. With a pending value the flag is cleared, the caller stops waiting and gets the value; otherwise it
waits. Answers the value of a completed TAKE. -/
def slotTake (k c : Nat) (s : State) : Option Value × State :=
  match s.slots[k]? with
  | none => (none, s)
  | some sl =>
    if sl.full then
      (some sl.val,
        answer (.take k c sl.val) { s with slots := s.slots.set k { sl with full := false, wait := sl.wait.set c false } })
    else (none, { s with slots := s.slots.set k { sl with wait := sl.wait.set c true } })

/-- R154: PEEK. No state is written, unless `PEEK_CLEARS` (U3) is set. Answers the value of a hit. -/
def slotPeek (k c : Nat) (s : State) : Option Value × State :=
  match s.slots[k]? with
  | none => (none, s)
  | some sl =>
    if sl.full then
      (some sl.val,
        answer (.peek k c (some sl.val))
          { s with slots := s.slots.set k { sl with full := !s.params.peekClears } })
    else (none, answer (.peek k c none) s)

/-- R14: run an operation of a consumer port that exists. -/
def atPort (k c : Nat) (s : State) (f : State → State) : Host.Outcome State Fault Refusal :=
  match s.slots[k]? with
  | none => .fault (.noSuchSlot k)
  | some sl => if c < sl.wait.length then .next (f s) else .fault (.noSuchConsumer k c)

/-- R14: run an operation of a slot that exists. -/
def atSlot (k : Nat) (s : State) (f : State → State) : Host.Outcome State Fault Refusal :=
  if k < s.slots.length then .next (f s) else .fault (.noSuchSlot k)

end Sys2Proof.Machine
end

