-- ==== Sys2Proof/Machine/Decoder.lean ====
section
/-! DEFINITION. The FrameDecoder (spec/41_frame_decoder.md): its four steps, its run over whatever the serial stream
holds, and the meanings of the SFRAME and DEC rows. -/

namespace Sys2Proof.Machine

/-- R131: accept a length byte. -/
def acceptLen (b : Byte) (s : State) : State :=
  let s := { s with dec := { s.dec with dlen := b, dcnt := 0 } }
  if b = 0 then raise (.decode .zeroLen) s
  else if b = 1 then raise (.decode .empty) s
  else { s with dec := { s.dec with dstate := .payload } }

/-- R133: FrameComplete. The channel registers are as they are after the lane write of the same step. -/
def frameComplete (h : Byte) (s : State) : State :=
  if h = Config.hdrChdata then
    if s.dec.dlen = Config.lenChdata then
      emit (.frame s.dec.ch)
        { s with dec := { s.dec with dstate := .len, dpub := List.replicate s.slots.length true } }
    else raise (.decode .badLen) s
  else raise (.decode .header) s

/-- R132: the header of the frame in progress, known from payload byte 0 on. -/
def frameHeader (b : Byte) (d : Dec) : Byte := if d.dcnt = 0 then b else d.dhdr

/-- R132: where a payload byte goes: the header latch, a byte lane of a channel register, or nowhere. -/
def storePayload (b : Byte) (d : Dec) : Dec :=
  if d.dcnt = 0 then { d with dhdr := b }
  else if d.dhdr = Config.hdrChdata then { d with ch := laneWrite d.ch d.dcnt b }
  else d

/-- R132: accept a payload byte. -/
def acceptPayload (b : Byte) (s : State) : State :=
  let h := frameHeader b s.dec
  let last := s.dec.dcnt + 1 = s.dec.dlen.toNat - 1
  let s' := { s with dec := { storePayload b s.dec with dcnt := s.dec.dcnt + 1 } }
  if last then frameComplete h s' else s'

/-- R134: DELIVER to slot `k`, if a delivery to it is pending. -/
def deliver (k : Nat) (s : State) : State :=
  if s.dec.dpub[k]? = some true then
    let s := slotPublish k (pack s.dec.ch) s
    { s with dec := { s.dec with dpub := s.dec.dpub.set k false } }
  else s

/-- R134: every pending delivery to the first `n` slots, in rising order (log entry 4: any order gives the same state). -/
def deliverUpTo : Nat → State → State
  | 0, s => s
  | n + 1, s => deliver n (deliverUpTo n s)

/-- R134: every pending delivery. -/
def deliverAll (s : State) : State := deliverUpTo s.dec.dpub.length s

/-- R130: the step on the event at the head of the serial stream, already removed from it; `dstate` and the kind of event
choose it. -/
def acceptEvent (e : StreamEv) (s : State) : State :=
  match e with
  | .ioError => raise .serialIo s
  | .byte b =>
    match s.dec.dstate with
    | .len => acceptLen b s
    | .payload => acceptPayload b s
    | .fatal => s

/-- R130: the decoder's run over the serial stream: it performs its deliveries as they fall due and takes the events one
by one until it may take none (R61) or there is none; `n` bounds the events taken. -/
def decRun : Nat → State → State
  | 0, s => s
  | n + 1, s =>
    if decTakes s.dec then
      match s.rxq with
      | [] => s
      | e :: r => decRun n (deliverAll (acceptEvent e { s with rxq := r }))
    else s

/-- R115 (`RX`): SRC appends the bytes to the serial stream and the decoder takes them one by one, after what already waits
there (log entry 4). -/
def serialArrive (bs : List Byte) (s : State) : State :=
  let q := s.rxq ++ bs.map StreamEv.byte
  decRun q.length (deliverAll { s with rxq := q })

/-- SFRAME.ZEROLEN (R96, R131): the one-byte frame 00 comes in. -/
def execSframeZerolen (s : State) : Host.Outcome State Fault Refusal := .next (serialArrive [0x00] s)

/-- SFRAME.EMPTY (R96, R131): the one-byte frame 01 comes in. -/
def execSframeEmpty (s : State) : Host.Outcome State Fault Refusal := .next (serialArrive [0x01] s)

/-- SFRAME.CHDATA (R93, R95, R133, R134): the 30 bytes of a channel-data frame come in. -/
def execSframeChdata (f : ChannelFrame) (s : State) : Host.Outcome State Fault Refusal :=
  .next (serialArrive (encodeFrame f) s)

/-- SFRAME.BADLEN (R96, R133): a frame with header 0x40 and another length comes in. -/
def execSframeBadlen (len : Byte) (rest : List Byte) (s : State) : Host.Outcome State Fault Refusal :=
  .next (serialArrive (len :: Config.hdrChdata :: rest) s)

/-- SFRAME.OTHER (R96, R133): a frame with any other header comes in. -/
def execSframeOther (len hdr : Byte) (rest : List Byte) (s : State) : Host.Outcome State Fault Refusal :=
  .next (serialArrive (len :: hdr :: rest) s)

/-- DEC.LEN (R131): enabled in `D_LEN` with no delivery pending and a byte at the head of the serial stream; otherwise the
decoder has no such step and waits (R16, log entry 3). -/
def execDecLen (s : State) : Host.Outcome State Fault Refusal :=
  if decTakes s.dec ∧ s.dec.dstate = .len then
    match s.rxq with
    | .byte b :: r => .next (acceptLen b { s with rxq := r })
    | _ => .next s
  else .next s

/-- DEC.PAYLOAD (R132, R133): enabled in `D_PAYLOAD` with a byte at the head of the serial stream. -/
def execDecPayload (s : State) : Host.Outcome State Fault Refusal :=
  if decTakes s.dec ∧ s.dec.dstate = .payload then
    match s.rxq with
    | .byte b :: r => .next (acceptPayload b { s with rxq := r })
    | _ => .next s
  else .next s

/-- DEC.DELIVER (R134): enabled while `dpub[k] = 1`. -/
def execDecDeliver (k : Nat) (s : State) : Host.Outcome State Fault Refusal := atSlot k s (deliver k)

/-- DEC.RXERR (R135): enabled in `D_LEN` and `D_PAYLOAD` with no delivery pending and an error at the head of the serial
stream. -/
def execDecRxerr (s : State) : Host.Outcome State Fault Refusal :=
  if decTakes s.dec then
    match s.rxq with
    | .ioError :: r => .next (raise .serialIo { s with rxq := r })
    | _ => .next s
  else .next s

end Sys2Proof.Machine
end

