-- ==== Sys2Proof/Machine/Engine.lean ====
section
/-! DEFINITION. The EscLink engine (spec/43_esc_link.md): INIT, SEND in both wire modes, the reader of the response stream
and its two line actions, and the meanings of the INIT, SEND, ESC, TLINE, BIN16, HS and RSP rows. -/

namespace Sys2Proof.Machine

/-- R171, from the speed lookup on: the ADD line is written; on success the engine waits for the handshake's answer. -/
def sendAdd (pin : Byte) (rate : Rate) (s : State) : State :=
  let w := txWrite (addLine pin rate) { s with esc := { s.esc with espeed := speedOf rate } }
  if w.1 then { w.2 with esc := { w.2.esc with eop := .init, estate := .hsWait } }
  else raise (.engineIo .init) w.2

/-- R171: acceptance of INIT by an idle engine, its tests in the order of R236; a busy engine accepts none (R170). -/
def acceptInit (pin : Byte) (rate : U16) (mode : WireMode) (s : State) : State :=
  match s.esc.estate with
  | .fault => completeStatus .init .fault s
  | .ready => completeStatus .init .badState s
  | .uninit =>
    let s := { s with esc := { s.esc with emode := mode, epin := pin, erate := rate } }
    match rateOf rate with
    | none => raise .config s
    | some r => sendAdd pin r s
  | .hsWait => s
  | .rspWait => s

/-- R176: SEND in TEXT mode. -/
def acceptSendText (thr : U11) (tel : Bool) (s : State) : State :=
  let w := txWrite (throttleLine s.esc.eid thr tel) s
  if w.1 then { w.2 with esc := { w.2.esc with eop := .send, estate := .rspWait } }
  else raise (.engineIo .send) w.2

/-- R177: SEND in BIN16 mode. -/
def acceptSendBin16 (thr : U11) (tel : Bool) (s : State) : State :=
  let w := txWrite (binBytes thr tel) s
  if w.1 then completeStatus .send .ok w.2 else raise (.engineIo .send) w.2

/-- R174: acceptance of SEND by an idle engine; a busy engine accepts none (R170). -/
def acceptSend (thr : U11) (tel : Bool) (s : State) : State :=
  match s.esc.estate with
  | .fault => completeStatus .send .fault s
  | .uninit => completeStatus .send .badState s
  | .ready =>
    match s.esc.emode with
    | .text => acceptSendText thr tel s
    | .bin16 => acceptSendBin16 thr tel s
  | .hsWait => s
  | .rspWait => s

/-- R172: a complete line `ln`, overlong or not, in the handshake. -/
def hsLine (ln : List Byte) (ov : Bool) (s : State) : State :=
  if !ov && startsOk ln then
    match trailingInt ln with
    | none => raise .handshake s
    | some v => completeInit v { s with esc := { s.esc with eid := v, estate := .ready } }
  else emit (.hsIgnored ln) s

/-- R178: a complete line `ln`, overlong or not, during a SEND. -/
def rspLine (ln : List Byte) (ov : Bool) (s : State) : State :=
  match if ov then none else parseCommand ln with
  | none => raise .response s
  | some c => completeCommand c { s with esc := { s.esc with estate := .ready } }

/-- R180: a byte other than LF: stored, or dropped with the line marked overlong. -/
def storeLineByte (b : Byte) (e : Esc) : Esc :=
  if e.llen < Config.lineMax then { e with lbuf := e.lbuf.set e.llen b, llen := e.llen + 1 }
  else { e with lovf := true }

/-- R180: RSPBYTE on a byte already removed from the response stream. -/
def acceptRspByte (b : Byte) (s : State) : State :=
  if b = LF then
    let ln := s.esc.lbuf.take s.esc.llen
    let ov := s.esc.lovf
    let s := dropLine s
    match s.esc.estate with
    | .hsWait => hsLine ln ov s
    | _ => rspLine ln ov s
  else { s with esc := storeLineByte b s.esc }

/-- R180, R182: the step on the event at the head of the response stream, already removed from it. -/
def acceptRsp (e : StreamEv) (s : State) : State :=
  match e with
  | .byte b => acceptRspByte b s
  | .ioError => raise (.engineIo s.esc.eop) s

/-- R181: the engine's run over the response stream: while busy it takes the events one by one; `n` bounds the events
taken. -/
def escRun : Nat → State → State
  | 0, s => s
  | n + 1, s =>
    if busy s.esc then
      match s.rspq with
      | [] => s
      | e :: r => escRun n (acceptRsp e { s with rspq := r })
    else s

/-- R115 (`SVC>`): SVC appends the bytes to the response stream and the engine, while busy, takes them one by one, after
what already waits there (log entry 4). -/
def responseArrive (bs : List Byte) (s : State) : State :=
  let q := s.rspq ++ bs.map StreamEv.byte
  escRun q.length { s with rspq := q }

/-- INIT (R171). -/
def execInit (pin : Byte) (rate : U16) (mode : WireMode) (s : State) : Host.Outcome State Fault Refusal :=
  .next (acceptInit pin rate mode s)

/-- SEND (R174). -/
def execSend (thr : U11) (tel : Bool) (s : State) : Host.Outcome State Fault Refusal := .next (acceptSend thr tel s)

/-- SEND.TEXT (R176): the action SEND takes when `emode = TEXT` and `estate = E_READY`; otherwise the engine has no such
step (log entry 3). -/
def execSendText (thr : U11) (tel : Bool) (s : State) : Host.Outcome State Fault Refusal :=
  if s.esc.estate = .ready ∧ s.esc.emode = .text then .next (acceptSendText thr tel s) else .next s

/-- SEND.BIN16 (R177): the action SEND takes when `emode = BIN16` and `estate = E_READY`; otherwise the engine has no such
step (log entry 3). -/
def execSendBin16 (thr : U11) (tel : Bool) (s : State) : Host.Outcome State Fault Refusal :=
  if s.esc.estate = .ready ∧ s.esc.emode = .bin16 then .next (acceptSendBin16 thr tel s) else .next s

/-- ESC.RSPBYTE (R180): enabled while the engine is busy and a byte is at the head of the response stream. -/
def execEscRspbyte (s : State) : Host.Outcome State Fault Refusal :=
  if busy s.esc then
    match s.rspq with
    | .byte b :: r => .next (acceptRspByte b { s with rspq := r })
    | _ => .next s
  else .next s

/-- ESC.RSPERR (R182): enabled while the engine is busy and an error is at the head of the response stream. -/
def execEscRsperr (s : State) : Host.Outcome State Fault Refusal :=
  if busy s.esc then
    match s.rspq with
    | .ioError :: r => .next (raise (.engineIo s.esc.eop) { s with rspq := r })
    | _ => .next s
  else .next s

/-- TLINE.ADD (R107, R171): the engine, with no endpoint, writes this ADD line; the part of INIT that the line shows, the
wire mode being what `emode` holds (log entry 5). In any other state it writes none. -/
def execTlineAdd (pin : Byte) (rate : Rate) (s : State) : Host.Outcome State Fault Refusal :=
  if s.esc.estate = .uninit then
    .next (sendAdd pin rate { s with esc := { s.esc with epin := pin, erate := rateKbit rate } })
  else .next s

/-- TLINE.THROTTLE (R108, R176): the ready engine in TEXT mode, whose id the line carries, writes this THROTTLE line (log
entry 5). In any other state it writes none. -/
def execTlineThrottle (id : U32) (thr : U11) (tel : Bool) (s : State) : Host.Outcome State Fault Refusal :=
  if s.esc.estate = .ready ∧ s.esc.emode = .text ∧ s.esc.eid = id then .next (acceptSendText thr tel s) else .next s

/-- BIN16.FRAME (R111, R177): the ready engine in BIN16 mode writes this 16-bit frame (log entry 5). In any other state it
writes none. -/
def execBin16Frame (thr : U11) (tel : Bool) (s : State) : Host.Outcome State Fault Refusal :=
  if s.esc.estate = .ready ∧ s.esc.emode = .bin16 then .next (acceptSendBin16 thr tel s) else .next s

/-- HS.OK (R109, R172): a line that starts with "OK" and has a trailing integer comes from the service. -/
def execHsOk (rest : List Byte) (s : State) : Host.Outcome State Fault Refusal :=
  .next (responseArrive (txtOk ++ rest ++ [LF]) s)

/-- HS.OK_NOINT (R113, R172): a line that starts with "OK" and has none comes from the service. -/
def execHsOkNoint (rest : List Byte) (s : State) : Host.Outcome State Fault Refusal :=
  .next (responseArrive (txtOk ++ rest ++ [LF]) s)

/-- HS.OTHER (R113, R172): any other line comes from the service. -/
def execHsOther (ln : List Byte) (s : State) : Host.Outcome State Fault Refusal :=
  .next (responseArrive (ln ++ [LF]) s)

/-- RSP.THROTTLE (R110, R178): a response of kind THROTTLE comes from the service. -/
def execRspThrottle (idText payload : List Byte) (s : State) : Host.Outcome State Fault Refusal :=
  .next (responseArrive (rspText .throttle idText payload ++ [LF]) s)

/-- RSP.OK (R110, R178): a response of kind OK comes from the service. -/
def execRspOk (idText payload : List Byte) (s : State) : Host.Outcome State Fault Refusal :=
  .next (responseArrive (rspText .ok idText payload ++ [LF]) s)

/-- RSP.ERR (R110, R178): a response of kind ERR comes from the service. -/
def execRspErr (idText payload : List Byte) (s : State) : Host.Outcome State Fault Refusal :=
  .next (responseArrive (rspText .err idText payload ++ [LF]) s)

/-- RSP.INVALID (R113, R178): a line that is no response comes from the service. -/
def execRspInvalid (ln : List Byte) (s : State) : Host.Outcome State Fault Refusal :=
  .next (responseArrive (ln ++ [LF]) s)

end Sys2Proof.Machine
end

