-- ==== Sys2Proof/Machine/Mapping.lean ====
section
/-! DEFINITION. The ControlLoop's mapping functions (spec/44_control_mapping.md R212 to R216) and the meanings of SERVOMAP
and ESCMAP. -/

namespace Sys2Proof.Machine

/-- R212: the clamp to the servo's valid range. -/
def clamp (lo hi a : Int) : Int := min (max a lo) hi

/-- R212, R216: the angle before the clamp; the division truncates toward zero. -/
def servoAngle (x : U16) : Int := (((x.toNat : Int) - 1000) * 90).tdiv 1000

/-- R212: `ServoMap(f)` with `SERVO_K = k`, `SERVO_LO = lo`, `SERVO_HI = hi`; `none` is "no update". -/
def servoMap (k : Fin 14) (lo hi : Int) (f : ChannelFrame) : Option Int :=
  let a := clamp lo hi (servoAngle f[k])
  if 0 < a then some a else none

/-- R214: the throttle range guard. -/
def guardThrottle (t : Int) (tel : Bool) : Option (U11 × Bool) :=
  if 0 ≤ t ∧ t ≤ 2047 then some (BitVec.ofNat 11 t.toNat, tel) else none

/-- R213: `EscMap(f)`; `none` is "no command this cycle". The cases are tested in the document's order. -/
def escMap (f : ChannelFrame) : Option (U11 × Bool) :=
  let t : Int := (f[2].toNat : Int) - 1000
  if f[9] = Config.chMin then guardThrottle 0 true
  else if f[8] = Config.chMax then guardThrottle t false
  else if f[8] = Config.chMin then guardThrottle (t + Config.thrRevOffset) false
  else if f[8] = Config.chMid then guardThrottle 0 false
  else none

/-- SERVOMAP (R212, R215): the function of a frame, its result returned; nothing else changes. -/
def execServomap (f : ChannelFrame) (s : State) : Host.Outcome State Fault Refusal :=
  .next { s with servoRes := servoMap s.params.servoK s.params.servoLo s.params.servoHi f }

/-- ESCMAP (R213, R214, R215): the function of a frame, its result returned; nothing else changes. -/
def execEscmap (f : ChannelFrame) (s : State) : Host.Outcome State Fault Refusal :=
  .next { s with escRes := escMap f }

end Sys2Proof.Machine
end

