-- ==== Sys2Proof/Machine/SlotOps.lean ====
section
/-! DEFINITION. The LatestValueSlot (spec/42_latest_value_slot.md): the meanings of PUBLISH, TAKE and PEEK. -/

namespace Sys2Proof.Machine

/-- PUBLISH (R151): always enabled. -/
def execPublish (k : Nat) (v : Value) (s : State) : Host.Outcome State Fault Refusal := atSlot k s (slotPublish k v)

/-- TAKE (R152, R153): completes on a pending value, otherwise the consumer waits; taken again, it rechecks (R155). -/
def execTake (k c : Nat) (s : State) : Host.Outcome State Fault Refusal :=
  atPort k c s fun s => (slotTake k c s).2

/-- PEEK (R154): a consumer with a TAKE outstanding issues none (R153, log entry 3). -/
def execPeek (k c : Nat) (s : State) : Host.Outcome State Fault Refusal :=
  atPort k c s fun s =>
    match s.slots[k]? with
    | some sl => if waiting sl c then s else (slotPeek k c s).2
    | none => s

end Sys2Proof.Machine
end

