-- ==== Sys2Proof/Machine/Dispatch.lean ====
section
/-! DEFINITION. The dispatch: one arm per row of spec/opcode_table.json. -/

namespace Sys2Proof.Machine

def exec (i : Instr) (s : State) : Host.Outcome State Fault Refusal :=
  match i with
  | .sframeZerolen => Sys2Proof.Machine.execSframeZerolen s
  | .sframeEmpty => Sys2Proof.Machine.execSframeEmpty s
  | .sframeChdata f => Sys2Proof.Machine.execSframeChdata f s
  | .sframeBadlen len rest => Sys2Proof.Machine.execSframeBadlen len rest s
  | .sframeOther len hdr rest => Sys2Proof.Machine.execSframeOther len hdr rest s
  | .decLen => Sys2Proof.Machine.execDecLen s
  | .decPayload => Sys2Proof.Machine.execDecPayload s
  | .decDeliver k => Sys2Proof.Machine.execDecDeliver k s
  | .decRxerr => Sys2Proof.Machine.execDecRxerr s
  | .publish k v => Sys2Proof.Machine.execPublish k v s
  | .take k c => Sys2Proof.Machine.execTake k c s
  | .peek k c => Sys2Proof.Machine.execPeek k c s
  | .init pin rate mode => Sys2Proof.Machine.execInit pin rate mode s
  | .send thr tel => Sys2Proof.Machine.execSend thr tel s
  | .sendText thr tel => Sys2Proof.Machine.execSendText thr tel s
  | .sendBin16 thr tel => Sys2Proof.Machine.execSendBin16 thr tel s
  | .escRspbyte => Sys2Proof.Machine.execEscRspbyte s
  | .escRsperr => Sys2Proof.Machine.execEscRsperr s
  | .tlineAdd pin rate => Sys2Proof.Machine.execTlineAdd pin rate s
  | .tlineThrottle id thr tel => Sys2Proof.Machine.execTlineThrottle id thr tel s
  | .hsOk rest => Sys2Proof.Machine.execHsOk rest s
  | .hsOkNoint rest => Sys2Proof.Machine.execHsOkNoint rest s
  | .hsOther ln => Sys2Proof.Machine.execHsOther ln s
  | .rspThrottle idText payload => Sys2Proof.Machine.execRspThrottle idText payload s
  | .rspOk idText payload => Sys2Proof.Machine.execRspOk idText payload s
  | .rspErr idText payload => Sys2Proof.Machine.execRspErr idText payload s
  | .rspInvalid ln => Sys2Proof.Machine.execRspInvalid ln s
  | .bin16Frame thr tel => Sys2Proof.Machine.execBin16Frame thr tel s
  | .servomap f => Sys2Proof.Machine.execServomap f s
  | .escmap f => Sys2Proof.Machine.execEscmap f s

end Sys2Proof.Machine
end

