-- ==== Sys2Proof/Machine/Agents.lean ====
section
/-! DEFINITION. The agents around the operations: the environment (SRC, SVC, the write outcome, reset), the two control
loops of R210 and R211, and the execution of one scheduled action. -/

namespace Sys2Proof.Machine

/-- R38: SRC drives one cycle of the serial port; its event joins the queue of R17 whatever the ready level is (log entry
20). -/
def srcCycle (valid err : Bool) (data : Byte) (s : State) : State :=
  match cycleEvent valid err data with
  | some e => { s with rxq := s.rxq ++ [e] }
  | none => s

/-- R39: SVC drives one cycle of the response port; its event joins the queue of R17 whatever the ready level is (log entry
20). -/
def svcCycle (valid err : Bool) (data : Byte) (s : State) : State :=
  match cycleEvent valid err data with
  | some e => { s with rspq := s.rspq ++ [e] }
  | none => s

/-- R17: SVC removes up to `n` bytes from the head of the command stream. -/
def svcTake (n : Nat) (s : State) : State :=
  { s with cmdq := s.cmdq.drop n, cmdRead := s.cmdRead ++ s.cmdq.take n }

/-- R210 (1): a loop reads its slot in its read mode. Answers the frame value, if it got one. -/
def loopRead (m : ReadMode) (k : Nat) (s : State) : Option Value × State :=
  match m with
  | .take => slotTake k 0 s
  | .peek =>
    match s.slots[k]? with
    | some sl => if waiting sl 0 then (none, s) else slotPeek k 0 s
    | none => (none, s)

/-- R210: one turn of the servo loop, on slot 0: read a frame, or map the frame it holds and issue the angle. -/
def servoTurn (s : State) : State :=
  match s.servoLoop with
  | .get =>
    let r := loopRead s.params.readServo 0 s
    match r.1 with
    | some v => { r.2 with servoLoop := .have v }
    | none => r.2
  | .have v =>
    let a := servoMap s.params.servoK s.params.servoLo s.params.servoHi (unpack v)
    { s with servoRes := a, servoOut := s.servoOut ++ a.toList, servoLoop := .get }

/-- R210, R211: where the ESC loop goes on from a completed SEND: on `ST_FAULT` it stops; on `ST_PROTOCOL` it skips the cycle's
actuation and carries on. A `ST_BADSTATE` stops it (log entry 15). -/
def afterSend (st : Status) : EscPhase :=
  match st with
  | .ok => .get
  | .protocol => .get
  | .fault => .stopped
  | .badState => .stopped

/-- R210, R211, R264: one turn of the ESC loop, on slot 1, which is `HOST`: INIT, and on `ST_OK` the iterations: read a frame, map
it, issue the command as a SEND, wait for its completion. -/
def escTurn (s : State) : State :=
  match s.escLoop with
  | .boot =>
    if busy s.esc then s
    else { acceptInit s.params.pin s.params.rate s.params.wireMode s with escLoop := .waitInit }
  | .waitInit =>
    if busy s.esc then s
    else { s with escLoop := if s.esc.rstatus = .ok then .get else .stopped }
  | .get =>
    let r := loopRead s.params.readEsc 1 s
    match r.1 with
    | some v => { r.2 with escLoop := .have v }
    | none => r.2
  | .have v =>
    match escMap (unpack v) with
    | some (thr, tel) => { s with escRes := some (thr, tel), escLoop := .issue thr tel }
    | none => { s with escRes := none, escLoop := .get }
  | .issue thr tel =>
    if busy s.esc then s
    else { acceptSend thr tel s with escLoop := .waitSend }
  | .waitSend =>
    if busy s.esc then s
    else { s with escLoop := afterSend s.esc.rstatus }
  | .stopped => s

/-- An operation as its unit stands at its port: decoded, then executed. -/
def runUnit (p : Port) (bytes : List Byte) (s : State) : Host.Outcome State Fault Refusal :=
  match decode p bytes with
  | .ok i => exec i s
  | .error e => .refused (.undecodable e)

/-- One scheduled action. A loop whose slot has no port of its own stops on it by name. -/
def runAct (a : Act) (s : State) : Host.Outcome State Fault Refusal :=
  match a with
  | .rx valid err data => .next (srcCycle valid err data s)
  | .rsp valid err data => .next (svcCycle valid err data s)
  | .svcRead n => .next (svcTake n s)
  | .cmdFail c => .next { s with cmdFail := s.cmdFail ++ [c] }
  | .rst => .next (resetBlock s)
  | .servoLoop => atPort 0 0 s servoTurn
  | .escLoop => atPort 1 0 s escTurn
  | .unit p bytes => runUnit p bytes s

/-- The action at the head of the schedule, or none: with nothing scheduled no agent moves (R14, log entry 1). -/
def stepSched (s : State) : Host.Outcome State Fault Refusal :=
  match s.sched with
  | [] => .next s
  | a :: r => runAct a { s with sched := r }

/-- The schedule with an opcode-table word's unit at its head. -/
def scheduleWord (nbits w : Nat) (s : State) : State :=
  match tableUnit nbits w with
  | some (p, bs) => { s with sched := .unit p bs :: s.sched }
  | none => s

end Sys2Proof.Machine
end

