-- ==== Sys2Proof/Machine/Step.lean ====
section
/-! DEFINITION. One step of the machine: the action at the head of the schedule. -/

namespace Sys2Proof.Machine

/-- R14, R15: one step, by the agent the schedule names. -/
def step (s : State) : Host.Outcome State Fault Refusal := stepSched s

/-- `s` with an opcode-table word's unit scheduled next (log entry 2). -/
def State.withFetchWord (s : State) (nbits w : Nat) : State := scheduleWord nbits w s

end Sys2Proof.Machine
end

