-- ==== Sys2Proof/Machine/Execution.lean ====
section
/-! DEFINITION. Infinite executions (R15, R18) and weak fairness on them (R16, R158, D34): which steps an agent takes on its
own once they are enabled, when each is enabled, and what it is for a schedule to leave none of them enabled for ever
untaken. A schedule is a premise of a claim and no part of the state (log entry 24). -/

namespace Sys2Proof.Machine

/-- The steps that weak fairness speaks of (R16): a row that an agent performs on its own once it is enabled, or a turn of a
control loop. -/
inductive AgentStep where
  /-- DEC.LEN, DEC.PAYLOAD, DEC.RXERR, DEC.DELIVER, the completing step of a TAKE, ESC.RSPBYTE or ESC.RSPERR. -/
  | row (i : Instr)
  /-- A turn of the servo loop (R210). -/
  | servoLoop
  /-- A turn of the ESC loop (R210, R211). -/
  | escLoop
  deriving DecidableEq, Repr

/-- A byte is at the head of a stream. -/
def headByte : List StreamEv → Bool
  | .byte _ :: _ => true
  | _ => false

/-- An error is at the head of a stream. -/
def headError : List StreamEv → Bool
  | .ioError :: _ => true
  | _ => false

/-- R152: the completing step of a TAKE: the consumer has issued it and the slot holds an unread value. -/
def takeEnabled (k c : Nat) (s : State) : Bool :=
  match s.slots[k]? with
  | some sl => sl.full && waiting sl c
  | none => false

/-- R131, R132, R134, R135, R152, R180, R182: where a row that an agent performs on its own is enabled. The other rows are
calls that their caller chooses to make and units that the environment or the engine writes: fairness says nothing of
them (log entry 24). -/
def rowEnabled (i : Instr) (s : State) : Bool :=
  match i with
  | .decLen => decTakes s.dec && s.dec.dstate == .len && headByte s.rxq
  | .decPayload => decTakes s.dec && s.dec.dstate == .payload && headByte s.rxq
  | .decRxerr => decTakes s.dec && headError s.rxq
  | .decDeliver k => s.dec.dpub[k]? == some true
  | .take k c => takeEnabled k c s
  | .escRspbyte => busy s.esc && headByte s.rspq
  | .escRsperr => busy s.esc && headError s.rspq
  | .sframeZerolen => false
  | .sframeEmpty => false
  | .sframeChdata _ => false
  | .sframeBadlen _ _ => false
  | .sframeOther _ _ _ => false
  | .publish _ _ => false
  | .peek _ _ => false
  | .init _ _ _ => false
  | .send _ _ => false
  | .sendText _ _ => false
  | .sendBin16 _ _ => false
  | .tlineAdd _ _ => false
  | .tlineThrottle _ _ _ => false
  | .hsOk _ => false
  | .hsOkNoint _ => false
  | .hsOther _ => false
  | .rspThrottle _ _ => false
  | .rspOk _ _ => false
  | .rspErr _ _ => false
  | .rspInvalid _ => false
  | .bin16Frame _ _ => false
  | .servomap _ => false
  | .escmap _ => false

/-- R210 (1): a loop on slot `k` has a step in its reading phase: by PEEK always, by TAKE to issue it or, once a value is
pending, to complete it. -/
def readEnabled (m : ReadMode) (sl : Slot) : Bool :=
  match m with
  | .take => sl.full || !waiting sl 0
  | .peek => !waiting sl 0

/-- R210: the servo loop has a step. -/
def servoEnabled (s : State) : Bool :=
  match s.slots[0]? with
  | none => false
  | some sl =>
    decide (0 < sl.wait.length) &&
      match s.servoLoop with
      | .get => readEnabled s.params.readServo sl
      | .have _ => true

/-- R210, R211, R170: the ESC loop has a step: not while the engine is busy with its call, and none once it has stopped. -/
def escEnabled (s : State) : Bool :=
  match s.slots[1]? with
  | none => false
  | some sl =>
    decide (0 < sl.wait.length) &&
      match s.escLoop with
      | .boot => !busy s.esc
      | .waitInit => !busy s.esc
      | .get => readEnabled s.params.readEsc sl
      | .have _ => true
      | .issue _ _ => !busy s.esc
      | .waitSend => !busy s.esc
      | .stopped => false

/-- R16: the step of an agent is enabled. -/
def AgentStep.enabled (g : AgentStep) (s : State) : Bool :=
  match g with
  | .row i => rowEnabled i s
  | .servoLoop => servoEnabled s
  | .escLoop => escEnabled s

/-- The instruction a scheduled action is, if it is one. -/
def actInstr (a : Act) : Option Instr :=
  match a with
  | .unit p bs =>
    match decode p bs with
    | .ok i => some i
    | .error _ => none
  | _ => none

/-- R210 (1): the TAKE that a loop's turn in `s` performs, if it performs one. -/
def loopTake (s : State) (a : Act) : Option Instr :=
  match a with
  | .servoLoop => if s.servoLoop = .get ∧ s.params.readServo = .take then some (.take 0 0) else none
  | .escLoop => if s.escLoop = .get ∧ s.params.readEsc = .take then some (.take 1 0) else none
  | _ => none

/-- The action `a`, performed in `s`, is the step `g`. -/
def AgentStep.takenBy (g : AgentStep) (s : State) (a : Act) : Prop :=
  match g with
  | .row i => actInstr a = some i ∨ loopTake s a = some i
  | .servoLoop => a = .servoLoop
  | .escLoop => a = .escLoop

/-- R15, R18: an execution without an end, `a n` being the action that leads from `e n` to the state after it. -/
def Executes (e : Nat → State) (a : Nat → Act) : Prop :=
  ∀ n, step { e n with sched := [a n] } = .next (e (n + 1))

/-- R16, R158, D34: weak fairness. A step that stays enabled from some point on is taken at or after that point. -/
def WeaklyFair (e : Nat → State) (a : Nat → Act) : Prop :=
  ∀ (g : AgentStep) (n : Nat), (∀ m, n ≤ m → g.enabled (e m) = true) → ∃ m, n ≤ m ∧ g.takenBy (e m) (a m)

end Sys2Proof.Machine
end

