-- ==== Sys2Proof/Safety.lean ====
section
/-! DEFINITION. What a safe state is, in the terms the statements use: the invariants of the decoder (R23) and of the engine
(R29 to R33, R180), and the vocabulary of the statements about whole frames, writes and schedules. -/

namespace Sys2Proof.Machine

/-- R23, R24: the decoder's registers fit together, `n` being the number of slots. -/
def DecOk (n : Nat) (d : Dec) : Prop :=
  d.dpub.length = n ∧
  (d.dstate = .payload → 2 ≤ d.dlen.toNat ∧ d.dcnt < d.dlen.toNat - 1) ∧
  (true ∈ d.dpub → d.dstate = .len) ∧
  d.dcnt ≤ 254

/-- R29 to R33 and R180: the engine's registers fit together. R178's longest payload is 59 bytes, so `rplen` stays below R33's
`LINE_MAX`; the lengths of the two byte registers are the model's form of R32 and R33 (log entry 12). -/
def EscOk (e : Esc) : Prop :=
  (e.lbuf.length = Config.lineMax ∧ e.rpay.length = Config.lineMax) ∧
  (e.llen ≤ Config.lineMax ∧ (e.lovf = true → e.llen = Config.lineMax) ∧ LF ∉ e.lbuf.take e.llen) ∧
  (busy e = false → e.llen = 0 ∧ e.lovf = false) ∧
  (e.estate = .hsWait ∨ e.estate = .ready ∨ e.estate = .rspWait →
    ∃ r : Rate, e.erate = rateKbit r ∧ e.espeed = speedOf r) ∧
  (e.estate = .hsWait → e.eop = .init) ∧
  (e.estate = .rspWait → e.eop = .send ∧ e.emode = .text) ∧
  (e.estate = .fault ↔ e.ecause ≠ .none) ∧
  e.rplen ≤ 59

/-- The invariant of the machine: every reachable state has it. -/
def Inv (s : State) : Prop := DecOk s.slots.length s.dec ∧ EscOk s.esc

/-- The decoder stands at a frame boundary with nothing pending and nothing waiting in the serial stream. -/
def DecIdle (s : State) : Prop :=
  s.dec.dstate = .len ∧ s.dec.dpub = List.replicate s.slots.length false ∧ s.rxq = []

/-- The line reader stands at the start of a line and nothing waits in the response stream. -/
def LineStart (s : State) : Prop :=
  s.esc.lbuf.length = Config.lineMax ∧ s.esc.llen = 0 ∧ s.esc.lovf = false ∧ s.rspq = []

/-- R62: how many bytes of a command of `n` bytes the coming write appends before it fails; `none` where it succeeds. -/
def writeFails (n : Nat) (s : State) : Option Nat :=
  match s.cmdFail with
  | some k :: _ => if k < n then some k else none
  | _ => none

/-- R132: the channel registers after the bytes `bs`, the first of payload index `p`, of a frame whose header is 0x40. -/
def laneWrites (ch : ChannelFrame) : Nat → List Byte → ChannelFrame
  | _, [] => ch
  | p, b :: bs => laneWrites (laneWrite ch p b) (p + 1) bs

/-- R96: the instruction is a serial frame. -/
def isFrame : Instr → Bool
  | .sframeZerolen => true
  | .sframeEmpty => true
  | .sframeChdata _ => true
  | .sframeBadlen _ _ => true
  | .sframeOther _ _ _ => true
  | _ => false

/-- R96: the one event of a serial frame. -/
def frameEvent : Instr → Option Event
  | .sframeZerolen => some (.skip .zeroLen)
  | .sframeEmpty => some (.skip .empty)
  | .sframeChdata f => some (.frame f)
  | .sframeBadlen _ _ => some (.skip .badLen)
  | .sframeOther _ _ _ => some (.skip .header)
  | _ => none

/-- What an action puts at the tail of the serial stream (R17, R38, R115). -/
def serialIn (a : Act) : List StreamEv :=
  match a with
  | .rx valid err data => (cycleEvent valid err data).toList
  | _ =>
    match actInstr a with
    | some i => if isFrame i then (encodeBytes i).map StreamEv.byte else []
    | none => []

/-- What an action puts at the tail of the response stream (R17, R39, R115). -/
def responseIn (a : Act) : List StreamEv :=
  match a with
  | .rsp valid err data => (cycleEvent valid err data).toList
  | _ =>
    match actInstr a with
    | some i => if portOf i = .hsLine ∨ portOf i = .rspLine then (encodeBytes i).map StreamEv.byte else []
    | none => []

/-- The action may publish to slot `k` (R134, R151): a PUBLISH or DELIVER to it, or a frame coming in. -/
def mayPublish (k : Nat) (a : Act) : Bool :=
  match actInstr a with
  | some (.publish j _) => j == k
  | some (.decDeliver j) => j == k
  | some i => isFrame i
  | none => false

/-- An instruction as a scheduled action. -/
def schedule (i : Instr) : Act := .unit (encode i).1 (encode i).2

/-- The schedule in which each byte of `bs` is offered by SRC, then taken by DEC.PAYLOAD or DEC.LEN (whichever is enabled, the
other passes), and then the deliveries to `n` slots are due. -/
def serialSteps (n : Nat) (bs : List Byte) : List Act :=
  bs.flatMap fun b =>
    [.rx true false b, schedule .decPayload, schedule .decLen] ++ (List.range n).map (fun k => schedule (.decDeliver k))

/-- The schedule in which each byte of `bs` is written by SVC and then taken by ESC.RSPBYTE. -/
def responseSteps (bs : List Byte) : List Act := bs.flatMap fun b => [.rsp true false b, schedule .escRspbyte]

/-- The state in which `a` is scheduled next. -/
def State.scheduled (s : State) (a : Act) (r : List Act) : State := { s with sched := a :: r }

end Sys2Proof.Machine
end

