-- ==== Sys2Proof/Certificates/Slice0/Obligations.lean ====
section
/-! DEFINITION. The statements for the provers. Each docstring names the rules of spec/ it formalises; OBLIGATIONS.json lists
them. -/

open Sys2Proof Sys2Proof.Machine

/-! ### Encoding -/

/-- Words decode to what they stand for. Written out from the spec's own listings: R96 (vectors V4, V6, V9), R107 (V40), R108
(V70), R111 (V109), R109 (V51), R110 (V80). The model's choice (log entry 6) are the three clauses on opcode-table words:
the 28 zero bytes that fill 0x1E40 up to a frame of R93, and the op words 0x00 and 0x01 of R114 with every operand 0. -/
def Obligations.SpecWordsDecode : Prop :=
  decode (.serial .lengthPrefixed) [0x00] = .ok .sframeZerolen ∧
  decode (.serial .lengthPrefixed) [0x02, 0x7F] = .ok (.sframeOther 0x02 0x7F []) ∧
  decode (.serial .lengthPrefixed) [0x04, 0x40, 0x01, 0x02] = .ok (.sframeBadlen 0x04 [0x01, 0x02]) ∧
  decodeTableWord 16 0x1E40 = some (.sframeChdata (Vector.replicate 14 0)) ∧
  decode .cmdText [0x41, 0x44, 0x44, 0x20, 0x31, 0x38, 0x20, 0x31, 0x32, 0x35, 0x30, 0x0A] = .ok (.tlineAdd 18 .r300) ∧
  decode .cmdText [0x54, 0x48, 0x52, 0x4F, 0x54, 0x54, 0x4C, 0x45, 0x20, 0x33, 0x20, 0x35, 0x30, 0x30, 0x20,
    0x66, 0x61, 0x6C, 0x73, 0x65, 0x0A] = .ok (.tlineThrottle 3 500 false) ∧
  decode .cmdBin [0xF4, 0x51] = .ok (.bin16Frame 500 false) ∧
  decode .hsLine [0x4F, 0x4B, 0x20, 0x33, 0x0A] = .ok (.hsOk [0x20, 0x33]) ∧
  decode .rspLine [0x4F, 0x4B, 0x20, 0x33, 0x20, 0x64, 0x6F, 0x6E, 0x65, 0x0A] =
    .ok (.rspOk [0x33] [0x64, 0x6F, 0x6E, 0x65]) ∧
  decodeTableWord 8 0x00 = some (.init 0 0 .text) ∧
  decodeTableWord 8 0x01 = some (.send 0 false)

/-- Decode and encode agree on every well-formed instruction, with every operand at every value the encoding admits. The
byte layout of the port forms is the model's choice (log entry 6). -/
def Obligations.DecodeOfEncode : Prop :=
  ∀ i : Instr, i.wf = true → decode (encode i).1 (encode i).2 = .ok i

/-- What decoding answers is well-formed, at every port and for any bytes. -/
def Obligations.DecodedIsWellFormed : Prop :=
  ∀ (p : Port) (bs : List Byte) (i : Instr), decode p bs = .ok i → i.wf = true

/-- The other direction, for the forms that stand on a stream (R91 to R111): a unit has one instruction and that
instruction has this one encoding, so no byte of a frame or line is dropped in decoding. -/
def Obligations.EncodeOfDecode : Prop :=
  ∀ (p : Port) (bs : List Byte) (i : Instr),
    p = .serial .lengthPrefixed ∨ p = .cmdText ∨ p = .cmdBin ∨ p = .hsLine ∨ p = .rspLine →
    decode p bs = .ok i → encode i = (p, bs)

/-- R96, R92: every whole serial frame, of every length byte and any bytes, falls in the class the table of R96 gives it. -/
def Obligations.SerialFrameClasses : Prop :=
  ∀ (len : Byte) (bs : List Byte), (len :: bs).length = frameLength len →
    (len = 0 → decode (.serial .lengthPrefixed) (len :: bs) = .ok .sframeZerolen) ∧
    (len = 1 → decode (.serial .lengthPrefixed) (len :: bs) = .ok .sframeEmpty) ∧
    (∀ hdr rest, 2 ≤ len.toNat → bs = hdr :: rest →
      (len = 0x1E → hdr = 0x40 →
        ∃ f, decode (.serial .lengthPrefixed) (len :: bs) = .ok (.sframeChdata f) ∧
          ∀ (j : Nat) (h : j < 14), (f[j]).toNat =
            (rest.getD (2 * j) 0).toNat + 256 * (rest.getD (2 * j + 1) 0).toNat) ∧
      (len ≠ 0x1E → hdr = 0x40 → decode (.serial .lengthPrefixed) (len :: bs) = .ok (.sframeBadlen len rest)) ∧
      (hdr ≠ 0x40 → decode (.serial .lengthPrefixed) (len :: bs) = .ok (.sframeOther len hdr rest)))

/-! ### The step, the invariant and reset -/

/-- A step runs the decoded instruction: where the unit scheduled next decodes to `i`, the step is `exec i` with that unit
taken off the schedule. The schedule is the model's form of R14 (log entry 1). -/
def Obligations.StepRunsDecoded : Prop :=
  ∀ (s : State) (p : Port) (bs : List Byte) (r : List Act) (i : Instr),
    decode p bs = .ok i → step (s.scheduled (.unit p bs) r) = exec i { s with sched := r }

/-- R5: a frame in a framing the document names without a layout is refused by name, never decoded. -/
def Obligations.OtherFramingRefused : Prop :=
  ∀ (s : State) (fr : Framing) (bs : List Byte) (r : List Act), fr ≠ .lengthPrefixed →
    step (s.scheduled (.unit (.serial fr) bs) r) = .refused (.undecodable (.framing fr))

/-- R17, R73 (d), R236: the environment and the streams. A cycle of the serial or of the response port puts its event at the
tail of its stream, the error winning over the byte of its cycle, which is not taken (R236). SVC takes bytes from the head of
the command stream, and a write outcome joins those to come. Of any step, what is left of a stream is what it held and then
what the action brought, less a beginning of it; what is written to the command stream only ever grows at its end. In the
byte form of a port cycle too the error wins. The model's choices in it: a cycle adds its event whatever the ready level is,
since the queue of R17 stands before the port, where R38 and R182 make a cycle an event only with `rx_ready` or `rsp_ready`
at 1 (log entry 20); the coming write outcomes are a queue (log entry 11); the bytes SVC has taken are kept in `cmdRead` (log
entry 18); the byte layout of a port cycle (log entry 6). -/
def Obligations.StreamsAreFifo : Prop :=
  (∀ (s : State) (r : List Act) (valid err : Bool) (data : Byte) (n : Nat) (c : Option Nat),
    step (s.scheduled (.rx valid err data) r) = .next { s with
      sched := r, rxq := s.rxq ++ (if err then [.ioError] else if valid then [.byte data] else []) } ∧
    step (s.scheduled (.rsp valid err data) r) = .next { s with
      sched := r, rspq := s.rspq ++ (if err then [.ioError] else if valid then [.byte data] else []) } ∧
    step (s.scheduled (.svcRead n) r) = .next { s with
      sched := r, cmdq := s.cmdq.drop n, cmdRead := s.cmdRead ++ s.cmdq.take n } ∧
    step (s.scheduled (.cmdFail c) r) = .next { s with sched := r, cmdFail := s.cmdFail ++ [c] }) ∧
  (∀ (s t : State) (a : Act) (r : List Act), step (s.scheduled a r) = .next t →
    (∃ n, t.rxq = (s.rxq ++ serialIn a).drop n) ∧ (∃ n, t.rspq = (s.rspq ++ responseIn a).drop n) ∧
    ∃ q, t.cmdRead ++ t.cmdq = s.cmdRead ++ s.cmdq ++ q) ∧
  (∀ b : Byte, b.getLsbD 1 = true →
    decode .rsp [b] = .ok .escRsperr ∧
    (b.getLsbD 3 = false → decode .rx [b] = .ok .decRxerr))

/-- The invariant of R23, R29 to R33, R178 and R180 holds after reset. Two of its clauses rest there on the model's choice: the
bound of `rplen` on its reset value, which R41 leaves unspecified (log entry 7), and the lengths of `lbuf` and `rpay` on
their form as lists (log entry 12). -/
def Obligations.InvAtReset : Prop := Inv State.reset

/-- Every step keeps the invariant, from every state that has it: R23 (the decoder's counters and pending bits), R180 (an idle
engine has no partial line), R29 to R33 (the engine's registers), R110 and R178 (`rplen` at most 59, the longest payload).
A step may be a reset, whose values for the registers that R41 leaves unspecified are log entry 7; the lengths of `lbuf`
and `rpay` are the model's form of R32 and R33 (log entry 12). -/
def Obligations.StepKeepsInv : Prop :=
  ∀ s t : State, Inv s → step s = .next t → Inv t

/-- R41, R260: the values the spec gives for reset. -/
def Obligations.ResetValues : Prop :=
  State.reset.dec.dstate = .len ∧ State.reset.dec.dlen = 0 ∧ State.reset.dec.dcnt = 0 ∧ State.reset.dec.dhdr = 0 ∧
  State.reset.dec.dpub = [false, false] ∧
  State.reset.slots.map (·.full) = [false, false] ∧ State.reset.slots.map (·.wait) = [[false], [false]] ∧
  State.reset.esc.estate = .uninit ∧ State.reset.esc.ecause = .none ∧ State.reset.esc.eop = .init ∧
  State.reset.esc.llen = 0 ∧ State.reset.esc.lovf = false

/-- R260 to R262: the reset input puts every sub-block to its reset values at once, whatever they were, drops calls in
progress without a result, and touches neither the streams nor the write outcomes; the number of slots and of each slot's
consumer ports stays (R7). That the observation, the parameters, the schedule and the loops' results stay and the two loops
restart is the model's (log entries 15 and 16). -/
def Obligations.RstResetsBlock : Prop :=
  ∀ (s : State) (r : List Act), ∃ t, step (s.scheduled .rst r) = .next t ∧
    t.dec.dstate = .len ∧ t.dec.dlen = 0 ∧ t.dec.dcnt = 0 ∧ t.dec.dhdr = 0 ∧
    t.dec.dpub = List.replicate s.slots.length false ∧
    t.slots.map (·.wait.length) = s.slots.map (·.wait.length) ∧ (∀ sl ∈ t.slots, sl.full = false ∧ true ∉ sl.wait) ∧
    t.esc.estate = .uninit ∧ t.esc.ecause = .none ∧ t.esc.eop = .init ∧ t.esc.llen = 0 ∧ t.esc.lovf = false ∧
    t.rxq = s.rxq ∧ t.cmdq = s.cmdq ∧ t.rspq = s.rspq ∧ t.cmdFail = s.cmdFail ∧
    t.trace = s.trace ∧ t.rets = s.rets ∧ t.cmdRead = s.cmdRead ∧ t.params = s.params ∧ t.sched = r ∧
    t.servoLoop = .get ∧ t.escLoop = .boot ∧ t.servoRes = s.servoRes ∧ t.escRes = s.escRes ∧ t.servoOut = s.servoOut

/-! ### The decoder -/

/-- R96, R131: the one-byte frames 00 and 01, arriving at a frame boundary, are consumed and skipped; `dlen` and `dcnt` are the
only registers written. -/
def Obligations.ShortFramesSkipped : Prop :=
  ∀ s : State, DecIdle s →
    exec .sframeZerolen s =
      .next { s with dec := { s.dec with dlen := 0, dcnt := 0 }, trace := s.trace ++ [.skip .zeroLen] } ∧
    exec .sframeEmpty s =
      .next { s with dec := { s.dec with dlen := 1, dcnt := 0 }, trace := s.trace ++ [.skip .empty] }

/-- R96, R132, R133: frames of two bytes or more that hold no channel data, arriving at a frame boundary, are consumed whole
and skipped, and no slot is touched. One with header 0x40 and a length other than 0x1E is skipped with `SK_BADLEN`; of the
registers `dlen`, `dcnt`, `dhdr` and the lanes its first 28 data bytes name are written. One with any other header is skipped
with `SK_HEADER`, and no channel register is touched. -/
def Obligations.LongFramesSkipped : Prop :=
  ∀ (s : State) (len : Byte) (rest : List Byte), DecIdle s →
    ((Instr.sframeBadlen len rest).wf = true →
      exec (.sframeBadlen len rest) s =
        .next { s with
          dec := { s.dec with
            dlen := len, dcnt := len.toNat - 1, dhdr := 0x40, ch := laneWrites s.dec.ch 1 rest },
          trace := s.trace ++ [.skip .badLen] }) ∧
    (∀ hdr : Byte, (Instr.sframeOther len hdr rest).wf = true →
      exec (.sframeOther len hdr rest) s =
        .next { s with
          dec := { s.dec with dlen := len, dcnt := len.toNat - 1, dhdr := hdr },
          trace := s.trace ++ [.skip .header] })

/-- R95, R140: the round trip. A decoder at a frame boundary that takes the 30 bytes of `EncodeFrame(V)` emits `Frame(V)` and
nothing else, delivers `Pack(V)` to every slot, and is back in `D_LEN` with nothing pending. -/
def Obligations.ChannelFrameRoundTrip : Prop :=
  ∀ (s : State) (V : ChannelFrame), DecIdle s →
    exec (.sframeChdata V) s =
      .next { s with
        dec := { s.dec with dlen := 0x1E, dcnt := 29, dhdr := 0x40, ch := V },
        slots := s.slots.map fun sl => { sl with val := pack V, full := true },
        trace := s.trace ++ [.frame V] }

/-- R131: DEC.LEN on every length byte. -/
def Obligations.LengthByteAccepted : Prop :=
  ∀ (s : State) (b : Byte) (r : List StreamEv),
    s.dec.dstate = .len → true ∉ s.dec.dpub → s.rxq = .byte b :: r →
    exec .decLen s = .next
      (if b = 0 then
        { s with rxq := r, dec := { s.dec with dlen := b, dcnt := 0 }, trace := s.trace ++ [.skip .zeroLen] }
      else if b = 1 then
        { s with rxq := r, dec := { s.dec with dlen := b, dcnt := 0 }, trace := s.trace ++ [.skip .empty] }
      else { s with rxq := r, dec := { s.dec with dlen := b, dcnt := 0, dstate := .payload } })

/-- R132: DEC.PAYLOAD on a byte that is not the frame's last: the header latch, the low or the high byte of one channel
register, or nothing, and the count; every other register and everything else unchanged. -/
def Obligations.PayloadByteStored : Prop :=
  ∀ (s : State) (b : Byte) (r : List StreamEv),
    s.dec.dstate = .payload → true ∉ s.dec.dpub → s.rxq = .byte b :: r → s.dec.dcnt + 1 ≠ s.dec.dlen.toNat - 1 →
    ∃ (h : Byte) (c : ChannelFrame),
      exec .decPayload s =
        .next { s with rxq := r, dec := { s.dec with dcnt := s.dec.dcnt + 1, dhdr := h, ch := c } } ∧
      (s.dec.dcnt = 0 → h = b ∧ c = s.dec.ch) ∧
      (s.dec.dcnt ≠ 0 → h = s.dec.dhdr) ∧
      (s.dec.dhdr ≠ 0x40 ∨ 29 ≤ s.dec.dcnt → c = s.dec.ch) ∧
      (∀ (j : Nat) (hj : j < 14), s.dec.dhdr = 0x40 → s.dec.dcnt = 2 * j + 1 →
        c = s.dec.ch.set j (highByte s.dec.ch[j] ++ b)) ∧
      (∀ (j : Nat) (hj : j < 14), s.dec.dhdr = 0x40 → s.dec.dcnt = 2 * j + 2 →
        c = s.dec.ch.set j (b ++ lowByte s.dec.ch[j]))

/-- R133: DEC.PAYLOAD on a frame's last byte, by the frame's header (payload byte 0, which the last byte may itself be) and
length: the Frame event and the pending deliveries, or one Skip. -/
def Obligations.LastPayloadByteCompletes : Prop :=
  ∀ (s : State) (b : Byte) (r : List StreamEv),
    s.dec.dstate = .payload → true ∉ s.dec.dpub → s.rxq = .byte b :: r → s.dec.dcnt + 1 = s.dec.dlen.toNat - 1 →
    (s.dec.dlen = 0x1E → s.dec.dhdr = 0x40 →
      exec .decPayload s = .next { s with
        rxq := r,
        dec := { s.dec with
          dstate := .len, dcnt := 29, ch := s.dec.ch.set 13 (b ++ lowByte s.dec.ch[13]),
          dpub := List.replicate s.slots.length true },
        trace := s.trace ++ [.frame (s.dec.ch.set 13 (b ++ lowByte s.dec.ch[13]))] }) ∧
    (s.dec.dlen ≠ 0x1E → s.dec.dcnt ≠ 0 → s.dec.dhdr = 0x40 →
      exec .decPayload s = .next { s with
        rxq := r,
        dec := { s.dec with
          dstate := .len, dcnt := s.dec.dcnt + 1, ch := laneWrites s.dec.ch s.dec.dcnt [b] },
        trace := s.trace ++ [.skip .badLen] }) ∧
    (s.dec.dcnt = 0 →
      exec .decPayload s = .next { s with
        rxq := r, dec := { s.dec with dstate := .len, dcnt := 1, dhdr := b },
        trace := s.trace ++ [.skip (if b = 0x40 then .badLen else .header)] }) ∧
    (s.dec.dcnt ≠ 0 → s.dec.dhdr ≠ 0x40 →
      exec .decPayload s = .next { s with
        rxq := r, dec := { s.dec with dstate := .len, dcnt := s.dec.dcnt + 1 },
        trace := s.trace ++ [.skip .header] })

/-- R134: DEC.DELIVER of a pending delivery publishes the packed channel registers to that slot and clears its pending bit;
without one pending it has no effect (log entry 3). -/
def Obligations.DeliveryPublishesFrame : Prop :=
  ∀ (s : State) (k : Nat) (sl : Slot), s.slots[k]? = some sl →
    (s.dec.dpub[k]? = some true →
      exec (.decDeliver k) s = .next { s with
        slots := s.slots.set k { sl with val := pack s.dec.ch, full := true },
        dec := { s.dec with dpub := s.dec.dpub.set k false } }) ∧
    (s.dec.dpub[k]? ≠ some true → exec (.decDeliver k) s = .next s)

/-- R135, R241: DEC.RXERR stops the decoder with one DecFatal; every other register and the slots keep their values. -/
def Obligations.SerialErrorIsFatal : Prop :=
  ∀ (s : State) (r : List StreamEv),
    s.dec.dstate ≠ .fatal → true ∉ s.dec.dpub → s.rxq = .ioError :: r →
    exec .decRxerr s =
      .next { s with rxq := r, dec := { s.dec with dstate := .fatal }, trace := s.trace ++ [.decFatal] }

/-- R16, R61, R136: with the serial stream empty, a delivery pending, or in `D_FATAL`, the decoder takes no event. R131, R132,
R135: DEC.LEN is a step of `D_LEN` and DEC.PAYLOAD of `D_PAYLOAD`, each on a byte, and DEC.RXERR a step on an error. That a
scheduled step that is not enabled passes without effect is the model's form of waiting (log entry 3). -/
def Obligations.DecoderWaits : Prop :=
  ∀ s : State,
    (s.rxq = [] ∨ true ∈ s.dec.dpub ∨ s.dec.dstate = .fatal →
      exec .decLen s = .next s ∧ exec .decPayload s = .next s ∧ exec .decRxerr s = .next s) ∧
    (s.dec.dstate ≠ .len → exec .decLen s = .next s) ∧
    (s.dec.dstate ≠ .payload → exec .decPayload s = .next s) ∧
    (∀ r, s.rxq = .ioError :: r → exec .decLen s = .next s ∧ exec .decPayload s = .next s) ∧
    (∀ b r, s.rxq = .byte b :: r → exec .decRxerr s = .next s)

/-- R136, R245: `D_FATAL` is left only by reset. Any other step, by any agent, leaves the decoder's registers as they are,
takes nothing from the serial stream, and emits no event of the decoder. -/
def Obligations.FatalDecoderStaysStopped : Prop :=
  ∀ (s t : State) (a : Act) (r : List Act), Inv s → s.dec.dstate = .fatal → a ≠ .rst →
    step (s.scheduled a r) = .next t →
    t.dec = s.dec ∧ rxReady t.dec = false ∧ (∃ q, t.rxq = s.rxq ++ q) ∧
    ∃ es, t.trace = s.trace ++ es ∧
      ∀ e ∈ es, (∃ ln, e = .hsIgnored ln) ∨ ∃ c, e = .escFault c

/-- R73 (e), R134: the deliveries of one frame may be taken in either order, with the same result. -/
def Obligations.DeliveriesCommute : Prop :=
  ∀ (s t u : State) (j k : Nat),
    exec (.decDeliver j) s = .next t → exec (.decDeliver k) t = .next u →
    ∃ t', exec (.decDeliver k) s = .next t' ∧ exec (.decDeliver j) t' = .next u

/-- R139: byte accounting. Whole frames of any classes, one after another from a frame boundary, emit exactly one event each,
in their order, of the class R96 gives; a frame of length byte `L` has `max(L, 1)` bytes; and the decoder is at a frame
boundary again. -/
def Obligations.OneEventPerFrame : Prop :=
  ∀ (s : State) (fs : List Instr), DecIdle s → (∀ i ∈ fs, isFrame i = true ∧ i.wf = true) →
    (∀ i ∈ fs, ∃ L bs, encodeBytes i = L :: bs ∧ (encodeBytes i).length = max L.toNat 1) ∧
    ∃ t, Host.Core.run core fs.length { s with sched := fs.map schedule } = .next t ∧
      t.trace = s.trace ++ fs.filterMap frameEvent ∧ DecIdle t ∧ t.esc = s.esc ∧ t.rets = s.rets

/-- R115, R130 to R134: bytes that arrive on the serial stream as one unit do exactly what the same bytes do one by one, each
offered by SRC and taken by the decoder's single steps, with the deliveries in between. So the SFRAME rows are runs of the
DEC rows. The model's choices in it: the schedule names both DEC.PAYLOAD and DEC.LEN for each byte and the one that is not
enabled passes (log entry 3), units arrive whole and deliveries go in rising order (log entry 4), and a slot index is one
byte, so there are at most 256 slots (log entry 6). -/
def Obligations.FrameIsRunOfSteps : Prop :=
  ∀ (s : State) (bs : List Byte), s.rxq = [] → s.sched = [] → s.slots.length ≤ 256 →
    s.dec.dpub = List.replicate s.slots.length false →
    Host.Core.run core (bs.length * (3 + s.slots.length)) { s with sched := serialSteps s.slots.length bs } =
      .next (serialArrive bs s)

/-! ### The slots -/

/-- R151: PUBLISH stores the value and sets the flag whatever it was; the waiters, the other slots and everything else are
unchanged. -/
def Obligations.PublishOverwrites : Prop :=
  ∀ (s : State) (k : Nat) (v : Value) (sl : Slot), s.slots[k]? = some sl →
    exec (.publish k v) s = .next { s with slots := s.slots.set k { sl with val := v, full := true } }

/-- R152: TAKE on a pending value returns that value and clears the flag in one step; the stored value is kept. -/
def Obligations.TakeReturnsPending : Prop :=
  ∀ (s : State) (k c : Nat) (sl : Slot), s.slots[k]? = some sl → c < sl.wait.length → sl.full = true →
    exec (.take k c) s = .next { s with
      slots := s.slots.set k { sl with full := false, wait := sl.wait.set c false },
      rets := s.rets ++ [.take k c sl.val] }

/-- R153, R155: TAKE without a pending value waits: the waiter bit is set, nothing is returned; so a wake without the flag
has no effect. -/
def Obligations.TakeWaits : Prop :=
  ∀ (s : State) (k c : Nat) (sl : Slot), s.slots[k]? = some sl → c < sl.wait.length → sl.full = false →
    exec (.take k c) s = .next { s with slots := s.slots.set k { sl with wait := sl.wait.set c true } }

/-- R154: PEEK, by a consumer with no TAKE outstanding, hits on a pending value and misses otherwise, and writes no state (with
`PEEK_CLEARS` off, the spec's rule). With `PEEK_CLEARS` on, U3's other reading, a hit clears the flag (log entry 10). A
consumer in a TAKE issues none (R153); that a PEEK scheduled for it passes without effect is the model's (log entry 3). -/
def Obligations.PeekWritesNothing : Prop :=
  ∀ (s : State) (k c : Nat) (sl : Slot), s.slots[k]? = some sl → c < sl.wait.length →
    (sl.wait[c]? = some false →
      (sl.full = true → s.params.peekClears = false →
        exec (.peek k c) s = .next { s with rets := s.rets ++ [.peek k c (some sl.val)] }) ∧
      (sl.full = true → s.params.peekClears = true →
        exec (.peek k c) s = .next { s with
          slots := s.slots.set k { sl with full := false }, rets := s.rets ++ [.peek k c (some sl.val)] }) ∧
      (sl.full = false → exec (.peek k c) s = .next { s with rets := s.rets ++ [.peek k c none] })) ∧
    (sl.wait[c]? = some true → exec (.peek k c) s = .next s)

/-- An operation on a slot or consumer port that the block does not have (R14: `s < N_SLOTS`, `c < N_CONS`) stops by name. The
stop is the model's (log entry 8). -/
def Obligations.MissingPortsStop : Prop :=
  ∀ (s : State) (k c : Nat) (v : Value),
    (s.slots.length ≤ k →
      exec (.decDeliver k) s = .fault (.noSuchSlot k) ∧ exec (.publish k v) s = .fault (.noSuchSlot k) ∧
      exec (.take k c) s = .fault (.noSuchSlot k) ∧ exec (.peek k c) s = .fault (.noSuchSlot k)) ∧
    (∀ sl, s.slots[k]? = some sl → sl.wait.length ≤ c →
      exec (.take k c) s = .fault (.noSuchConsumer k c) ∧ exec (.peek k c) s = .fault (.noSuchConsumer k c))

/-- R159: last write wins. After any sequence of publishes and one more, of `v`, a TAKE returns `v`, whatever was pending or
waiting before, and nothing else is returned. The indexes are those a scheduled unit can carry, below 256, by the model's
byte layout (log entry 6). -/
def Obligations.LastWriteWins : Prop :=
  ∀ (s : State) (k c : Nat) (sl : Slot) (vs : List Value) (v : Value),
    s.slots[k]? = some sl → c < sl.wait.length → k < 256 → c < 256 →
    ∃ t, Host.Core.run core (vs.length + 2)
        { s with sched := (vs ++ [v]).map (fun w => schedule (.publish k w)) ++ [schedule (.take k c)] } = .next t ∧
      t.rets = s.rets ++ [.take k c v] ∧
      t.slots = s.slots.set k { val := v, full := false, wait := sl.wait.set c false }

/-- R161: a flag falls only by TAKE or by reset. Where a step other than reset takes slot `k` from full to empty, a TAKE on `k`
has returned exactly its pending value in that step. -/
def Obligations.FlagFallsOnlyByTake : Prop :=
  ∀ (s t : State) (a : Act) (r : List Act) (k : Nat) (x y : Slot),
    s.params.peekClears = false → a ≠ .rst → step (s.scheduled a r) = .next t →
    s.slots[k]? = some x → t.slots[k]? = some y → x.full = true → y.full = false →
    y.val = x.val ∧ ∃ c, t.rets = s.rets ++ [.take k c x.val]

/-- R157: each published value completes at most one TAKE. After a publish of `v` and a TAKE that gets it, whatever is then
scheduled without a PUBLISH or DELIVER to the slot and without a frame coming in, no TAKE on the slot returns a value any
more, and any consumer's next TAKE waits. -/
def Obligations.OneTakePerPublish : Prop :=
  ∀ (s : State) (k c : Nat) (v : Value) (sl : Slot),
    s.slots[k]? = some sl → c < sl.wait.length →
    ∃ t1 t2, exec (.publish k v) s = .next t1 ∧ exec (.take k c) t1 = .next t2 ∧
      t2.rets = s.rets ++ [.take k c v] ∧
      t2.slots = s.slots.set k { val := v, full := false, wait := sl.wait.set c false } ∧
      ∀ (acts : List Act) (t : State), (∀ a ∈ acts, mayPublish k a = false) →
        Host.Core.run core acts.length { t2 with sched := acts } = .next t →
        (∃ rs, t.rets = t2.rets ++ rs ∧ ∀ d w, Ret.take k d w ∉ rs) ∧
        ∃ sl', t.slots[k]? = some sl' ∧ sl'.wait.length = sl.wait.length ∧
          ∀ d, d < sl.wait.length →
            exec (.take k d) t = .next { t with slots := t.slots.set k { sl' with wait := sl'.wait.set d true } }

/-- R16, R158: progress. In every execution without an end that is weakly fair, a TAKE that has been issued on a slot with one
consumer port, once a value is pending, stays enabled until it is taken, and it is taken: it returns the value then pending.
Premises are no reset and `PEEK_CLEARS` off (log entries 10 and 24). -/
def Obligations.FairTakeCompletes : Prop :=
  ∀ (e : Nat → State) (a : Nat → Act) (k n : Nat) (sl : Slot), Executes e a → WeaklyFair e a →
    (∀ m, n ≤ m → a m ≠ .rst) → (e n).params.peekClears = false →
    (e n).slots[k]? = some sl → sl.wait.length = 1 → takeEnabled k 0 (e n) = true →
    ∃ m, n ≤ m ∧ (∀ j, n ≤ j → j ≤ m → takeEnabled k 0 (e j) = true) ∧
      ∃ sl', (e m).slots[k]? = some sl' ∧ (e (m + 1)).rets = (e m).rets ++ [.take k 0 sl'.val] ∧
        (e (m + 1)).slots = (e m).slots.set k { sl' with full := false, wait := [false] }

/-- R21, R210: `Pack` puts channel `i` at bits `16*i + 15 : 16*i`, and `Unpack` is its inverse in both directions. -/
def Obligations.PackUnpackInverse : Prop :=
  (∀ f : ChannelFrame, unpack (pack f) = f) ∧ (∀ v : Value, pack (unpack v) = v) ∧
  ∀ (f : ChannelFrame) (j : Nat) (h : j < 14), (pack f).extractLsb' (16 * j) 16 = f[j]

/-! ### The engine -/

/-- R171: INIT without an endpoint, with a rate of the table and a write that succeeds, latches its operands, looks the speed
up and sends `ADD <pin> <speed>`; TLINE.ADD is the part of it that the line shows, the mode staying as it is (log entry
5). -/
def Obligations.InitSendsAdd : Prop :=
  ∀ (s : State) (pin : Byte) (r : Rate) (mode : WireMode),
    s.esc.estate = .uninit → writeFails (addLine pin r).length s = none →
    exec (.init pin (rateKbit r) mode) s = .next { s with
      cmdq := s.cmdq ++ ([0x41, 0x44, 0x44, 0x20] ++ dec pin.toNat ++ [0x20] ++ dec (speedOf r).toNat ++ [0x0A]),
      cmdFail := s.cmdFail.tail,
      esc := { s.esc with
        emode := mode, epin := pin, erate := rateKbit r, espeed := speedOf r, eop := .init, estate := .hsWait } } ∧
    exec (.tlineAdd pin r) s = .next { s with
      cmdq := s.cmdq ++ ([0x41, 0x44, 0x44, 0x20] ++ dec pin.toNat ++ [0x20] ++ dec (speedOf r).toNat ++ [0x0A]),
      cmdFail := s.cmdFail.tail,
      esc := { s.esc with epin := pin, erate := rateKbit r, espeed := speedOf r, eop := .init, estate := .hsWait } }

/-- R234, R243: INIT with any other rate is a ConfigError: nothing is written to a stream, `espeed` is not written, and INIT
completes with `ST_FAULT`. -/
def Obligations.UnsupportedRateIsConfigError : Prop :=
  ∀ (s : State) (pin : Byte) (rate : U16) (mode : WireMode),
    s.esc.estate = .uninit → rate ≠ 150 → rate ≠ 300 → rate ≠ 600 → rate ≠ 1200 →
    exec (.init pin rate mode) s = .next { s with
      esc := { s.esc with
        emode := mode, epin := pin, erate := rate, estate := .fault, ecause := .config, rstatus := .fault },
      trace := s.trace ++ [.escFault .config], rets := s.rets ++ [.init .fault none] }

/-- R62, R183, R241: a write that fails after `k` bytes leaves those bytes in the command stream and nothing more; the engine
stops with cause 2 and the operation completes with `ST_FAULT`. So for INIT and its ADD line, for SEND in TEXT mode, its
action and its THROTTLE line, and for SEND in BIN16 mode, its action and its 16-bit frame (the unit rows as parts of INIT
and SEND: log entry 5). -/
def Obligations.WriteFailureFaults : Prop :=
  ∀ (s : State) (k : Nat),
    (∀ (pin : Byte) (r : Rate) (mode : WireMode), s.esc.estate = .uninit →
      writeFails (addLine pin r).length s = some k →
      exec (.init pin (rateKbit r) mode) s = .next { s with
        cmdq := s.cmdq ++ (addLine pin r).take k, cmdFail := s.cmdFail.tail,
        esc := { s.esc with
          emode := mode, epin := pin, erate := rateKbit r, espeed := speedOf r, estate := .fault, ecause := .streamIo,
          llen := 0, lovf := false, rstatus := .fault },
        trace := s.trace ++ [.escFault .streamIo], rets := s.rets ++ [.init .fault none] } ∧
      exec (.tlineAdd pin r) s = .next { s with
        cmdq := s.cmdq ++ (addLine pin r).take k, cmdFail := s.cmdFail.tail,
        esc := { s.esc with
          epin := pin, erate := rateKbit r, espeed := speedOf r, estate := .fault, ecause := .streamIo,
          llen := 0, lovf := false, rstatus := .fault },
        trace := s.trace ++ [.escFault .streamIo], rets := s.rets ++ [.init .fault none] }) ∧
    (∀ (thr : U11) (tel : Bool) (i : Instr),
      i = .send thr tel ∨ i = .sendText thr tel ∨ i = .tlineThrottle s.esc.eid thr tel →
      s.esc.estate = .ready → s.esc.emode = .text →
      writeFails (throttleLine s.esc.eid thr tel).length s = some k →
      exec i s = .next { s with
        cmdq := s.cmdq ++ (throttleLine s.esc.eid thr tel).take k, cmdFail := s.cmdFail.tail,
        esc := { s.esc with
          estate := .fault, ecause := .streamIo, llen := 0, lovf := false, rstatus := .fault },
        trace := s.trace ++ [.escFault .streamIo], rets := s.rets ++ [.send .fault none] }) ∧
    (∀ (thr : U11) (tel : Bool) (i : Instr),
      i = .send thr tel ∨ i = .sendBin16 thr tel ∨ i = .bin16Frame thr tel →
      s.esc.estate = .ready → s.esc.emode = .bin16 →
      writeFails 2 s = some k →
      exec i s = .next { s with
        cmdq := s.cmdq ++ (binBytes thr tel).take k, cmdFail := s.cmdFail.tail,
        esc := { s.esc with
          estate := .fault, ecause := .streamIo, llen := 0, lovf := false, rstatus := .fault },
        trace := s.trace ++ [.escFault .streamIo], rets := s.rets ++ [.send .fault none] })

/-- R171, R174, R236: operations in the wrong state are refused by status and do nothing else; a busy engine accepts none
(R170; that the request then passes is log entry 3). -/
def Obligations.OperationsInWrongState : Prop :=
  ∀ (s : State) (pin : Byte) (rate : U16) (mode : WireMode) (thr : U11) (tel : Bool),
    (s.esc.estate = .fault →
      exec (.init pin rate mode) s = .next { s with
        esc := { s.esc with rstatus := .fault }, rets := s.rets ++ [.init .fault none] } ∧
      exec (.send thr tel) s = .next { s with
        esc := { s.esc with rstatus := .fault }, rets := s.rets ++ [.send .fault none] }) ∧
    (s.esc.estate = .ready →
      exec (.init pin rate mode) s = .next { s with
        esc := { s.esc with rstatus := .badState }, rets := s.rets ++ [.init .badState none] }) ∧
    (s.esc.estate = .uninit →
      exec (.send thr tel) s = .next { s with
        esc := { s.esc with rstatus := .badState }, rets := s.rets ++ [.send .badState none] }) ∧
    (busy s.esc = true → exec (.init pin rate mode) s = .next s ∧ exec (.send thr tel) s = .next s)

/-- R176, R108: a SEND of a ready engine in TEXT mode, as SEND, as SEND.TEXT and as the THROTTLE line with its own id, writes
`THROTTLE <id> <throttle> <true|false>` and waits for one line. -/
def Obligations.SendTextWritesThrottle : Prop :=
  ∀ (s : State) (thr : U11) (tel : Bool) (i : Instr),
    i = .send thr tel ∨ i = .sendText thr tel ∨ i = .tlineThrottle s.esc.eid thr tel →
    s.esc.estate = .ready → s.esc.emode = .text → writeFails (throttleLine s.esc.eid thr tel).length s = none →
    exec i s = .next { s with
      cmdq := s.cmdq ++ (txtThrottle ++ [0x20] ++ dec s.esc.eid.toNat ++ [0x20] ++ dec thr.toNat ++ [0x20] ++
        boolStr tel ++ [0x0A]),
      cmdFail := s.cmdFail.tail,
      esc := { s.esc with eop := .send, estate := .rspWait } }

/-- R177, R111: a SEND of a ready engine in BIN16 mode, as SEND, as SEND.BIN16 and as the 16-bit frame, writes the frame's two
bytes, low byte first, reads no response and completes with `ST_OK`. -/
def Obligations.SendBin16WritesFrame : Prop :=
  ∀ (s : State) (thr : U11) (tel : Bool) (i : Instr),
    i = .send thr tel ∨ i = .sendBin16 thr tel ∨ i = .bin16Frame thr tel →
    s.esc.estate = .ready → s.esc.emode = .bin16 → writeFails 2 s = none →
    exec i s = .next { s with
      cmdq := s.cmdq ++ [(binFrame thr tel).extractLsb' 0 8, (binFrame thr tel).extractLsb' 8 8],
      cmdFail := s.cmdFail.tail, esc := { s.esc with rstatus := .ok }, rets := s.rets ++ [.send .ok none] }

/-- Log entry 5: a form whose enabling the table gives (`emode`, `estate`, the id) passes without effect where that does not
hold. The model's choice. -/
def Obligations.InactiveFormsPass : Prop :=
  ∀ (s : State) (pin : Byte) (r : Rate) (id : U32) (thr : U11) (tel : Bool),
    (s.esc.estate ≠ .uninit → exec (.tlineAdd pin r) s = .next s) ∧
    (s.esc.estate ≠ .ready ∨ s.esc.emode ≠ .text →
      exec (.sendText thr tel) s = .next s ∧ exec (.tlineThrottle id thr tel) s = .next s) ∧
    (s.esc.eid ≠ id → exec (.tlineThrottle id thr tel) s = .next s) ∧
    (s.esc.estate ≠ .ready ∨ s.esc.emode ≠ .bin16 →
      exec (.sendBin16 thr tel) s = .next s ∧ exec (.bin16Frame thr tel) s = .next s)

/-- R180: ESC.RSPBYTE on a byte other than LF stores it, or drops it and marks the line overlong once 64 bytes are held. -/
def Obligations.ResponseByteStored : Prop :=
  ∀ (s : State) (b : Byte) (r : List StreamEv), busy s.esc = true → s.rspq = .byte b :: r → b ≠ 0x0A →
    (s.esc.llen < 64 →
      exec .escRspbyte s = .next { s with
        rspq := r, esc := { s.esc with lbuf := s.esc.lbuf.set s.esc.llen b, llen := s.esc.llen + 1 } }) ∧
    (64 ≤ s.esc.llen →
      exec .escRspbyte s = .next { s with rspq := r, esc := { s.esc with lovf := true } })

/-- R172, R178, R180: ESC.RSPBYTE on the LF ends the line: in the handshake by the answer's prefix and trailing integer, in a
SEND by the response grammar, an overlong line being ignored in the one and a ProtocolError in the other. -/
def Obligations.LineFeedEndsLine : Prop :=
  ∀ (s : State) (r : List StreamEv) (ln : List Byte),
    s.rspq = .byte 0x0A :: r → ln = s.esc.lbuf.take s.esc.llen →
    (s.esc.estate = .hsWait → s.esc.lovf = false → startsOk ln = true →
      (∀ v, trailingInt ln = some v →
        exec .escRspbyte s = .next { s with
          rspq := r,
          esc := { s.esc with llen := 0, lovf := false, eid := v, estate := .ready, rstatus := .ok, rid := v },
          rets := s.rets ++ [.init .ok (some v)] }) ∧
      (trailingInt ln = none →
        exec .escRspbyte s = .next { s with
          rspq := r,
          esc := { s.esc with llen := 0, lovf := false, estate := .fault, ecause := .protocol, rstatus := .fault },
          trace := s.trace ++ [.escFault .protocol], rets := s.rets ++ [.init .fault none] })) ∧
    (s.esc.estate = .hsWait → s.esc.lovf = true ∨ startsOk ln = false →
      exec .escRspbyte s = .next { s with
        rspq := r, esc := { s.esc with llen := 0, lovf := false }, trace := s.trace ++ [.hsIgnored ln] }) ∧
    (s.esc.estate = .rspWait → s.esc.lovf = true ∨ parseCommand ln = none →
      exec .escRspbyte s = .next { s with
        rspq := r, esc := { s.esc with llen := 0, lovf := false, estate := .ready, rstatus := .protocol },
        rets := s.rets ++ [.send .protocol none] }) ∧
    (∀ c, s.esc.estate = .rspWait → s.esc.lovf = false → parseCommand ln = some c →
      exec .escRspbyte s = .next { s with
        rspq := r,
        esc := { s.esc with
          llen := 0, lovf := false, estate := .ready, rstatus := .ok, rkind := c.kind, rid := c.id,
          rplen := c.payload.length, rpay := c.payload ++ s.esc.rpay.drop c.payload.length },
        rets := s.rets ++ [.send .ok (some c)] })

/-- R182, R241: ESC.RSPERR drops the partial line, stops the engine with cause 2, and ends the operation in progress with
`ST_FAULT`. -/
def Obligations.ResponseErrorFaults : Prop :=
  ∀ (s : State) (r : List StreamEv), busy s.esc = true → s.rspq = .ioError :: r →
    exec .escRsperr s = .next { s with
      rspq := r,
      esc := { s.esc with
        llen := 0, lovf := false, estate := .fault, ecause := .streamIo, rstatus := .fault },
      trace := s.trace ++ [.escFault .streamIo],
      rets := s.rets ++ [match s.esc.eop with | .init => .init .fault none | .send => .send .fault none] }

/-- R109, R113, R172, R242: a handshake answer that starts with "OK", arriving at the start of a line. With a trailing integer
it gives the endpoint its id and completes INIT with `(ST_OK, id)`; without one it is a ProtocolError, fatal at start-up. -/
def Obligations.HandshakeAnswerDecides : Prop :=
  ∀ (s : State) (rest : List Byte), s.esc.estate = .hsWait → LineStart s →
    ((Instr.hsOk rest).wf = true →
      ∃ v, trailingInt (0x4F :: 0x4B :: rest) = some v ∧
        exec (.hsOk rest) s = .next { s with
          esc := { s.esc with
            lbuf := 0x4F :: 0x4B :: rest ++ s.esc.lbuf.drop (rest.length + 2),
            eid := v, estate := .ready, rstatus := .ok, rid := v },
          rets := s.rets ++ [.init .ok (some v)] }) ∧
    ((Instr.hsOkNoint rest).wf = true →
      exec (.hsOkNoint rest) s = .next { s with
        esc := { s.esc with
          lbuf := 0x4F :: 0x4B :: rest ++ s.esc.lbuf.drop (rest.length + 2),
          estate := .fault, ecause := .protocol, rstatus := .fault },
        trace := s.trace ++ [.escFault .protocol], rets := s.rets ++ [.init .fault none] })

/-- R113, R172: any other line of the handshake, the empty and the overlong ones included, is logged and ignored; the engine
goes on waiting. -/
def Obligations.OtherHandshakeLineIgnored : Prop :=
  ∀ (s : State) (ln : List Byte), s.esc.estate = .hsWait → LineStart s → (Instr.hsOther ln).wf = true →
    exec (.hsOther ln) s = .next { s with
      esc := { s.esc with lbuf := ln.take 64 ++ s.esc.lbuf.drop (ln.take 64).length },
      trace := s.trace ++ [.hsIgnored (ln.take 64)] }

/-- R110, R178: a response of any of the three kinds, arriving at the start of a line, is returned as it is: kind, id and
payload, whatever the id and the kind are. -/
def Obligations.ResponseIsReturned : Prop :=
  ∀ (s : State) (idText payload : List Byte) (i : Instr) (k : Kind),
    (i = .rspThrottle idText payload ∧ k = .throttle) ∨ (i = .rspOk idText payload ∧ k = .ok) ∨
      (i = .rspErr idText payload ∧ k = .err) →
    s.esc.estate = .rspWait → LineStart s → i.wf = true →
    ∃ id, parseDec idText = some id ∧
      exec i s = .next { s with
        esc := { s.esc with
          lbuf := rspText k idText payload ++ s.esc.lbuf.drop (rspText k idText payload).length,
          estate := .ready, rstatus := .ok, rkind := k, rid := id, rplen := payload.length,
          rpay := payload ++ s.esc.rpay.drop payload.length },
        rets := s.rets ++ [.send .ok (some ⟨k, id, payload⟩)] }

/-- R113, R178, R242: a line that is no response, the overlong ones included, completes the SEND with `ST_PROTOCOL`; the engine
is ready again and nothing is logged. -/
def Obligations.InvalidResponseIsProtocolError : Prop :=
  ∀ (s : State) (ln : List Byte), s.esc.estate = .rspWait → LineStart s → (Instr.rspInvalid ln).wf = true →
    exec (.rspInvalid ln) s = .next { s with
      esc := { s.esc with
        lbuf := ln.take 64 ++ s.esc.lbuf.drop (ln.take 64).length, estate := .ready, rstatus := .protocol },
      rets := s.rets ++ [.send .protocol none] }

/-- R181, R64: an idle engine takes nothing from the response stream: a line that comes in stays queued there, whatever it
is, and the two reading steps pass. R180, R182: of any engine, busy or idle, ESC.RSPBYTE passes without a byte at the head of
the stream and ESC.RSPERR without an error there. That a step that is not enabled passes is log entry 3. -/
def Obligations.IdleEngineReadsNothing : Prop :=
  ∀ (s : State),
    (busy s.esc = false →
      rspReady s.esc = false ∧ exec .escRspbyte s = .next s ∧ exec .escRsperr s = .next s ∧
      ∀ bs, responseArrive bs s = { s with rspq := s.rspq ++ bs.map StreamEv.byte }) ∧
    (s.rspq = [] → exec .escRspbyte s = .next s ∧ exec .escRsperr s = .next s) ∧
    (∀ r, s.rspq = .ioError :: r → exec .escRspbyte s = .next s) ∧
    (∀ b r, s.rspq = .byte b :: r → exec .escRsperr s = .next s)

/-- R115, R180, R182: bytes that arrive on the response stream as one unit do exactly what the same bytes do one by one, each
written by SVC and taken by ESC.RSPBYTE while the engine is busy. So the HS and RSP rows are runs of ESC.RSPBYTE. The
model's choices in it: units arrive whole (log entry 4), and once the engine falls idle the ESC.RSPBYTE steps that are left
pass (log entry 3). -/
def Obligations.LineIsRunOfSteps : Prop :=
  ∀ (s : State) (bs : List Byte), s.rspq = [] → s.sched = [] →
    Host.Core.run core (2 * bs.length) { s with sched := responseSteps bs } =
      .next (responseArrive bs s)

/-- R245, R182: `E_FAULT` is left only by reset and keeps its first cause. Any other step, by any agent, takes nothing from the
response stream and puts nothing into the command stream. -/
def Obligations.FaultedEngineStaysStopped : Prop :=
  ∀ (s t : State) (a : Act) (r : List Act), s.esc.estate = .fault → a ≠ .rst →
    step (s.scheduled a r) = .next t →
    t.esc.estate = .fault ∧ t.esc.ecause = s.esc.ecause ∧ escFault t.esc = true ∧
    (∃ q, t.rspq = s.rspq ++ q) ∧ t.cmdRead ++ t.cmdq = s.cmdRead ++ s.cmdq

/-- R30, R77, R193: the configuration registers are written only while no endpoint exists. Once the engine has left
`E_UNINIT`, no step but reset changes the mode, the pin, the rate or the speed. That no step at all changes the open
parameters (R8) or the number of slots (R7, R14) is their form in this model, as data of the state (log entries 8 and 9). -/
def Obligations.ConfigurationIsLatched : Prop :=
  ∀ (s t : State) (a : Act) (r : List Act), step (s.scheduled a r) = .next t →
    (s.esc.estate ≠ .uninit → a ≠ .rst →
      t.esc.emode = s.esc.emode ∧ t.esc.epin = s.esc.epin ∧ t.esc.erate = s.esc.erate ∧ t.esc.espeed = s.esc.espeed) ∧
    t.params = s.params ∧ t.slots.length = s.slots.length

/-- R192: the state graph of the engine is complete: a step moves `estate` along one of these edges or leaves it, and only
reset returns to `E_UNINIT`. -/
def Obligations.EngineStateGraph : Prop :=
  ∀ (s t : State) (a : Act) (r : List Act), a ≠ .rst → step (s.scheduled a r) = .next t →
    t.esc.estate = s.esc.estate ∨
    (s.esc.estate = .uninit ∧ (t.esc.estate = .hsWait ∨ t.esc.estate = .fault)) ∨
    (s.esc.estate = .hsWait ∧ (t.esc.estate = .ready ∨ t.esc.estate = .fault)) ∨
    (s.esc.estate = .ready ∧ (t.esc.estate = .rspWait ∨ t.esc.estate = .fault)) ∨
    (s.esc.estate = .rspWait ∧ (t.esc.estate = .ready ∨ t.esc.estate = .fault))

/-- R191: the 16-bit frame verifies, its low 12 bits are the throttle and the telemetry bit, its fields give it back, its
checksum nibble is the complement of the exclusive or of the three others (R190), and the exclusive or of all four is
0xF, for every throttle and telemetry flag. -/
def Obligations.ChecksumReverifies : Prop :=
  ∀ (thr : U11) (tel : Bool),
    verifyFrame (binFrame thr tel) = true ∧ frameThr (binFrame thr tel) = thr ∧ frameTel (binFrame thr tel) = tel ∧
    binFrame (frameThr (binFrame thr tel)) (frameTel (binFrame thr tel)) = binFrame thr tel ∧
    (binFrame thr tel).extractLsb' 12 4 =
      ~~~((binField thr tel).extractLsb' 0 4 ^^^ (binField thr tel).extractLsb' 4 4 ^^^
        (binField thr tel).extractLsb' 8 4) ∧
    (binFrame thr tel).extractLsb' 0 4 ^^^ (binFrame thr tel).extractLsb' 4 4 ^^^
      (binFrame thr tel).extractLsb' 8 4 ^^^ (binFrame thr tel).extractLsb' 12 4 = 0xF#4

/-- R103, R105: decimal text. `dec` of every id is 1 to 10 digits without a leading zero, and `parse_dec` reads it back. -/
def Obligations.DecimalRoundTrip : Prop :=
  ∀ v : U32, parseDec (dec v.toNat) = some v ∧ 1 ≤ (dec v.toNat).length ∧ (dec v.toNat).length ≤ 10 ∧
    (dec v.toNat).all isDigit = true ∧ ((dec v.toNat).head? = some 0x30 → v = 0)

/-! ### The mapping functions and the loops -/

/-- R212, R215: SERVOMAP returns the clamped angle when it is positive and no update otherwise, and changes nothing but its
result. -/
def Obligations.ServoAngle : Prop :=
  ∀ (s : State) (f : ChannelFrame), ∃ a : Int,
    a = min (max ((((f[s.params.servoK].toNat : Int) - 1000) * 90).tdiv 1000) s.params.servoLo) s.params.servoHi ∧
    exec (.servomap f) s = .next { s with servoRes := if 0 < a then some a else none }

/-- R213, R214: ESCMAP by its cases, in their order, with the throttle range guard, which never fires for conventional throttle
channels; it changes nothing but its result. -/
def Obligations.EscCommandCases : Prop :=
  ∀ (s : State) (f : ChannelFrame), ∃ r : Option (U11 × Bool),
    exec (.escmap f) s = .next { s with escRes := r } ∧
    (f[9] = 1000 → r = some (0, true)) ∧
    (f[9] ≠ 1000 → f[8] = 2000 →
      (∀ n : Nat, n ≤ 2047 → f[2].toNat = 1000 + n → r = some (BitVec.ofNat 11 n, false)) ∧
      (f[2].toNat < 1000 ∨ 3047 < f[2].toNat → r = none)) ∧
    (f[9] ≠ 1000 → f[8] = 1000 →
      (∀ n : Nat, n ≤ 2047 → f[2].toNat + 24 = n → r = some (BitVec.ofNat 11 n, false)) ∧
      (2023 < f[2].toNat → r = none)) ∧
    (f[9] ≠ 1000 → f[8] = 1500 → r = some (0, false)) ∧
    (f[9] ≠ 1000 → f[8] ≠ 2000 → f[8] ≠ 1000 → f[8] ≠ 1500 → r = none) ∧
    ((f[8] = 2000 ∨ f[8] = 1000 ∨ f[8] = 1500) → 1000 ≤ f[2].toNat → f[2].toNat ≤ 2000 → r ≠ none)

/-- R246, R248: sub-blocks fail and run apart. No row of the engine changes the decoder, the slots or the serial stream; no row
of the decoder changes the engine, its streams or any returned value, and it reaches the slots by deliveries only: a slot it
changes holds a full value, and no waiter bit changes; no row of a slot changes the decoder, the engine, a stream or the
trace; the mapping functions change none of all these. -/
def Obligations.SubBlocksAreIndependent : Prop :=
  ∀ (i : Instr) (s t : State), exec i s = .next t →
    ((portOf i = .op ∨ (∃ m, portOf i = .sendIn m) ∨ portOf i = .rsp ∨ portOf i = .cmdText ∨ portOf i = .cmdBin ∨
        portOf i = .hsLine ∨ portOf i = .rspLine) →
      t.dec = s.dec ∧ t.slots = s.slots ∧ t.rxq = s.rxq) ∧
    ((isFrame i = true ∨ portOf i = .rx ∨ portOf i = .deliver) →
      t.esc = s.esc ∧ t.cmdq = s.cmdq ∧ t.rspq = s.rspq ∧ t.cmdFail = s.cmdFail ∧ t.rets = s.rets ∧
      t.slots.length = s.slots.length ∧
      ∀ (k : Nat) (x y : Slot), s.slots[k]? = some x → t.slots[k]? = some y →
        y = x ∨ (y.full = true ∧ y.wait = x.wait)) ∧
    ((portOf i = .pub ∨ portOf i = .take ∨ portOf i = .peek) →
      t.dec = s.dec ∧ t.esc = s.esc ∧ t.rxq = s.rxq ∧ t.cmdq = s.cmdq ∧ t.rspq = s.rspq ∧ t.cmdFail = s.cmdFail ∧
      t.trace = s.trace) ∧
    ((portOf i = .servo ∨ portOf i = .escFn) →
      t.dec = s.dec ∧ t.slots = s.slots ∧ t.esc = s.esc ∧ t.rxq = s.rxq ∧ t.cmdq = s.cmdq ∧ t.rspq = s.rspq ∧
      t.cmdFail = s.cmdFail ∧ t.trace = s.trace ∧ t.rets = s.rets)

/-- R210, R211, R264: the control loops, turn by turn. A loop reads its slot in its read mode: a TAKE gets the pending value or
waits, a PEEK hits or misses (a hit clears the flag only under U3's other reading, log entry 10), and with a frame value the
loop goes on to map it. The servo loop then issues the angle its mapping gives, if any, and reads again. The ESC loop begins
with INIT and goes on only on `ST_OK`; holding a frame value it turns to the command its mapping gives, or to its next reading
where there is none; a command is issued as exactly that SEND; it waits while the engine is busy; a SEND that ended in
`ST_FAULT` stops the loop for good, `ST_PROTOCOL` does not. The loops' phases, the stop on `ST_BADSTATE` and that a PEEK passes
while a TAKE is outstanding are the model's (log entries 3 and 15). -/
def Obligations.ControlLoopTurns : Prop :=
  ∀ (s : State) (r : List Act) (sl0 sl1 : Slot),
    s.slots[0]? = some sl0 → 0 < sl0.wait.length → s.slots[1]? = some sl1 → 0 < sl1.wait.length →
    (s.servoLoop = .get → s.params.readServo = .take →
      (sl0.full = true →
        step (s.scheduled .servoLoop r) = .next { s with
          sched := r, slots := s.slots.set 0 { sl0 with full := false, wait := sl0.wait.set 0 false },
          rets := s.rets ++ [.take 0 0 sl0.val], servoLoop := .have sl0.val }) ∧
      (sl0.full = false →
        step (s.scheduled .servoLoop r) = .next { s with
          sched := r, slots := s.slots.set 0 { sl0 with wait := sl0.wait.set 0 true } })) ∧
    (s.servoLoop = .get → s.params.readServo = .peek →
      (waiting sl0 0 = true → step (s.scheduled .servoLoop r) = .next { s with sched := r }) ∧
      (waiting sl0 0 = false → sl0.full = true →
        step (s.scheduled .servoLoop r) = .next { s with
          sched := r, slots := s.slots.set 0 { sl0 with full := !s.params.peekClears },
          rets := s.rets ++ [.peek 0 0 (some sl0.val)], servoLoop := .have sl0.val }) ∧
      (waiting sl0 0 = false → sl0.full = false →
        step (s.scheduled .servoLoop r) = .next { s with sched := r, rets := s.rets ++ [.peek 0 0 none] })) ∧
    (s.escLoop = .get → s.params.readEsc = .take →
      (sl1.full = true →
        step (s.scheduled .escLoop r) = .next { s with
          sched := r, slots := s.slots.set 1 { sl1 with full := false, wait := sl1.wait.set 0 false },
          rets := s.rets ++ [.take 1 0 sl1.val], escLoop := .have sl1.val }) ∧
      (sl1.full = false →
        step (s.scheduled .escLoop r) = .next { s with
          sched := r, slots := s.slots.set 1 { sl1 with wait := sl1.wait.set 0 true } })) ∧
    (s.escLoop = .get → s.params.readEsc = .peek →
      (waiting sl1 0 = true → step (s.scheduled .escLoop r) = .next { s with sched := r }) ∧
      (waiting sl1 0 = false → sl1.full = true →
        step (s.scheduled .escLoop r) = .next { s with
          sched := r, slots := s.slots.set 1 { sl1 with full := !s.params.peekClears },
          rets := s.rets ++ [.peek 1 0 (some sl1.val)], escLoop := .have sl1.val }) ∧
      (waiting sl1 0 = false → sl1.full = false →
        step (s.scheduled .escLoop r) = .next { s with sched := r, rets := s.rets ++ [.peek 1 0 none] })) ∧
    (∀ v, s.servoLoop = .have v →
      step (s.scheduled .servoLoop r) = .next { s with
        sched := r, servoLoop := .get,
        servoRes := servoMap s.params.servoK s.params.servoLo s.params.servoHi (unpack v),
        servoOut := s.servoOut ++ (servoMap s.params.servoK s.params.servoLo s.params.servoHi (unpack v)).toList }) ∧
    (∀ t, s.escLoop = .boot → busy s.esc = false →
      exec (.init s.params.pin s.params.rate s.params.wireMode) { s with sched := r } = .next t →
      step (s.scheduled .escLoop r) = .next { t with escLoop := .waitInit }) ∧
    (s.escLoop = .waitInit → busy s.esc = false →
      step (s.scheduled .escLoop r) = .next { s with
        sched := r, escLoop := if s.esc.rstatus = .ok then .get else .stopped }) ∧
    (∀ v, s.escLoop = .have v →
      step (s.scheduled .escLoop r) = .next { s with
        sched := r, escRes := escMap (unpack v),
        escLoop := match escMap (unpack v) with | some (thr, tel) => .issue thr tel | none => .get }) ∧
    (∀ thr tel t, s.escLoop = .issue thr tel → busy s.esc = false →
      exec (.send thr tel) { s with sched := r } = .next t →
      step (s.scheduled .escLoop r) = .next { t with escLoop := .waitSend }) ∧
    (s.escLoop = .waitSend → busy s.esc = false → s.esc.rstatus = .ok ∨ s.esc.rstatus = .protocol →
      step (s.scheduled .escLoop r) = .next { s with sched := r, escLoop := .get }) ∧
    (s.escLoop = .waitSend → busy s.esc = false → s.esc.rstatus = .fault ∨ s.esc.rstatus = .badState →
      step (s.scheduled .escLoop r) = .next { s with sched := r, escLoop := .stopped }) ∧
    (s.escLoop = .boot ∨ s.escLoop = .waitInit ∨ (∃ thr tel, s.escLoop = .issue thr tel) ∨ s.escLoop = .waitSend →
      busy s.esc = true → step (s.scheduled .escLoop r) = .next { s with sched := r }) ∧
    (s.escLoop = .stopped → step (s.scheduled .escLoop r) = .next { s with sched := r })
end

