-- ==== Sys2Proof/Laws/Operands.lean ====
section
/-! SUPPORT. The laws of the operand forms: byte order, channel lists, packing, and the byte lanes of a frame. -/

namespace Sys2Proof.Machine

/-- R9: the low byte of a joined pair. -/
@[simp] theorem lowByte_joinBytes (hi lo : Byte) : lowByte (joinBytes hi lo) = lo := by
  simp only [lowByte, joinBytes]
  ext i hi'
  simp only [BitVec.getElem_extractLsb', Nat.zero_add]
  exact BitVec.getLsbD_append.trans (by simp [hi'])

/-- R9: the high byte of a joined pair. -/
@[simp] theorem highByte_joinBytes (hi lo : Byte) : highByte (joinBytes hi lo) = hi := by
  simp only [highByte, joinBytes]
  ext i hi'
  simp only [BitVec.getElem_extractLsb']
  exact BitVec.getLsbD_append.trans (by simp [hi'])

/-- R9: a 16-bit value is its two bytes. -/
@[simp] theorem joinBytes_bytes (w : U16) : joinBytes (highByte w) (lowByte w) = w := by
  simp only [lowByte, highByte, joinBytes]
  ext i hi'
  simp only [BitVec.getElem_append, BitVec.getElem_extractLsb', Nat.zero_add]
  split
  · exact BitVec.getLsbD_eq_getElem hi'
  · rw [show 8 + (i - 8) = i by omega]
    exact BitVec.getLsbD_eq_getElem hi'

/-- R9: the number a pair of bytes is. -/
theorem joinBytes_toNat (hi lo : Byte) : (joinBytes hi lo).toNat = lo.toNat + 256 * hi.toNat := by
  have h := hi.isLt
  have l := lo.isLt
  rw [joinBytes, BitVec.toNat_append, Nat.shiftLeft_eq]
  rw [show hi.toNat * 2 ^ 8 = 2 ^ 8 * hi.toNat by ring, ← Nat.two_pow_add_eq_or_of_lt l]
  omega

/-- R67: two bytes for each channel. -/
@[simp] theorem chanBytes_length (ws : List U16) : (chanBytes ws).length = 2 * ws.length := by
  induction ws with
  | nil => rfl
  | cons w ws ih =>
    simp only [chanBytes, List.length_cons, ih]
    omega

/-- R67, R94: channels written as bytes are read back. -/
@[simp] theorem bytesChans_chanBytes (ws : List U16) : bytesChans (chanBytes ws) = ws := by
  induction ws with
  | nil => rfl
  | cons w ws ih => simp [chanBytes, bytesChans, ih]

/-- R67, R94: an even number of bytes, read as channels, is written back. -/
theorem chanBytes_bytesChans {n : Nat} {bs : List Byte} (h : bs.length = 2 * n) :
    chanBytes (bytesChans bs) = bs ∧ (bytesChans bs).length = n := by
  induction n generalizing bs with
  | zero => simp at h; simp [h, bytesChans, chanBytes]
  | succ n ih =>
    rcases bs with _ | ⟨lo, _ | ⟨hi, bs⟩⟩
    · simp at h
    · simp at h
      omega
    · obtain ⟨h1, h2⟩ := ih (bs := bs) (by simp at h; omega)
      simp [bytesChans, chanBytes, h1, h2]

/-- R94: channel `j` of the bytes. -/
theorem bytesChans_get {bs : List Byte} {j : Nat} (h : 2 * j + 1 < bs.length) :
    (bytesChans bs)[j]? = some (joinBytes (bs.getD (2 * j + 1) 0) (bs.getD (2 * j) 0)) := by
  induction j generalizing bs with
  | zero =>
    rcases bs with _ | ⟨lo, _ | ⟨hi, bs⟩⟩
    · simp at h
    · simp at h
    · simp [bytesChans]
  | succ j ih =>
    rcases bs with _ | ⟨lo, _ | ⟨hi, bs⟩⟩
    · simp at h
    · simp at h
    · simp only [List.length_cons] at h
      simp only [bytesChans, List.getElem?_cons_succ]
      rw [ih (by omega)]
      rfl

/-- R94: 28 bytes are a frame. -/
theorem frameOfBytes_of_length {bs : List Byte} (h : bs.length = 28) :
    ∃ f : ChannelFrame, frameOfBytes bs = some f ∧ chanBytes f.toList = bs ∧ f.toList = bytesChans bs := by
  obtain ⟨h1, h2⟩ := chanBytes_bytesChans (n := 14) h
  refine ⟨⟨⟨bytesChans bs⟩, h2⟩, ?_, h1, rfl⟩
  simp [frameOfBytes, Config.chdataBytes, h, frameOfList, h2]

/-- R94: a frame's bytes are that frame. -/
theorem frameOfBytes_chanBytes (f : ChannelFrame) : frameOfBytes (chanBytes f.toList) = some f := by
  have h : (chanBytes f.toList).length = 28 := by simp
  obtain ⟨g, h1, h2, h3⟩ := frameOfBytes_of_length h
  rw [bytesChans_chanBytes] at h3
  rw [h1, Vector.toList_inj.mp h3]

/-- R94: what a frame read from bytes says of them. -/
theorem frameOfBytes_some {bs : List Byte} {f : ChannelFrame} (h : frameOfBytes bs = some f) :
    bs.length = 28 ∧ chanBytes f.toList = bs := by
  have hl : bs.length = 28 := by
    unfold frameOfBytes at h
    split at h
    · assumption
    · cases h
  obtain ⟨g, h1, h2, -⟩ := frameOfBytes_of_length hl
  rw [h1] at h
  cases h
  exact ⟨hl, h2⟩

/-- R132: an odd payload index writes a low byte. -/
theorem laneWrite_odd (ch : ChannelFrame) {j : Nat} (h : j < 14) (b : Byte) :
    laneWrite ch (2 * j + 1) b = ch.set j (joinBytes (highByte ch[j]) b) := by
  simp [laneWrite, withLow, h]

/-- R132: an even payload index writes a high byte. -/
theorem laneWrite_even (ch : ChannelFrame) {j : Nat} (h : j < 14) (b : Byte) :
    laneWrite ch (2 * j + 2) b = ch.set j (joinBytes b (lowByte ch[j])) := by
  have e : (2 * j + 1) / 2 = j := by omega
  simp [laneWrite, withHigh, h, e]

/-- R132: index 0 and indexes from 29 on write no lane. -/
theorem laneWrite_none (ch : ChannelFrame) {p : Nat} (h : p = 0 ∨ 29 ≤ p) (b : Byte) : laneWrite ch p b = ch := by
  unfold laneWrite
  split
  · rfl
  · rw [dif_neg (by omega)]

/-- R132: the bytes of channels from channel `k` on, written to their lanes, are those channels. -/
theorem laneWrites_chanBytes (ws : List U16) (ch : ChannelFrame) (k : Nat) (h : k + ws.length ≤ 14) (j : Nat)
    (hj : j < 14) :
    (laneWrites ch (2 * k + 1) (chanBytes ws))[j] = if k ≤ j then (ws[j - k]?).getD ch[j] else ch[j] := by
  induction ws generalizing ch k with
  | nil => simp [chanBytes, laneWrites]
  | cons w ws ih =>
    have hk : k < 14 := by simp at h; omega
    have e : laneWrites ch (2 * k + 1) (chanBytes (w :: ws)) = laneWrites (ch.set k w) (2 * (k + 1) + 1) (chanBytes ws) := by
      simp only [chanBytes, laneWrites]
      rw [laneWrite_odd _ hk, laneWrite_even _ hk]
      simp [show 2 * k + 1 + 1 + 1 = 2 * (k + 1) + 1 by omega]
    simp only [e, ih _ _ (show k + 1 + ws.length ≤ 14 by simp at h; omega)]
    by_cases hjk : k = j
    · subst hjk
      simp
    · simp only [Vector.getElem_set, hjk, if_false]
      by_cases h1 : k + 1 ≤ j
      · have h2 : k ≤ j := by omega
        rw [if_pos h1, if_pos h2, show j - k = (j - (k + 1)) + 1 by omega]
        simp
      · have h2 : ¬ k ≤ j := by omega
        rw [if_neg h1, if_neg h2]

/-- R95, R132: the 28 data bytes of a frame, written to their lanes, leave that frame, whatever was there before. -/
theorem laneWrites_frame (ch V : ChannelFrame) : laneWrites ch 1 (chanBytes V.toList) = V := by
  apply Vector.ext
  intro j hj
  have := laneWrites_chanBytes V.toList ch 0 (by simp) j hj
  simpa [hj] using this

end Sys2Proof.Machine
end

