-- ==== Sys2Proof/Laws/Text.lean ====
section
/-! SUPPORT. The laws of the text functions: splitting at a space, decimal digits in both directions. -/

namespace Sys2Proof.Machine

/-- R110: the text before a space splits off. -/
theorem splitSpace_append {w : List Byte} (r : List Byte) (h : SP ∉ w) : splitSpace (w ++ SP :: r) = some (w, r) := by
  induction w with
  | nil => simp [splitSpace]
  | cons b bs ih =>
    have hb : b ≠ SP := fun e => h (by simp [e])
    simp [splitSpace, hb, ih fun hm => h (by simp [hm])]

/-- R110: what a split says of the text. -/
theorem splitSpace_some {ln w r : List Byte} (h : splitSpace ln = some (w, r)) : ln = w ++ SP :: r ∧ SP ∉ w := by
  induction ln generalizing w r with
  | nil => simp [splitSpace] at h
  | cons b bs ih =>
    unfold splitSpace at h
    split at h
    · rename_i hb
      obtain ⟨rfl, rfl⟩ := by simpa using h
      simp [hb]
    · rename_i hb
      split at h
      · rename_i w' r' hs
        obtain ⟨rfl, rfl⟩ := by simpa using h
        obtain ⟨rfl, hn⟩ := ih hs
        simp [hn, Ne.symm hb]
      · cases h

/-- The ASCII digit of a number below ten is a digit and carries that number. -/
theorem digit_spec {n : Nat} (h : n < 10) : isDigit (digit n) = true ∧ (digit n).toNat - 0x30 = n := by
  have : ∀ m : Fin 10, isDigit (digit m) = true ∧ (digit m).toNat - 0x30 = m := by decide
  exact this ⟨n, h⟩

/-- The digits of a number end in its last digit. -/
theorem decAux_acc (fuel n : Nat) (acc : List Byte) : decAux fuel n acc = decAux fuel n [] ++ acc := by
  induction fuel generalizing n acc with
  | zero => simp [decAux]
  | succ f ih =>
    unfold decAux
    split
    · simp
    · rw [ih, ih (n / 10) [digit (n % 10)]]
      simp

/-- Enough fuel gives the same digits. -/
theorem decAux_fuel {f g n : Nat} (hf : n < f) (hg : n < g) : decAux f n [] = decAux g n [] := by
  induction f generalizing g n with
  | zero => omega
  | succ f ih =>
    cases g with
    | zero => omega
    | succ g =>
      unfold decAux
      split
      · rfl
      · rw [decAux_acc f, decAux_acc g, ih (g := g) (by omega) (by omega)]

/-- R103: a number below ten is one digit. -/
theorem dec_small {n : Nat} (h : n < 10) : dec n = [digit n] := by
  simp [dec, decAux, h]

/-- R103: a larger number is the digits of its tenth and its last digit. -/
theorem dec_large {n : Nat} (h : 10 ≤ n) : dec n = dec (n / 10) ++ [digit (n % 10)] := by
  have hn : ¬ n < 10 := by omega
  simp only [dec]
  rw [show decAux (n + 1) n [] = decAux n (n / 10) [digit (n % 10)] by simp [decAux, hn], decAux_acc]
  rw [decAux_fuel (f := n) (g := n / 10 + 1) (by omega) (by omega)]

/-- R103: decimal text holds digits only. -/
theorem dec_digits (n : Nat) : (dec n).all isDigit = true := by
  induction n using Nat.strongRecOn with
  | _ n ih =>
    by_cases h : n < 10
    · simp [dec_small h, (digit_spec h).1]
    · rw [dec_large (by omega)]
      simp only [List.all_append, ih (n / 10) (by omega), List.all_cons, List.all_nil,
        (digit_spec (Nat.mod_lt n (by omega))).1, Bool.and_self]

/-- R105: a digit more multiplies the value by ten. -/
theorem decValue_snoc (s : List Byte) (b : Byte) : decValue (s ++ [b]) = 10 * decValue s + (b.toNat - 0x30) := by
  simp [decValue]

/-- R103, R105: decimal text has the value it was written from. -/
theorem decValue_dec (n : Nat) : decValue (dec n) = n := by
  induction n using Nat.strongRecOn with
  | _ n ih =>
    by_cases h : n < 10
    · simp [dec_small h, decValue, (digit_spec h).2]
    · rw [dec_large (by omega), decValue_snoc, ih (n / 10) (by omega), (digit_spec (Nat.mod_lt n (by omega))).2]
      omega

/-- R103: a number below `10 ^ k` has at most `k` digits, and at least one. -/
theorem dec_length {n k : Nat} (hk : 1 ≤ k) (h : n < 10 ^ k) : 1 ≤ (dec n).length ∧ (dec n).length ≤ k := by
  induction k generalizing n with
  | zero => omega
  | succ k ih =>
    by_cases hn : n < 10
    · simp [dec_small hn]
    · rw [dec_large (by omega)]
      have hk' : 1 ≤ k := by
        rcases k with _ | k
        · simp at h; omega
        · omega
      have := ih (n := n / 10) hk' (by rw [Nat.pow_succ] at h; omega)
      simp only [List.length_append, List.length_cons, List.length_nil]
      omega

/-- A digit is neither a space nor a line feed. -/
theorem isDigit_ne {b : Byte} (h : isDigit b = true) : b ≠ SP ∧ b ≠ LF := by
  constructor <;> rintro rfl <;> simp [isDigit, SP, LF] at h

/-- R103: decimal text holds no space and no line feed. -/
theorem dec_plain (n : Nat) : SP ∉ dec n ∧ LF ∉ dec n := by
  have h := dec_digits n
  rw [List.all_eq_true] at h
  exact ⟨fun hm => (isDigit_ne (h _ hm)).1 rfl, fun hm => (isDigit_ne (h _ hm)).2 rfl⟩

/-- R105: what a successful parse says of the text. -/
theorem parseDec_some {s : List Byte} {v : U32} (h : parseDec s = some v) :
    1 ≤ s.length ∧ s.length ≤ 10 ∧ s.all isDigit = true ∧ decValue s = v.toNat := by
  unfold parseDec at h
  split at h
  · rename_i hs
    obtain ⟨h1, h2, h3, h4⟩ := hs
    simp only [Option.some.injEq] at h
    subst h
    exact ⟨h1, h2, h3, by simp only [BitVec.toNat_ofNat]; exact (Nat.mod_eq_of_lt h4).symm⟩
  · cases h

/-- R105: an id field holds no space and no line feed. -/
theorem parseDec_plain {s : List Byte} {v : U32} (h : parseDec s = some v) : SP ∉ s ∧ LF ∉ s := by
  have h3 := (parseDec_some h).2.2.1
  rw [List.all_eq_true] at h3
  exact ⟨fun hm => (isDigit_ne (h3 _ hm)).1 rfl, fun hm => (isDigit_ne (h3 _ hm)).2 rfl⟩

/-- R100: the words of the three kinds hold no space and no line feed, and name their kind. -/
theorem kindText_plain (k : Kind) : SP ∉ kindText k ∧ LF ∉ kindText k ∧ kindOf (kindText k) = some k := by
  cases k <;> decide

/-- R100: only its word names a kind. -/
theorem kindOf_some {w : List Byte} {k : Kind} (h : kindOf w = some k) : w = kindText k := by
  unfold kindOf at h
  split at h
  · cases h; assumption
  · split at h
    · cases h; assumption
    · split at h
      · cases h; assumption
      · cases h

/-- R110: the response grammar, written as a text, parses to its fields. -/
theorem parseCommand_rspText {k : Kind} {idText payload : List Byte} {id : U32} (h : parseDec idText = some id) :
    parseCommand (rspText k idText payload) = some ⟨k, id, payload⟩ := by
  have e : rspText k idText payload = kindText k ++ SP :: (idText ++ SP :: payload) := by simp [rspText]
  rw [parseCommand, e, splitSpace_append _ (kindText_plain k).1]
  simp [(kindText_plain k).2.2, splitSpace_append payload (parseDec_plain h).1, h]

/-- R110: what a successful parse says of a line. -/
theorem parseCommand_some {ln : List Byte} {c : EscCommand} (h : parseCommand ln = some c) :
    ∃ idText, parseDec idText = some c.id ∧ ln = rspText c.kind idText c.payload := by
  unfold parseCommand at h
  split at h
  · cases h
  · rename_i w r h1
    split at h
    · cases h
    · rename_i k h2
      split at h
      · cases h
      · rename_i i pay h3
        split at h
        · cases h
        · rename_i id h4
          cases h
          obtain ⟨rfl, -⟩ := splitSpace_some h1
          obtain ⟨rfl, -⟩ := splitSpace_some h3
          exact ⟨i, h4, by simp [rspText, kindOf_some h2]⟩

end Sys2Proof.Machine
end

