-- ==== Sys2Proof/Laws/Decode.lean ====
section
/-! SUPPORT. The laws of the pieces that decoding and encoding are made of. -/

namespace Sys2Proof

open Machine

/-- R101: a line with its LF. -/
theorem lineOf_append {ln : List Byte} (h : noLf ln = true) : lineOf (ln ++ [LF]) = .ok ln := by
  simp [lineOf, h]

/-- R101: what a line read says of the bytes. -/
theorem lineOf_ok {bs ln : List Byte} (h : lineOf bs = .ok ln) : bs = ln ++ [LF] ∧ noLf ln = true := by
  unfold lineOf at h
  split at h
  · rename_i hl
    split at h
    · rename_i hn
      cases h
      exact ⟨(List.dropLast_append_getLast? _ hl).symm, hn⟩
    · cases h
  · cases h

/-- The operation port's throttle bytes are read back. -/
theorem thrOfBytes_thrBytes (thr : U11) :
    thrOfBytes (lowByte (thr.setWidth 16)) (highByte (thr.setWidth 16)) = thr := by
  simp only [thrOfBytes, joinBytes_bytes]
  ext i
  simp

/-- The bytes of a number, the first the least significant, are that number. -/
theorem bytesNat_extract (v : Value) (n k : Nat) :
    bytesNat ((List.range' k n).map fun i => v.extractLsb' (8 * i) 8) = v.toNat / 2 ^ (8 * k) % 2 ^ (8 * n) := by
  induction n generalizing k with
  | zero => simp [bytesNat, Nat.mod_one]
  | succ n ih =>
    rw [List.range'_succ, List.map_cons, bytesNat, ih]
    rw [BitVec.extractLsb'_toNat, Nat.shiftRight_eq_div_pow]
    rw [show 8 * (k + 1) = 8 * k + 8 by ring, Nat.pow_add, ← Nat.div_div_eq_div_mul]
    rw [show 8 * (n + 1) = 8 + 8 * n by ring, Nat.pow_add 2 8, Nat.mod_mul]

/-- R151: the 28 bytes of a value are read back. -/
theorem bytesNat_valueBytes (v : Value) : BitVec.ofNat 224 (bytesNat (valueBytes v)) = v := by
  have h := bytesNat_extract v 28 0
  simp only [valueBytes, List.range_eq_range', h]
  apply BitVec.eq_of_toNat_eq
  have := v.isLt
  simp only [BitVec.toNat_ofNat, Nat.mul_zero, Nat.pow_zero, Nat.div_one]
  omega

/-- R103: the text `dec` writes is canonical. -/
theorem canonical_dec {max n : Nat} (h : n ≤ max) (hm : max < 2 ^ 32) : canonical max (dec n) = some n := by
  have hl := dec_length (n := n) (k := 10) (by omega) (by omega)
  have hp : parseDec (dec n) = some (BitVec.ofNat 32 n) := by
    simp only [parseDec, decValue_dec, dec_digits, hl.1, hl.2, true_and]
    rw [if_pos (by omega)]
  have e : (BitVec.ofNat 32 n).toNat = n := by simp; omega
  simp only [canonical, hp, e, true_and]
  rw [if_pos h]

/-- R103: a canonical text is what `dec` writes. -/
theorem canonical_some {max n : Nat} {s : List Byte} (h : canonical max s = some n) : s = dec n ∧ n ≤ max := by
  unfold canonical at h
  split at h
  · split at h
    · rename_i hc
      simp only [Option.some.injEq] at h
      subst h
      exact ⟨hc.1.symm, hc.2⟩
    · cases h
  · cases h

/-- R104: a boolean's word is read back. -/
theorem boolOf_boolStr (b : Bool) : boolOf (boolStr b) = some b := by cases b <;> decide

/-- R104: only its word names a boolean. -/
theorem boolOf_some {w : List Byte} {b : Bool} (h : boolOf w = some b) : w = boolStr b := by
  unfold boolOf at h
  split at h
  · cases h; assumption
  · split at h
    · cases h; assumption
    · cases h

/-- R6, R107: a key's speed names the key. -/
theorem rateOfSpeed_speedOf (r : Rate) : rateOfSpeed (speedOf r).toNat = some r := by cases r <;> decide

/-- R6, R107: only its speed names a key. -/
theorem rateOfSpeed_some {v : Nat} {r : Rate} (h : rateOfSpeed v = some r) : v = (speedOf r).toNat := by
  unfold rateOfSpeed at h
  repeat' (split at h; · cases h; assumption)
  cases h

/-- A form's exact length. -/
theorem exactly_ok {n : Nat} {bs : List Byte} : exactly n bs = .ok () ↔ bs.length = n := by
  unfold exactly
  split
  · simp; omega
  · split <;> simp [*]

/-- R91, R96: a whole frame of two bytes or more. -/
theorem decodeSerial_two {len hdr : Byte} {rest : List Byte} (h : 2 ≤ len.toNat) (hr : rest.length = len.toNat - 2) :
    decodeSerial (len :: hdr :: rest) =
      if hdr = Config.hdrChdata then
        if len = Config.lenChdata then
          match frameOfBytes rest with
          | some f => .ok (.sframeChdata f)
          | none => .error .truncated
        else .ok (.sframeBadlen len rest)
      else .ok (.sframeOther len hdr rest) := by
  have h0 : ¬ len = 0 := by rintro rfl; simp at h
  have h1 : ¬ len = 1 := by rintro rfl; simp at h
  have he : exactly (frameLength len) (len :: hdr :: rest) = .ok () := by
    rw [exactly_ok, frameLength, if_neg h0]
    simp only [List.length_cons]
    omega
  unfold decodeSerial
  dsimp only
  rw [he]
  simp only [h0, h1, if_false] <;> rfl

/-- R91, R96: what a frame read says of its bytes. -/
theorem decodeSerial_ok {bs : List Byte} {i : Instr} (h : decodeSerial bs = .ok i) :
    (bs = [0] ∧ i = .sframeZerolen) ∨ (bs = [1] ∧ i = .sframeEmpty) ∨
    ∃ len hdr rest, bs = len :: hdr :: rest ∧ 2 ≤ len.toNat ∧ rest.length = len.toNat - 2 := by
  rcases bs with _ | ⟨len, bs⟩
  · cases h
  · unfold decodeSerial at h
    dsimp only at h
    split at h
    · cases h
    · rename_i he
      rw [exactly_ok, frameLength] at he
      by_cases h0 : len = 0
      · rw [if_pos h0] at h he
        cases h
        simp at he
        simp [he, h0]
      · rw [if_neg h0] at h he
        by_cases h1 : len = 1
        · rw [if_pos h1] at h
          cases h
          subst h1
          simp at he
          simp [he]
        · rw [if_neg h1] at h
          rcases bs with _ | ⟨hdr, rest⟩
          · cases h
          · have h2 : len.toNat ≠ 0 := fun e => h0 (BitVec.eq_of_toNat_eq e)
            have h3 : len.toNat ≠ 1 := fun e => h1 (BitVec.eq_of_toNat_eq e)
            simp only [List.length_cons] at he
            exact .inr (.inr ⟨len, hdr, rest, rfl, by omega, by omega⟩)

/-- R107: the operands of an `ADD` line are read back. -/
theorem decodeAdd_dec (pin : Byte) (r : Rate) :
    decodeAdd (dec pin.toNat ++ SP :: dec (speedOf r).toNat) = .ok (.tlineAdd pin r) := by
  have h1 := pin.isLt
  have h2 : (speedOf r).toNat ≤ 65535 := by cases r <;> decide
  simp only [decodeAdd, splitSpace_append _ (dec_plain _).1,
    canonical_dec (show pin.toNat ≤ 255 by omega) (by omega), canonical_dec h2 (by omega), rateOfSpeed_speedOf]
  simp

/-- R107: what an `ADD` line's operands say of its bytes. -/
theorem decodeAdd_ok {r : List Byte} {i : Instr} (h : decodeAdd r = .ok i) :
    ∃ pin rate, i = .tlineAdd pin rate ∧ r = dec pin.toNat ++ SP :: dec (speedOf rate).toNat := by
  unfold decodeAdd at h
  split at h
  · cases h
  · rename_i p v hs
    obtain ⟨rfl, -⟩ := splitSpace_some hs
    split at h
    · rename_i pin speed hp hv
      split at h
      · rename_i rate hr
        cases h
        obtain ⟨rfl, hle⟩ := canonical_some hp
        obtain ⟨rfl, -⟩ := canonical_some hv
        refine ⟨_, _, rfl, ?_⟩
        rw [rateOfSpeed_some hr]
        simp [Nat.mod_eq_of_lt (show pin < 256 by omega)]
      · cases h
    · cases h

/-- R108: the operands of a `THROTTLE` line are read back. -/
theorem decodeThrottle_dec (id : U32) (thr : U11) (tel : Bool) :
    decodeThrottle (dec id.toNat ++ SP :: (dec thr.toNat ++ SP :: boolStr tel)) = .ok (.tlineThrottle id thr tel) := by
  have h1 := id.isLt
  have h2 := thr.isLt
  simp only [decodeThrottle, splitSpace_append _ (dec_plain _).1,
    canonical_dec (show id.toNat ≤ 4294967295 by omega) (by omega),
    canonical_dec (show thr.toNat ≤ 2047 by omega) (by omega), boolOf_boolStr]
  simp

/-- R108: what a `THROTTLE` line's operands say of its bytes. -/
theorem decodeThrottle_ok {r : List Byte} {i : Instr} (h : decodeThrottle r = .ok i) :
    ∃ id thr tel, i = .tlineThrottle id thr tel ∧
      r = dec id.toNat ++ SP :: (dec thr.toNat ++ SP :: boolStr tel) := by
  unfold decodeThrottle at h
  split at h
  · cases h
  · rename_i i1 r1 hs
    obtain ⟨rfl, -⟩ := splitSpace_some hs
    split at h
    · cases h
    · rename_i t b hs2
      obtain ⟨rfl, -⟩ := splitSpace_some hs2
      split at h
      · rename_i id thr tel h1 h2 h3
        cases h
        obtain ⟨rfl, hi⟩ := canonical_some h1
        obtain ⟨rfl, ht⟩ := canonical_some h2
        refine ⟨_, _, _, rfl, ?_⟩
        rw [boolOf_some h3]
        simp [Nat.mod_eq_of_lt (show id < 4294967296 by omega), Nat.mod_eq_of_lt (show thr < 2048 by omega)]
      · cases h

/-- R110: a response line of kind `k` is of the class of that kind, with its fields. -/
theorem classifyRsp_rspText {k : Kind} {i p : List Byte} (h : wfResponse k i p = true) :
    classifyRsp (rspText k i p) =
      match k with
      | .throttle => .rspThrottle i p
      | .ok => .rspOk i p
      | .err => .rspErr i p := by
  simp only [wfResponse, Bool.and_eq_true] at h
  obtain ⟨⟨h1, -⟩, h3⟩ := h
  obtain ⟨id, hid⟩ := Option.isSome_iff_exists.mp h1
  have e : rspText k i p = kindText k ++ SP :: (i ++ SP :: p) := by simp [rspText]
  have hs : splitSpace (rspText k i p) = some (kindText k, i ++ SP :: p) := by
    rw [e, splitSpace_append _ (kindText_plain k).1]
  simp only [classifyRsp, h3, parseCommand_rspText hid, Option.isSome_some, Bool.and_self, if_true, hs,
    splitSpace_append p (parseDec_plain hid).1, (kindText_plain k).2.2]
  cases k <;> rfl

/-- R110: a line that does not parse, or that the line buffer does not hold, is of the class RSP.INVALID. -/
theorem classifyRsp_invalid {ln : List Byte} (h : fits ln = false ∨ parseCommand ln = none) :
    classifyRsp ln = .rspInvalid ln := by
  unfold classifyRsp
  rw [if_neg]
  rcases h with h | h <;> simp [h]

/-- R110: a line that parses and fits is one of the three kinds. -/
theorem classifyRsp_valid {ln : List Byte} {c : EscCommand} (hf : fits ln = true) (h : parseCommand ln = some c) :
    ∃ i, parseDec i = some c.id ∧ ln = rspText c.kind i c.payload ∧
      classifyRsp ln =
        match c.kind with
        | .throttle => .rspThrottle i c.payload
        | .ok => .rspOk i c.payload
        | .err => .rspErr i c.payload := by
  obtain ⟨i, hi, rfl⟩ := parseCommand_some h
  refine ⟨i, hi, rfl, ?_⟩
  have e : rspText c.kind i c.payload = kindText c.kind ++ SP :: (i ++ SP :: c.payload) := by simp [rspText]
  have hs : splitSpace (rspText c.kind i c.payload) = some (kindText c.kind, i ++ SP :: c.payload) := by
    rw [e, splitSpace_append _ (kindText_plain c.kind).1]
  simp only [classifyRsp, hf, h, Option.isSome_some, Bool.and_self, if_true, hs,
    splitSpace_append c.payload (parseDec_plain hi).1, (kindText_plain c.kind).2.2]
  cases c.kind <;> rfl

end Sys2Proof
end

