-- ==== Sys2Proof/Laws/State.lean ====
section
/-! SUPPORT. The small lemmas of the state updates: for each shared operation, what each field of State holds after it. -/

namespace Sys2Proof.Machine

/-! ### emit -/

@[simp] theorem emit_dec (e : Event) (s : State) : (emit e s).dec = s.dec := rfl
@[simp] theorem emit_slots (e : Event) (s : State) : (emit e s).slots = s.slots := rfl
@[simp] theorem emit_esc (e : Event) (s : State) : (emit e s).esc = s.esc := rfl
@[simp] theorem emit_rxq (e : Event) (s : State) : (emit e s).rxq = s.rxq := rfl
@[simp] theorem emit_cmdq (e : Event) (s : State) : (emit e s).cmdq = s.cmdq := rfl
@[simp] theorem emit_rspq (e : Event) (s : State) : (emit e s).rspq = s.rspq := rfl
@[simp] theorem emit_cmdFail (e : Event) (s : State) : (emit e s).cmdFail = s.cmdFail := rfl
@[simp] theorem emit_trace (e : Event) (s : State) : (emit e s).trace = s.trace ++ [e] := rfl
@[simp] theorem emit_rets (e : Event) (s : State) : (emit e s).rets = s.rets := rfl
@[simp] theorem emit_cmdRead (e : Event) (s : State) : (emit e s).cmdRead = s.cmdRead := rfl
@[simp] theorem emit_servoRes (e : Event) (s : State) : (emit e s).servoRes = s.servoRes := rfl
@[simp] theorem emit_escRes (e : Event) (s : State) : (emit e s).escRes = s.escRes := rfl
@[simp] theorem emit_servoOut (e : Event) (s : State) : (emit e s).servoOut = s.servoOut := rfl
@[simp] theorem emit_servoLoop (e : Event) (s : State) : (emit e s).servoLoop = s.servoLoop := rfl
@[simp] theorem emit_escLoop (e : Event) (s : State) : (emit e s).escLoop = s.escLoop := rfl
@[simp] theorem emit_params (e : Event) (s : State) : (emit e s).params = s.params := rfl
@[simp] theorem emit_sched (e : Event) (s : State) : (emit e s).sched = s.sched := rfl

/-! ### answer -/

@[simp] theorem answer_dec (r : Ret) (s : State) : (answer r s).dec = s.dec := rfl
@[simp] theorem answer_slots (r : Ret) (s : State) : (answer r s).slots = s.slots := rfl
@[simp] theorem answer_esc (r : Ret) (s : State) : (answer r s).esc = s.esc := rfl
@[simp] theorem answer_rxq (r : Ret) (s : State) : (answer r s).rxq = s.rxq := rfl
@[simp] theorem answer_cmdq (r : Ret) (s : State) : (answer r s).cmdq = s.cmdq := rfl
@[simp] theorem answer_rspq (r : Ret) (s : State) : (answer r s).rspq = s.rspq := rfl
@[simp] theorem answer_cmdFail (r : Ret) (s : State) : (answer r s).cmdFail = s.cmdFail := rfl
@[simp] theorem answer_trace (r : Ret) (s : State) : (answer r s).trace = s.trace := rfl
@[simp] theorem answer_rets (r : Ret) (s : State) : (answer r s).rets = s.rets ++ [r] := rfl
@[simp] theorem answer_cmdRead (r : Ret) (s : State) : (answer r s).cmdRead = s.cmdRead := rfl
@[simp] theorem answer_servoRes (r : Ret) (s : State) : (answer r s).servoRes = s.servoRes := rfl
@[simp] theorem answer_escRes (r : Ret) (s : State) : (answer r s).escRes = s.escRes := rfl
@[simp] theorem answer_servoOut (r : Ret) (s : State) : (answer r s).servoOut = s.servoOut := rfl
@[simp] theorem answer_servoLoop (r : Ret) (s : State) : (answer r s).servoLoop = s.servoLoop := rfl
@[simp] theorem answer_escLoop (r : Ret) (s : State) : (answer r s).escLoop = s.escLoop := rfl
@[simp] theorem answer_params (r : Ret) (s : State) : (answer r s).params = s.params := rfl
@[simp] theorem answer_sched (r : Ret) (s : State) : (answer r s).sched = s.sched := rfl

/-! ### escStop -/

@[simp] theorem escStop_dec (c : Cause) (s : State) : (escStop c s).dec = s.dec := rfl
@[simp] theorem escStop_slots (c : Cause) (s : State) : (escStop c s).slots = s.slots := rfl
@[simp] theorem escStop_esc (c : Cause) (s : State) : (escStop c s).esc = { s.esc with estate := .fault, ecause := c } := rfl
@[simp] theorem escStop_rxq (c : Cause) (s : State) : (escStop c s).rxq = s.rxq := rfl
@[simp] theorem escStop_cmdq (c : Cause) (s : State) : (escStop c s).cmdq = s.cmdq := rfl
@[simp] theorem escStop_rspq (c : Cause) (s : State) : (escStop c s).rspq = s.rspq := rfl
@[simp] theorem escStop_cmdFail (c : Cause) (s : State) : (escStop c s).cmdFail = s.cmdFail := rfl
@[simp] theorem escStop_trace (c : Cause) (s : State) : (escStop c s).trace = s.trace ++ [.escFault c] := rfl
@[simp] theorem escStop_rets (c : Cause) (s : State) : (escStop c s).rets = s.rets := rfl
@[simp] theorem escStop_cmdRead (c : Cause) (s : State) : (escStop c s).cmdRead = s.cmdRead := rfl
@[simp] theorem escStop_servoRes (c : Cause) (s : State) : (escStop c s).servoRes = s.servoRes := rfl
@[simp] theorem escStop_escRes (c : Cause) (s : State) : (escStop c s).escRes = s.escRes := rfl
@[simp] theorem escStop_servoOut (c : Cause) (s : State) : (escStop c s).servoOut = s.servoOut := rfl
@[simp] theorem escStop_servoLoop (c : Cause) (s : State) : (escStop c s).servoLoop = s.servoLoop := rfl
@[simp] theorem escStop_escLoop (c : Cause) (s : State) : (escStop c s).escLoop = s.escLoop := rfl
@[simp] theorem escStop_params (c : Cause) (s : State) : (escStop c s).params = s.params := rfl
@[simp] theorem escStop_sched (c : Cause) (s : State) : (escStop c s).sched = s.sched := rfl

/-! ### dropLine -/

@[simp] theorem dropLine_dec (s : State) : (dropLine s).dec = s.dec := rfl
@[simp] theorem dropLine_slots (s : State) : (dropLine s).slots = s.slots := rfl
@[simp] theorem dropLine_esc (s : State) : (dropLine s).esc = { s.esc with llen := 0, lovf := false } := rfl
@[simp] theorem dropLine_rxq (s : State) : (dropLine s).rxq = s.rxq := rfl
@[simp] theorem dropLine_cmdq (s : State) : (dropLine s).cmdq = s.cmdq := rfl
@[simp] theorem dropLine_rspq (s : State) : (dropLine s).rspq = s.rspq := rfl
@[simp] theorem dropLine_cmdFail (s : State) : (dropLine s).cmdFail = s.cmdFail := rfl
@[simp] theorem dropLine_trace (s : State) : (dropLine s).trace = s.trace := rfl
@[simp] theorem dropLine_rets (s : State) : (dropLine s).rets = s.rets := rfl
@[simp] theorem dropLine_cmdRead (s : State) : (dropLine s).cmdRead = s.cmdRead := rfl
@[simp] theorem dropLine_servoRes (s : State) : (dropLine s).servoRes = s.servoRes := rfl
@[simp] theorem dropLine_escRes (s : State) : (dropLine s).escRes = s.escRes := rfl
@[simp] theorem dropLine_servoOut (s : State) : (dropLine s).servoOut = s.servoOut := rfl
@[simp] theorem dropLine_servoLoop (s : State) : (dropLine s).servoLoop = s.servoLoop := rfl
@[simp] theorem dropLine_escLoop (s : State) : (dropLine s).escLoop = s.escLoop := rfl
@[simp] theorem dropLine_params (s : State) : (dropLine s).params = s.params := rfl
@[simp] theorem dropLine_sched (s : State) : (dropLine s).sched = s.sched := rfl

/-! ### completeInit -/

@[simp] theorem completeInit_dec (v : U32) (s : State) : (completeInit v s).dec = s.dec := rfl
@[simp] theorem completeInit_slots (v : U32) (s : State) : (completeInit v s).slots = s.slots := rfl
@[simp] theorem completeInit_esc (v : U32) (s : State) : (completeInit v s).esc = { s.esc with rstatus := .ok, rid := v } := rfl
@[simp] theorem completeInit_rxq (v : U32) (s : State) : (completeInit v s).rxq = s.rxq := rfl
@[simp] theorem completeInit_cmdq (v : U32) (s : State) : (completeInit v s).cmdq = s.cmdq := rfl
@[simp] theorem completeInit_rspq (v : U32) (s : State) : (completeInit v s).rspq = s.rspq := rfl
@[simp] theorem completeInit_cmdFail (v : U32) (s : State) : (completeInit v s).cmdFail = s.cmdFail := rfl
@[simp] theorem completeInit_trace (v : U32) (s : State) : (completeInit v s).trace = s.trace := rfl
@[simp] theorem completeInit_rets (v : U32) (s : State) : (completeInit v s).rets = s.rets ++ [.init .ok (some v)] := rfl
@[simp] theorem completeInit_cmdRead (v : U32) (s : State) : (completeInit v s).cmdRead = s.cmdRead := rfl
@[simp] theorem completeInit_servoRes (v : U32) (s : State) : (completeInit v s).servoRes = s.servoRes := rfl
@[simp] theorem completeInit_escRes (v : U32) (s : State) : (completeInit v s).escRes = s.escRes := rfl
@[simp] theorem completeInit_servoOut (v : U32) (s : State) : (completeInit v s).servoOut = s.servoOut := rfl
@[simp] theorem completeInit_servoLoop (v : U32) (s : State) : (completeInit v s).servoLoop = s.servoLoop := rfl
@[simp] theorem completeInit_escLoop (v : U32) (s : State) : (completeInit v s).escLoop = s.escLoop := rfl
@[simp] theorem completeInit_params (v : U32) (s : State) : (completeInit v s).params = s.params := rfl
@[simp] theorem completeInit_sched (v : U32) (s : State) : (completeInit v s).sched = s.sched := rfl

/-! ### completeCommand -/

@[simp] theorem completeCommand_dec (c : EscCommand) (s : State) : (completeCommand c s).dec = s.dec := rfl
@[simp] theorem completeCommand_slots (c : EscCommand) (s : State) : (completeCommand c s).slots = s.slots := rfl
@[simp] theorem completeCommand_esc (c : EscCommand) (s : State) : (completeCommand c s).esc = { s.esc with
      rstatus := .ok, rkind := c.kind, rid := c.id, rplen := c.payload.length,
      rpay := overlay c.payload s.esc.rpay } := rfl
@[simp] theorem completeCommand_rxq (c : EscCommand) (s : State) : (completeCommand c s).rxq = s.rxq := rfl
@[simp] theorem completeCommand_cmdq (c : EscCommand) (s : State) : (completeCommand c s).cmdq = s.cmdq := rfl
@[simp] theorem completeCommand_rspq (c : EscCommand) (s : State) : (completeCommand c s).rspq = s.rspq := rfl
@[simp] theorem completeCommand_cmdFail (c : EscCommand) (s : State) : (completeCommand c s).cmdFail = s.cmdFail := rfl
@[simp] theorem completeCommand_trace (c : EscCommand) (s : State) : (completeCommand c s).trace = s.trace := rfl
@[simp] theorem completeCommand_rets (c : EscCommand) (s : State) : (completeCommand c s).rets = s.rets ++ [.send .ok (some c)] := rfl
@[simp] theorem completeCommand_cmdRead (c : EscCommand) (s : State) : (completeCommand c s).cmdRead = s.cmdRead := rfl
@[simp] theorem completeCommand_servoRes (c : EscCommand) (s : State) : (completeCommand c s).servoRes = s.servoRes := rfl
@[simp] theorem completeCommand_escRes (c : EscCommand) (s : State) : (completeCommand c s).escRes = s.escRes := rfl
@[simp] theorem completeCommand_servoOut (c : EscCommand) (s : State) : (completeCommand c s).servoOut = s.servoOut := rfl
@[simp] theorem completeCommand_servoLoop (c : EscCommand) (s : State) : (completeCommand c s).servoLoop = s.servoLoop := rfl
@[simp] theorem completeCommand_escLoop (c : EscCommand) (s : State) : (completeCommand c s).escLoop = s.escLoop := rfl
@[simp] theorem completeCommand_params (c : EscCommand) (s : State) : (completeCommand c s).params = s.params := rfl
@[simp] theorem completeCommand_sched (c : EscCommand) (s : State) : (completeCommand c s).sched = s.sched := rfl

/-! ### slotPublish -/

@[simp] theorem slotPublish_dec (k : Nat) (v : Value) (s : State) : (slotPublish k v s).dec = s.dec := rfl
@[simp] theorem slotPublish_slots (k : Nat) (v : Value) (s : State) : (slotPublish k v s).slots = s.slots.modify k fun sl => { sl with val := v, full := true } := rfl
@[simp] theorem slotPublish_esc (k : Nat) (v : Value) (s : State) : (slotPublish k v s).esc = s.esc := rfl
@[simp] theorem slotPublish_rxq (k : Nat) (v : Value) (s : State) : (slotPublish k v s).rxq = s.rxq := rfl
@[simp] theorem slotPublish_cmdq (k : Nat) (v : Value) (s : State) : (slotPublish k v s).cmdq = s.cmdq := rfl
@[simp] theorem slotPublish_rspq (k : Nat) (v : Value) (s : State) : (slotPublish k v s).rspq = s.rspq := rfl
@[simp] theorem slotPublish_cmdFail (k : Nat) (v : Value) (s : State) : (slotPublish k v s).cmdFail = s.cmdFail := rfl
@[simp] theorem slotPublish_trace (k : Nat) (v : Value) (s : State) : (slotPublish k v s).trace = s.trace := rfl
@[simp] theorem slotPublish_rets (k : Nat) (v : Value) (s : State) : (slotPublish k v s).rets = s.rets := rfl
@[simp] theorem slotPublish_cmdRead (k : Nat) (v : Value) (s : State) : (slotPublish k v s).cmdRead = s.cmdRead := rfl
@[simp] theorem slotPublish_servoRes (k : Nat) (v : Value) (s : State) : (slotPublish k v s).servoRes = s.servoRes := rfl
@[simp] theorem slotPublish_escRes (k : Nat) (v : Value) (s : State) : (slotPublish k v s).escRes = s.escRes := rfl
@[simp] theorem slotPublish_servoOut (k : Nat) (v : Value) (s : State) : (slotPublish k v s).servoOut = s.servoOut := rfl
@[simp] theorem slotPublish_servoLoop (k : Nat) (v : Value) (s : State) : (slotPublish k v s).servoLoop = s.servoLoop := rfl
@[simp] theorem slotPublish_escLoop (k : Nat) (v : Value) (s : State) : (slotPublish k v s).escLoop = s.escLoop := rfl
@[simp] theorem slotPublish_params (k : Nat) (v : Value) (s : State) : (slotPublish k v s).params = s.params := rfl
@[simp] theorem slotPublish_sched (k : Nat) (v : Value) (s : State) : (slotPublish k v s).sched = s.sched := rfl

/-! ### completeStatus -/

@[simp] theorem completeStatus_dec (op : Op) (st : Status) (s : State) :
    (completeStatus op st s).dec = s.dec := by cases op <;> rfl
@[simp] theorem completeStatus_slots (op : Op) (st : Status) (s : State) :
    (completeStatus op st s).slots = s.slots := by cases op <;> rfl
@[simp] theorem completeStatus_esc (op : Op) (st : Status) (s : State) :
    (completeStatus op st s).esc = { s.esc with rstatus := st } := by cases op <;> rfl
@[simp] theorem completeStatus_rxq (op : Op) (st : Status) (s : State) :
    (completeStatus op st s).rxq = s.rxq := by cases op <;> rfl
@[simp] theorem completeStatus_cmdq (op : Op) (st : Status) (s : State) :
    (completeStatus op st s).cmdq = s.cmdq := by cases op <;> rfl
@[simp] theorem completeStatus_rspq (op : Op) (st : Status) (s : State) :
    (completeStatus op st s).rspq = s.rspq := by cases op <;> rfl
@[simp] theorem completeStatus_cmdFail (op : Op) (st : Status) (s : State) :
    (completeStatus op st s).cmdFail = s.cmdFail := by cases op <;> rfl
@[simp] theorem completeStatus_trace (op : Op) (st : Status) (s : State) :
    (completeStatus op st s).trace = s.trace := by cases op <;> rfl
theorem completeStatus_rets (op : Op) (st : Status) (s : State) :
    (completeStatus op st s).rets =
      s.rets ++ [match op with | .init => .init st none | .send => .send st none] := by cases op <;> rfl
@[simp] theorem completeStatus_cmdRead (op : Op) (st : Status) (s : State) :
    (completeStatus op st s).cmdRead = s.cmdRead := by cases op <;> rfl
@[simp] theorem completeStatus_servoRes (op : Op) (st : Status) (s : State) :
    (completeStatus op st s).servoRes = s.servoRes := by cases op <;> rfl
@[simp] theorem completeStatus_escRes (op : Op) (st : Status) (s : State) :
    (completeStatus op st s).escRes = s.escRes := by cases op <;> rfl
@[simp] theorem completeStatus_servoOut (op : Op) (st : Status) (s : State) :
    (completeStatus op st s).servoOut = s.servoOut := by cases op <;> rfl
@[simp] theorem completeStatus_servoLoop (op : Op) (st : Status) (s : State) :
    (completeStatus op st s).servoLoop = s.servoLoop := by cases op <;> rfl
@[simp] theorem completeStatus_escLoop (op : Op) (st : Status) (s : State) :
    (completeStatus op st s).escLoop = s.escLoop := by cases op <;> rfl
@[simp] theorem completeStatus_params (op : Op) (st : Status) (s : State) :
    (completeStatus op st s).params = s.params := by cases op <;> rfl
@[simp] theorem completeStatus_sched (op : Op) (st : Status) (s : State) :
    (completeStatus op st s).sched = s.sched := by cases op <;> rfl

/-! ### raise: what no error class touches -/

@[simp] theorem raise_slots (e : ErrorSite) (s : State) : (raise e s).slots = s.slots := by cases e <;> simp [raise]
@[simp] theorem raise_rxq (e : ErrorSite) (s : State) : (raise e s).rxq = s.rxq := by cases e <;> simp [raise]
@[simp] theorem raise_cmdq (e : ErrorSite) (s : State) : (raise e s).cmdq = s.cmdq := by cases e <;> simp [raise]
@[simp] theorem raise_rspq (e : ErrorSite) (s : State) : (raise e s).rspq = s.rspq := by cases e <;> simp [raise]
@[simp] theorem raise_cmdFail (e : ErrorSite) (s : State) : (raise e s).cmdFail = s.cmdFail := by cases e <;> simp [raise]
@[simp] theorem raise_cmdRead (e : ErrorSite) (s : State) : (raise e s).cmdRead = s.cmdRead := by cases e <;> simp [raise]
@[simp] theorem raise_servoRes (e : ErrorSite) (s : State) : (raise e s).servoRes = s.servoRes := by cases e <;> simp [raise]
@[simp] theorem raise_escRes (e : ErrorSite) (s : State) : (raise e s).escRes = s.escRes := by cases e <;> simp [raise]
@[simp] theorem raise_servoOut (e : ErrorSite) (s : State) : (raise e s).servoOut = s.servoOut := by cases e <;> simp [raise]
@[simp] theorem raise_servoLoop (e : ErrorSite) (s : State) : (raise e s).servoLoop = s.servoLoop := by cases e <;> simp [raise]
@[simp] theorem raise_escLoop (e : ErrorSite) (s : State) : (raise e s).escLoop = s.escLoop := by cases e <;> simp [raise]
@[simp] theorem raise_params (e : ErrorSite) (s : State) : (raise e s).params = s.params := by cases e <;> simp [raise]
@[simp] theorem raise_sched (e : ErrorSite) (s : State) : (raise e s).sched = s.sched := by cases e <;> simp [raise]

end Sys2Proof.Machine
end

