-- ==== Sys2Proof/Laws/Ops.lean ====
section
/-! SUPPORT. One lemma for each shared operation, saying once everything it can do: the write to the command stream, the
slot operations, and the operations at a slot or a port. -/

namespace Sys2Proof.Machine

/-- R62: a write that succeeds appends all its bytes and uses up the environment's choice. -/
theorem txWrite_ok {bs : List Byte} {s : State} (h : writeFails bs.length s = none) :
    txWrite bs s = (true, { s with cmdq := s.cmdq ++ bs, cmdFail := s.cmdFail.tail }) := by
  rcases s with ⟨_, _, _, _, _, _, cf, _, _, _, _, _, _, _, _, _, _⟩
  rcases cf with _ | ⟨_ | k, r⟩
  · rfl
  · rfl
  · by_cases hk : k < bs.length
    · simp [writeFails, hk] at h
    · simp [txWrite, hk]

/-- R62: a write that fails appends its first `k` bytes. -/
theorem txWrite_fails {bs : List Byte} {s : State} {k : Nat} (h : writeFails bs.length s = some k) :
    txWrite bs s = (false, { s with cmdq := s.cmdq ++ bs.take k, cmdFail := s.cmdFail.tail }) := by
  rcases s with ⟨_, _, _, _, _, _, cf, _, _, _, _, _, _, _, _, _, _⟩
  rcases cf with _ | ⟨_ | j, r⟩
  · simp [writeFails] at h
  · simp [writeFails] at h
  · by_cases hj : j < bs.length
    · simp [writeFails, hj] at h
      subst h
      simp [txWrite, hj]
    · simp [writeFails, hj] at h

/-- R62: a write does one of these two things. -/
theorem txWrite_cases (bs : List Byte) (s : State) :
    txWrite bs s = (true, { s with cmdq := s.cmdq ++ bs, cmdFail := s.cmdFail.tail }) ∨
    ∃ k, k < bs.length ∧
      txWrite bs s = (false, { s with cmdq := s.cmdq ++ bs.take k, cmdFail := s.cmdFail.tail }) := by
  rcases s with ⟨_, _, _, _, _, _, cf, _, _, _, _, _, _, _, _, _, _⟩
  rcases cf with _ | ⟨_ | k, r⟩
  · exact .inl rfl
  · exact .inl rfl
  · by_cases hk : k < bs.length
    · exact .inr ⟨k, hk, by simp [txWrite, hk]⟩
    · exact .inl (by simp [txWrite, hk])

/-- R152: a TAKE on a pending value. -/
theorem slotTake_full {s : State} {k c : Nat} {sl : Slot} (h : s.slots[k]? = some sl) (hf : sl.full = true) :
    slotTake k c s = (some sl.val, { s with
      slots := s.slots.set k { sl with full := false, wait := sl.wait.set c false },
      rets := s.rets ++ [.take k c sl.val] }) := by
  simp [slotTake, h, hf, answer]

/-- R153: a TAKE without one. -/
theorem slotTake_empty {s : State} {k c : Nat} {sl : Slot} (h : s.slots[k]? = some sl) (hf : sl.full = false) :
    slotTake k c s = (none, { s with slots := s.slots.set k { sl with wait := sl.wait.set c true } }) := by
  simp [slotTake, h, hf]

/-- R154: a PEEK on a pending value. -/
theorem slotPeek_full {s : State} {k c : Nat} {sl : Slot} (h : s.slots[k]? = some sl) (hf : sl.full = true) :
    slotPeek k c s = (some sl.val, { s with
      slots := s.slots.set k { sl with full := !s.params.peekClears },
      rets := s.rets ++ [.peek k c (some sl.val)] }) := by
  simp [slotPeek, h, hf, answer]

/-- R154: a PEEK without one. -/
theorem slotPeek_empty {s : State} {k c : Nat} {sl : Slot} (h : s.slots[k]? = some sl) (hf : sl.full = false) :
    slotPeek k c s = (none, { s with rets := s.rets ++ [.peek k c none] }) := by
  simp [slotPeek, h, hf, answer]

/-- Writing a list's own entry back changes nothing. -/
theorem set_self {α : Type} {l : List α} {k : Nat} {a : α} (h : l[k]? = some a) : l.set k a = l := by
  apply List.ext_getElem?
  intro j
  by_cases hj : k = j
  · subst hj
    obtain ⟨hk, rfl⟩ := List.getElem?_eq_some_iff.mp h
    simp [hk]
  · simp [hj]

/-- Modifying an entry is writing its new value. -/
theorem modify_at {α : Type} {l : List α} {k : Nat} {a : α} (f : α → α) (h : l[k]? = some a) :
    l.modify k f = l.set k (f a) := by
  apply List.ext_getElem?
  intro j
  obtain ⟨hk, rfl⟩ := List.getElem?_eq_some_iff.mp h
  by_cases hj : k = j
  · subst hj
    simp [hk]
  · simp [hj]

/-- R151: PUBLISH at a slot of the block. -/
theorem slotPublish_at {s : State} {k : Nat} {v : Value} {sl : Slot} (h : s.slots[k]? = some sl) :
    slotPublish k v s = { s with slots := s.slots.set k { sl with val := v, full := true } } := by
  simp [slotPublish, modify_at _ h]

/-- An operation at a slot answers a next state exactly where the slot exists. -/
theorem atSlot_next {k : Nat} {s t : State} {f : State → State} (h : atSlot k s f = .next t) :
    k < s.slots.length ∧ t = f s := by
  unfold atSlot at h
  split at h
  · exact ⟨‹_›, by cases h; rfl⟩
  · cases h

/-- An operation at a port answers a next state exactly where the port exists. -/
theorem atPort_next {k c : Nat} {s t : State} {f : State → State} (h : atPort k c s f = .next t) :
    ∃ sl, s.slots[k]? = some sl ∧ c < sl.wait.length ∧ t = f s := by
  unfold atPort at h
  split at h
  · cases h
  · rename_i sl hs
    split at h
    · exact ⟨sl, hs, ‹_›, by cases h; rfl⟩
    · cases h

/-- An operation at a port that exists. -/
theorem atPort_at {k c : Nat} {s : State} {f : State → State} {sl : Slot} (h : s.slots[k]? = some sl)
    (hc : c < sl.wait.length) : atPort k c s f = .next (f s) := by
  simp [atPort, h, hc]

end Sys2Proof.Machine
end

