-- ==== Sys2Proof/Laws/Decoder.lean ====
section
/-! SUPPORT. The laws of the decoder: its deliveries, its two byte steps, and its run over the serial stream, one lemma for
each that says what it does. -/

namespace Sys2Proof.Machine

/-- R61: no delivery is pending. -/
theorem noPending_iff (d : Dec) : noPending d = true ↔ true ∉ d.dpub := by
  simp only [noPending, List.all_eq_true, Bool.not_eq_true']
  exact ⟨fun h hm => by simpa using h _ hm, fun h b hb => by cases b; rfl; exact absurd hb h⟩

/-- R61: when the decoder may take an event. -/
theorem decTakes_iff (d : Dec) : decTakes d = true ↔ d.dstate ≠ .fatal ∧ true ∉ d.dpub := by
  simp [decTakes, noPending_iff]

/-- R134: with no delivery pending to slot `k`, DELIVER there does nothing. -/
theorem deliver_none {k : Nat} {s : State} (h : s.dec.dpub[k]? ≠ some true) : deliver k s = s := by
  simp [deliver, h]

/-- R134: with one pending, the slot gets the packed channel registers and the pending bit falls. -/
theorem deliver_pending {k : Nat} {s : State} {sl : Slot} (h : s.dec.dpub[k]? = some true)
    (hs : s.slots[k]? = some sl) :
    deliver k s = { s with
      slots := s.slots.set k { sl with val := pack s.dec.ch, full := true },
      dec := { s.dec with dpub := s.dec.dpub.set k false } } := by
  simp [deliver, h, slotPublish, modify_at _ hs]

/-- R134: what a delivery leaves alone. -/
theorem deliver_frame (k : Nat) (s : State) :
    deliver k s = { s with
      slots := (deliver k s).slots, dec := { s.dec with dpub := (deliver k s).dec.dpub } } ∧
    (deliver k s).slots.length = s.slots.length ∧ (deliver k s).dec.dpub.length = s.dec.dpub.length := by
  unfold deliver
  split <;> simp [slotPublish]

/-- R134: with nothing pending, delivering does nothing. -/
theorem deliverUpTo_none {s : State} (h : true ∉ s.dec.dpub) (n : Nat) : deliverUpTo n s = s := by
  induction n with
  | zero => rfl
  | succ n ih =>
    rw [deliverUpTo, ih]
    exact deliver_none fun hk => h (List.mem_of_getElem? hk)

/-- R134: with nothing pending, delivering does nothing. -/
theorem deliverAll_none {s : State} (h : true ∉ s.dec.dpub) : deliverAll s = s := deliverUpTo_none h _

/-- A slot that holds a newly published value. -/
def Slot.published (v : Value) (sl : Slot) : Slot := { sl with val := v, full := true }

/-- R134: with all deliveries pending, the first `n` of them publish to the first `n` slots. -/
theorem deliverUpTo_all {s : State} (h : s.dec.dpub = List.replicate s.slots.length true) {n : Nat}
    (hn : n ≤ s.slots.length) :
    deliverUpTo n s = { s with
      slots := (s.slots.take n).map (Slot.published (pack s.dec.ch)) ++ s.slots.drop n,
      dec := { s.dec with dpub := List.replicate n false ++ List.replicate (s.slots.length - n) true } } := by
  induction n with
  | zero =>
    obtain ⟨⟨_, _, _, _, _, dp⟩, _, _, _, _, _, _, _, _, _, _, _, _, _, _, _, _⟩ := s
    simp only [deliverUpTo, List.take_zero, List.map_nil, List.drop_zero, List.nil_append, List.replicate_zero,
      Nat.sub_zero]
    simpa using h
  | succ n ih =>
    have hlt : n < s.slots.length := hn
    rw [deliverUpTo, ih (by omega)]
    have h1 : ((s.slots.take n).map (Slot.published (pack s.dec.ch)) ++ s.slots.drop n)[n]? = some s.slots[n] := by
      rw [List.getElem?_append_right (by simp [Nat.min_eq_left (Nat.le_of_lt hlt)])]
      simp [Nat.min_eq_left (Nat.le_of_lt hlt), hlt]
    have h2 : (List.replicate n false ++ List.replicate (s.slots.length - n) true)[n]? = some true := by
      rw [List.getElem?_append_right (by simp)]
      simp [hlt]
    rw [deliver_pending (by exact h2) (by exact h1)]
    simp only [State.mk.injEq, Dec.mk.injEq, true_and, and_true]
    constructor
    · rw [List.set_append_right _ _ (by simp)]
      rw [show s.slots.length - n = (s.slots.length - (n + 1)) + 1 by omega, List.replicate_succ]
      simp [List.replicate_succ' (n := n)]
    · rw [List.set_append_right _ _ (by simp [Nat.min_eq_left (Nat.le_of_lt hlt)])]
      rw [List.drop_eq_getElem_cons hlt, List.take_succ_eq_append_getElem hlt]
      simp only [List.map_append, List.length_map, List.length_take, Nat.min_eq_left (Nat.le_of_lt hlt), Nat.sub_self,
        List.set_cons_zero, List.map_cons, List.map_nil, List.append_assoc, List.cons_append, List.nil_append,
        Slot.published]

/-- R134: with all deliveries pending, every slot gets the packed channel registers and none is pending any more. -/
theorem deliverAll_all {s : State} (h : s.dec.dpub = List.replicate s.slots.length true) :
    deliverAll s = { s with
      slots := s.slots.map (Slot.published (pack s.dec.ch)),
      dec := { s.dec with dpub := List.replicate s.slots.length false } } := by
  have hl : s.dec.dpub.length = s.slots.length := by simp [h]
  rw [deliverAll, hl, deliverUpTo_all h (Nat.le_refl _)]
  simp

/-- R131: what accepting a length byte does. -/
theorem acceptLen_eq (b : Byte) (s : State) :
    acceptLen b s =
      if b = 0 then
        { s with dec := { s.dec with dstate := .len, dlen := b, dcnt := 0 }, trace := s.trace ++ [.skip .zeroLen] }
      else if b = 1 then
        { s with dec := { s.dec with dstate := .len, dlen := b, dcnt := 0 }, trace := s.trace ++ [.skip .empty] }
      else { s with dec := { s.dec with dstate := .payload, dlen := b, dcnt := 0 } } := by
  unfold acceptLen
  split
  · rfl
  · split <;> rfl

/-- R132: a payload byte that is not the frame's last only stores and counts. -/
theorem acceptPayload_mid {b : Byte} {s : State} (h : s.dec.dcnt + 1 ≠ s.dec.dlen.toNat - 1) :
    acceptPayload b s = { s with dec := { storePayload b s.dec with dcnt := s.dec.dcnt + 1 } } := by
  simp [acceptPayload, h]

/-- R133: the frame's last payload byte also completes it. -/
theorem acceptPayload_last {b : Byte} {s : State} (h : s.dec.dcnt + 1 = s.dec.dlen.toNat - 1) :
    acceptPayload b s =
      frameComplete (frameHeader b s.dec) { s with dec := { storePayload b s.dec with dcnt := s.dec.dcnt + 1 } } := by
  simp [acceptPayload, h]

/-- R132: what storing a payload byte leaves alone. -/
theorem storePayload_frame (b : Byte) (d : Dec) :
    storePayload b d = { d with dhdr := (storePayload b d).dhdr, ch := (storePayload b d).ch } := by
  unfold storePayload
  split
  · rfl
  · split <;> rfl

/-- R133: a completed frame of a header other than 0x40. -/
theorem frameComplete_header {h : Byte} {s : State} (hh : h ≠ Config.hdrChdata) :
    frameComplete h s = { s with dec := { s.dec with dstate := .len }, trace := s.trace ++ [.skip .header] } := by
  simp [frameComplete, hh, raise, emit]

/-- R133: a completed frame of header 0x40 and another length. -/
theorem frameComplete_badLen {s : State} (hl : s.dec.dlen ≠ Config.lenChdata) :
    frameComplete Config.hdrChdata s =
      { s with dec := { s.dec with dstate := .len }, trace := s.trace ++ [.skip .badLen] } := by
  simp [frameComplete, hl, raise, emit]

/-- R133: a completed channel-data frame. -/
theorem frameComplete_frame {s : State} (hl : s.dec.dlen = Config.lenChdata) :
    frameComplete Config.hdrChdata s =
      { s with
        dec := { s.dec with dstate := .len, dpub := List.replicate s.slots.length true },
        trace := s.trace ++ [.frame s.dec.ch] } := by
  simp [frameComplete, hl, emit]

/-- R130: with the serial stream empty, the run is over. -/
theorem decRun_nil {s : State} (h : s.rxq = []) (n : Nat) : decRun n s = s := by
  cases n with
  | zero => rfl
  | succ n => simp [decRun, h]

/-- R130: while the decoder may take none, the run is over. -/
theorem decRun_stop {s : State} (h : decTakes s.dec = false) (n : Nat) : decRun n s = s := by
  cases n with
  | zero => rfl
  | succ n => simp [decRun, h]

/-- R130: one event of the run. -/
theorem decRun_cons {s : State} {e : StreamEv} {r : List StreamEv} (h : decTakes s.dec = true) (hq : s.rxq = e :: r)
    (n : Nat) : decRun (n + 1) s = decRun n (deliverAll (acceptEvent e { s with rxq := r })) := by
  simp [decRun, h, hq]

/-- R131: one length byte of the run. -/
theorem decRun_len {s : State} {b : Byte} {r : List StreamEv} (h : s.dec.dstate = .len) (hp : true ∉ s.dec.dpub)
    (hq : s.rxq = .byte b :: r) (n : Nat) : decRun (n + 1) s = decRun n (acceptLen b { s with rxq := r }) := by
  rw [decRun_cons ((decTakes_iff _).2 ⟨by simp [h], hp⟩) hq]
  simp only [acceptEvent, h]
  rw [deliverAll_none]
  rw [acceptLen_eq]
  split
  · exact hp
  · split <;> exact hp

/-- R132, R133: the rest of a frame whose header is latched: the bytes `bs` of it, the last one among them, are taken and the
frame completed. -/
theorem decRun_payload {bs : List Byte} (hne : bs ≠ []) {s : State} {q : List StreamEv} (h : s.dec.dstate = .payload)
    (hp : true ∉ s.dec.dpub) (hq : s.rxq = bs.map StreamEv.byte ++ q) (hc : s.dec.dcnt ≠ 0)
    (hl : s.dec.dcnt + bs.length = s.dec.dlen.toNat - 1) (n : Nat) :
    decRun (n + bs.length) s = decRun n (deliverAll (frameComplete s.dec.dhdr
      { s with
        rxq := q
        dec := { s.dec with
          dcnt := s.dec.dlen.toNat - 1
          ch := if s.dec.dhdr = Config.hdrChdata then laneWrites s.dec.ch s.dec.dcnt bs else s.dec.ch } })) := by
  induction bs generalizing s with
  | nil => exact absurd rfl hne
  | cons b bs ih =>
    have ht : decTakes s.dec = true := (decTakes_iff _).2 ⟨by simp [h], hp⟩
    rw [List.length_cons, ← Nat.add_assoc, decRun_cons ht (by rw [hq]; rfl)]
    simp only [acceptEvent, h]
    rcases bs with _ | ⟨b', bs⟩
    · have hlast : s.dec.dcnt + 1 = s.dec.dlen.toNat - 1 := by simpa using hl
      rw [acceptPayload_last (by exact hlast)]
      simp only [frameHeader, storePayload, hc, if_false, hlast]
      by_cases hh : s.dec.dhdr = Config.hdrChdata
      · simp [hh, laneWrites, h]
      · simp [hh, h]
    · have hmid : s.dec.dcnt + 1 ≠ s.dec.dlen.toNat - 1 := by simp at hl; omega
      rw [acceptPayload_mid (by exact hmid)]
      rw [storePayload_frame]
      rw [deliverAll_none (by exact hp)]
      rw [ih (by simp) (by exact h) (by exact hp) (by rfl) (by simp) (by simp at hl ⊢; omega)]
      by_cases hh : s.dec.dhdr = Config.hdrChdata
      · simp [storePayload, hc, hh, laneWrites, h]
      · simp [storePayload, hc, hh, h]

/-- R131, R132, R133, R139: a whole frame of length byte `len >= 2` and header `hdr`, at the head of the serial stream of a
decoder at a frame boundary: its bytes are taken and it is completed. -/
theorem decRun_frame {len hdr : Byte} {rest : List Byte} (hlen : 2 ≤ len.toNat) (hr : rest.length = len.toNat - 2)
    {s : State} {q : List StreamEv} (h : s.dec.dstate = .len) (hp : true ∉ s.dec.dpub)
    (hq : s.rxq = (len :: hdr :: rest).map StreamEv.byte ++ q) (n : Nat) :
    decRun (n + (rest.length + 2)) s = decRun n (deliverAll (frameComplete hdr
      { s with
        rxq := q
        dec := { s.dec with
          dstate := .payload, dlen := len, dcnt := len.toNat - 1, dhdr := hdr
          ch := if hdr = Config.hdrChdata then laneWrites s.dec.ch 1 rest else s.dec.ch } })) := by
  have h0 : len ≠ 0 := by rintro rfl; simp at hlen
  have h1 : len ≠ 1 := by rintro rfl; simp at hlen
  rw [show n + (rest.length + 2) = (n + rest.length + 1) + 1 by omega, decRun_len h hp hq]
  rw [acceptLen_eq, if_neg h0, if_neg h1]
  rw [decRun_cons (e := .byte hdr) (r := rest.map StreamEv.byte ++ q)
    (by rw [decTakes_iff]; exact ⟨by simp, hp⟩) (by rfl)]
  simp only [acceptEvent]
  rcases rest with _ | ⟨b, bs⟩
  · rw [acceptPayload_last (by simp at hr ⊢; omega)]
    have : len.toNat - 1 = 1 := by simp at hr; omega
    simp only [frameHeader, storePayload, if_true, laneWrites, ite_self, this]
    rfl
  · rw [acceptPayload_mid (by simp at hr ⊢; omega)]
    rw [storePayload_frame]
    rw [deliverAll_none (by exact hp)]
    rw [decRun_payload (by simp) (by rfl) (by exact hp) (by rfl) (by simp) (by simp at hr ⊢; omega)]
    simp [storePayload]

end Sys2Proof.Machine
end

