-- ==== Sys2Proof/Laws/Engine.lean ====
section
/-! SUPPORT. The laws of the engine: the line reader, its run over the response stream, and the writes of INIT and SEND, one
lemma for each that says what it does. -/

namespace Sys2Proof.Machine

/-- R180: what storing a byte leaves alone. -/
theorem storeLineByte_frame (b : Byte) (e : Esc) :
    storeLineByte b e = { e with
      lbuf := (storeLineByte b e).lbuf, llen := (storeLineByte b e).llen, lovf := (storeLineByte b e).lovf } := by
  unfold storeLineByte
  split <;> rfl

/-- R180: a storing byte does not change whether the engine is busy. -/
theorem busy_storeLineByte (b : Byte) (e : Esc) : busy (storeLineByte b e) = busy e := by
  unfold storeLineByte
  split <;> rfl

/-- R180: the registers after the bytes `bs` of a line. -/
def storeLineBytes (bs : List Byte) (e : Esc) : Esc := bs.foldl (fun e b => storeLineByte b e) e

/-- R180: storing one byte more. -/
theorem storeLineBytes_cons (b : Byte) (bs : List Byte) (e : Esc) :
    storeLineBytes (b :: bs) e = storeLineBytes bs (storeLineByte b e) := rfl

/-- R180: from `k` stored bytes on, the bytes up to the 64th are stored and any further one marks the line overlong. -/
theorem storeLineBytes_eq {bs : List Byte} {e : Esc} (hl : e.lbuf.length = Config.lineMax)
    (hn : e.llen ≤ Config.lineMax) :
    storeLineBytes bs e = { e with
      lbuf := e.lbuf.take e.llen ++ bs.take (Config.lineMax - e.llen) ++
        e.lbuf.drop (e.llen + (bs.take (Config.lineMax - e.llen)).length)
      llen := min (e.llen + bs.length) Config.lineMax
      lovf := e.lovf || decide (Config.lineMax < e.llen + bs.length) } := by
  induction bs generalizing e with
  | nil =>
    obtain ⟨_, _, _, _, _, _, _, _, lb, ll, lo, _, _, _, _, _⟩ := e
    have h : ¬ Config.lineMax < ll := by
      dsimp only at hn
      omega
    simp only [storeLineBytes, List.foldl_nil, List.take_nil, List.append_nil, List.length_nil, Nat.add_zero,
      List.take_append_drop, h, decide_false, Bool.or_false]
    rw [Nat.min_eq_left hn]
  | cons b bs ih =>
    rw [storeLineBytes_cons]
    by_cases h : e.llen < Config.lineMax
    · have e1 : storeLineByte b e = { e with lbuf := e.lbuf.set e.llen b, llen := e.llen + 1 } := by
        simp [storeLineByte, h]
      rw [e1, ih (by simpa using hl) (by simpa using h)]
      have hlt : e.llen < e.lbuf.length := by omega
      have e2 : Config.lineMax - e.llen = (Config.lineMax - (e.llen + 1)) + 1 := by omega
      simp only [e2, List.take_succ_cons, List.length_cons]
      congr 1
      · rw [List.take_succ_eq_append_getElem (by simpa using hlt)]
        simp only [List.getElem_set_self, List.take_set_of_le (Nat.le_refl _), List.append_assoc, List.cons_append,
          List.nil_append]
        congr 3
        rw [List.drop_set_of_lt (by omega)]
        congr 1
        omega
      · congr 1
        omega
      · congr 2
        apply propext
        omega
    · have he : e.llen = Config.lineMax := by omega
      have e1 : storeLineByte b e = { e with lovf := true } := by simp [storeLineByte, h]
      rw [e1, ih (by exact hl) (by exact hn)]
      have h3 : Config.lineMax < e.llen + (b :: bs).length := by
        simp only [List.length_cons]
        omega
      have h4 : Config.lineMax - e.llen = 0 := by omega
      simp only [Bool.true_or, h3, decide_true, Bool.or_true, h4, List.take_zero]
      congr 1
      simp only [List.length_cons]
      omega

/-- R180: what storing a line's bytes does not change. -/
theorem busy_storeLineBytes (bs : List Byte) (e : Esc) : busy (storeLineBytes bs e) = busy e := by
  induction bs generalizing e with
  | nil => rfl
  | cons b bs ih => rw [storeLineBytes_cons, ih, busy_storeLineByte]

/-- R181: an idle engine takes nothing. -/
theorem escRun_idle {s : State} (h : busy s.esc = false) (n : Nat) : escRun n s = s := by
  cases n with
  | zero => rfl
  | succ n => simp [escRun, h]

/-- R181: with the response stream empty, the run is over. -/
theorem escRun_nil {s : State} (h : s.rspq = []) (n : Nat) : escRun n s = s := by
  cases n with
  | zero => rfl
  | succ n => simp [escRun, h]

/-- R181: one event of the run. -/
theorem escRun_cons {s : State} {e : StreamEv} {r : List StreamEv} (h : busy s.esc = true) (hq : s.rspq = e :: r)
    (n : Nat) : escRun (n + 1) s = escRun n (acceptRsp e { s with rspq := r }) := by
  simp [escRun, h, hq]

/-- R180: bytes without an LF are stored one after another. -/
theorem escRun_bytes {bs : List Byte} (hlf : LF ∉ bs) {s : State} {q : List StreamEv} (h : busy s.esc = true)
    (hq : s.rspq = bs.map StreamEv.byte ++ q) (n : Nat) :
    escRun (n + bs.length) s = escRun n { s with rspq := q, esc := storeLineBytes bs s.esc } := by
  induction bs generalizing s with
  | nil =>
    obtain ⟨_, _, _, _, _, _, _, _, _, _, _, _, _, _, _, _, _⟩ := s
    simp only [List.map_nil, List.nil_append] at hq
    subst hq
    rfl
  | cons b bs ih =>
    have hb : b ≠ LF := fun e => hlf (by simp [e])
    rw [List.length_cons, ← Nat.add_assoc, escRun_cons h (by rw [hq]; rfl)]
    simp only [acceptRsp, acceptRspByte, hb, if_false]
    rw [ih (fun hm => hlf (by simp [hm])) (by rw [busy_storeLineByte]; exact h) (by rfl)]
    rfl

/-- R180: the line that ends with the LF of a response line `ln` that began at the start of a line. -/
theorem responseArrive_line {ln : List Byte} (hlf : LF ∉ ln) {s : State} (h : busy s.esc = true)
    (hl : s.esc.lbuf.length = Config.lineMax) (hn : s.esc.llen = 0) (ho : s.esc.lovf = false) (hq : s.rspq = []) :
    responseArrive (ln ++ [LF]) s =
      let s' : State := { s with esc := { s.esc with
        lbuf := ln.take Config.lineMax ++ s.esc.lbuf.drop (ln.take Config.lineMax).length } }
      match s.esc.estate with
      | .hsWait => hsLine (ln.take Config.lineMax) (!fits ln) s'
      | _ => rspLine (ln.take Config.lineMax) (!fits ln) s' := by
  have e1 : (s.rspq ++ (ln ++ [LF]).map StreamEv.byte).length = 1 + ln.length := by
    rw [hq]
    simp
    omega
  simp only [responseArrive]
  rw [e1, escRun_bytes (q := [.byte LF]) hlf (by exact h) (by simp [hq])]
  rw [escRun_cons (e := .byte LF) (r := []) (by rw [busy_storeLineBytes]; exact h) (by rfl)]
  rw [storeLineBytes_eq (by exact hl) (by simp [hn])]
  have e2 : (ln.take Config.lineMax ++ s.esc.lbuf.drop (ln.take Config.lineMax).length).take (min ln.length Config.lineMax)
      = ln.take Config.lineMax := by
    rw [List.take_append_of_le_length (by simp)]
    rw [List.take_take]
    by_cases hle : ln.length ≤ Config.lineMax
    · rw [Nat.min_eq_left hle, Nat.min_eq_left hle, List.take_of_length_le (Nat.le_refl _), List.take_of_length_le hle]
    · rw [Nat.min_eq_right (by omega)]
  have e3 : decide (Config.lineMax < ln.length) = !fits ln := by
    simp only [fits, ← decide_not, Nat.not_le]
  obtain ⟨_, _, ⟨es, _, _, _, _, _, _, _, lb, ll, lo, _, _, _, _, _⟩, _, _, rq, _, _, _, _, _, _, _, _, _, _, _⟩ := s
  dsimp only at hn ho hq
  subst hn ho hq
  simp only [escRun, acceptRsp, acceptRspByte, if_true, List.take_zero, List.nil_append, Nat.zero_add, Nat.sub_zero,
    Bool.false_or, dropLine, e3]
  dsimp only at e2
  cases es <;> simp only [e2]

/-- R171: writing the ADD line, where the write succeeds. -/
theorem sendAdd_ok {pin : Byte} {r : Rate} {s : State} (h : writeFails (addLine pin r).length s = none) :
    sendAdd pin r s = { s with
      cmdq := s.cmdq ++ addLine pin r, cmdFail := s.cmdFail.tail,
      esc := { s.esc with espeed := speedOf r, eop := .init, estate := .hsWait } } := by
  simp only [sendAdd]
  rw [txWrite_ok (by exact h)]
  rfl

/-- R171, R183: writing the ADD line, where the write fails. -/
theorem sendAdd_fails {pin : Byte} {r : Rate} {s : State} {k : Nat}
    (h : writeFails (addLine pin r).length s = some k) :
    sendAdd pin r s = raise (.engineIo .init) { s with
      cmdq := s.cmdq ++ (addLine pin r).take k, cmdFail := s.cmdFail.tail,
      esc := { s.esc with espeed := speedOf r } } := by
  simp only [sendAdd]
  rw [txWrite_fails (by exact h)]
  rfl

/-- R176: SEND in TEXT mode, where the write succeeds. -/
theorem acceptSendText_ok {thr : U11} {tel : Bool} {s : State}
    (h : writeFails (throttleLine s.esc.eid thr tel).length s = none) :
    acceptSendText thr tel s = { s with
      cmdq := s.cmdq ++ throttleLine s.esc.eid thr tel, cmdFail := s.cmdFail.tail,
      esc := { s.esc with eop := .send, estate := .rspWait } } := by
  simp only [acceptSendText]
  rw [txWrite_ok (by exact h)]
  rfl

/-- R176, R183: SEND in TEXT mode, where the write fails. -/
theorem acceptSendText_fails {thr : U11} {tel : Bool} {s : State} {k : Nat}
    (h : writeFails (throttleLine s.esc.eid thr tel).length s = some k) :
    acceptSendText thr tel s = raise (.engineIo .send) { s with
      cmdq := s.cmdq ++ (throttleLine s.esc.eid thr tel).take k, cmdFail := s.cmdFail.tail } := by
  simp only [acceptSendText]
  rw [txWrite_fails (by exact h)]
  rfl

/-- R177: SEND in BIN16 mode, where the write succeeds. -/
theorem acceptSendBin16_ok {thr : U11} {tel : Bool} {s : State} (h : writeFails 2 s = none) :
    acceptSendBin16 thr tel s = completeStatus .send .ok { s with
      cmdq := s.cmdq ++ binBytes thr tel, cmdFail := s.cmdFail.tail } := by
  simp only [acceptSendBin16]
  rw [txWrite_ok (bs := binBytes thr tel) (by exact h)]
  rfl

/-- R177, R183: SEND in BIN16 mode, where the write fails. -/
theorem acceptSendBin16_fails {thr : U11} {tel : Bool} {s : State} {k : Nat} (h : writeFails 2 s = some k) :
    acceptSendBin16 thr tel s = raise (.engineIo .send) { s with
      cmdq := s.cmdq ++ (binBytes thr tel).take k, cmdFail := s.cmdFail.tail } := by
  simp only [acceptSendBin16]
  rw [txWrite_fails (bs := binBytes thr tel) (by exact h)]
  rfl

end Sys2Proof.Machine
end

