-- ==== Sys2Proof/Laws/Run.lean ====
section
/-! SUPPORT. The laws of runs of several steps, over `Sys2Proof.Machine.State` itself. -/

namespace Sys2Proof.Machine

/-- No step leaves the state as it is. -/
theorem run_zero (s : State) : Host.Core.run core 0 s = .next s := rfl

/-- One step more, first. -/
theorem run_succ {s t : State} (h : step s = .next t) (k : Nat) :
    Host.Core.run core (k + 1) s = Host.Core.run core k t := by
  have h' : core.step s = .next t := h
  simp only [Host.Core.run, h']

/-- Runs after one another. -/
theorem run_add {s t : State} {j : Nat} (h : Host.Core.run core j s = .next t) (k : Nat) :
    Host.Core.run core (j + k) s = Host.Core.run core k t := by
  induction j generalizing s with
  | zero =>
    cases h
    rw [Nat.zero_add]
  | succ j ih =>
    rw [show j + 1 + k = j + k + 1 by omega]
    simp only [Host.Core.run] at h ⊢
    split at h
    · rename_i u hu
      exact ih h
    · cases h
    · cases h

/-- R14: the step is the scheduled action, taken off the schedule. -/
theorem step_scheduled {s : State} {a : Act} {r : List Act} (h : s.sched = a :: r) :
    step s = runAct a { s with sched := r } := by
  simp [step, stepSched, h]

end Sys2Proof.Machine
end

