-- ==== Sys2Proof/Laws/Execution.lean ====
section
/-! SUPPORT. The laws of the reading operations (what TAKE, PEEK and a loop's reading turn can touch, and what each finds)
and of executions without an end. -/

namespace Sys2Proof.Machine

/-- R65: what a TAKE or a PEEK can touch. -/
def SlotsOnly (s t : State) : Prop :=
  t = { s with slots := t.slots, rets := t.rets } ∧ t.slots.length = s.slots.length

/-- R152, R153: TAKE. -/
theorem slotTake_only (k c : Nat) (s : State) : SlotsOnly s (slotTake k c s).2 := by
  unfold slotTake
  split
  · exact ⟨rfl, rfl⟩
  · split <;> exact ⟨rfl, by simp⟩

/-- R154: PEEK. -/
theorem slotPeek_only (k c : Nat) (s : State) : SlotsOnly s (slotPeek k c s).2 := by
  unfold slotPeek
  split
  · exact ⟨rfl, rfl⟩
  · split <;> exact ⟨rfl, by simp⟩

/-- R210 (1): a loop's reading turn. -/
theorem loopRead_only (m : ReadMode) (k : Nat) (s : State) : SlotsOnly s (loopRead m k s).2 := by
  unfold loopRead
  split
  · exact slotTake_only k 0 s
  · split
    · split
      · exact ⟨rfl, rfl⟩
      · exact slotPeek_only k 0 s
    · exact ⟨rfl, rfl⟩

/-- R210 (1): by TAKE, a loop reads as its consumer port does. -/
theorem loopRead_take (k : Nat) (s : State) : loopRead .take k s = slotTake k 0 s := rfl

/-- R210 (1): by PEEK, a loop reads as its consumer port does, and not while its port has a TAKE outstanding. -/
theorem loopRead_peek {k : Nat} {s : State} {sl : Slot} (h : s.slots[k]? = some sl) :
    loopRead .peek k s = if waiting sl 0 then (none, s) else slotPeek k 0 s := by
  simp only [loopRead, h]

/-- R152: where the completing step of a TAKE is enabled. -/
theorem takeEnabled_iff {k c : Nat} {s : State} :
    takeEnabled k c s = true ↔ ∃ sl, s.slots[k]? = some sl ∧ sl.full = true ∧ sl.wait[c]? = some true := by
  unfold takeEnabled waiting
  split
  · rename_i sl h
    simp [h]
  · rename_i h
    simp [h]

/-- R15: a step of an execution is the action it names. -/
theorem Executes.runAct {e : Nat → State} {a : Nat → Act} (h : Executes e a) (n : Nat) :
    runAct (a n) { e n with sched := [] } = .next (e (n + 1)) := by
  rw [← h n, step_scheduled (a := a n) (r := []) rfl]

end Sys2Proof.Machine
end

