-- ==== Sys2Proof/Laws/Frames.lean ====
section
/-! SUPPORT. The frames: for each sub-block's operations, one predicate that says which pieces of the state they can touch, and
one lemma per operation that it holds. -/

namespace Sys2Proof.Machine

/-- R246: what a step of the decoder can touch. -/
def DecoderOnly (s t : State) : Prop :=
  t = { s with dec := t.dec, slots := t.slots, rxq := t.rxq, trace := t.trace } ∧ t.slots.length = s.slots.length

/-- R246: what a step of the engine can touch. -/
def EngineOnly (s t : State) : Prop :=
  t = { s with
    esc := t.esc, cmdq := t.cmdq, cmdFail := t.cmdFail, rspq := t.rspq, trace := t.trace, rets := t.rets }

/-- Touching nothing. -/
theorem DecoderOnly.refl (s : State) : DecoderOnly s s := ⟨rfl, rfl⟩

/-- One after the other. -/
theorem DecoderOnly.trans {s t u : State} (h : DecoderOnly s t) (k : DecoderOnly t u) : DecoderOnly s u := by
  obtain ⟨h1, h2⟩ := h
  obtain ⟨k1, k2⟩ := k
  refine ⟨?_, k2.trans h2⟩
  rw [k1, h1]

/-- Touching nothing. -/
theorem EngineOnly.refl (s : State) : EngineOnly s s := rfl

/-- One after the other. -/
theorem EngineOnly.trans {s t u : State} (h : EngineOnly s t) (k : EngineOnly t u) : EngineOnly s u := by
  unfold EngineOnly at *
  rw [k, h]

/-- After a write to the serial stream. -/
theorem DecoderOnly.of_rxq {s t : State} {q : List StreamEv} (h : DecoderOnly { s with rxq := q } t) :
    DecoderOnly s t := DecoderOnly.trans ⟨rfl, rfl⟩ h

/-- After a write to the response stream. -/
theorem EngineOnly.of_rspq {s t : State} {q : List StreamEv} (h : EngineOnly { s with rspq := q } t) :
    EngineOnly s t := EngineOnly.trans (t := { s with rspq := q }) rfl h

/-- After a write to the engine's registers. -/
theorem EngineOnly.of_esc {s t : State} {e : Esc} (h : EngineOnly { s with esc := e } t) :
    EngineOnly s t := EngineOnly.trans (t := { s with esc := e }) rfl h

/-- R131: DEC.LEN. -/
theorem acceptLen_only (b : Byte) (s : State) : DecoderOnly s (acceptLen b s) := by
  rw [acceptLen_eq]
  split
  · exact ⟨rfl, rfl⟩
  · split <;> exact ⟨rfl, rfl⟩

/-- R133: FrameComplete. -/
theorem frameComplete_only (h : Byte) (s : State) : DecoderOnly s (frameComplete h s) := by
  unfold frameComplete
  split
  · split <;> exact ⟨rfl, rfl⟩
  · exact ⟨rfl, rfl⟩

/-- R132: DEC.PAYLOAD. -/
theorem acceptPayload_only (b : Byte) (s : State) : DecoderOnly s (acceptPayload b s) := by
  by_cases h : s.dec.dcnt + 1 = s.dec.dlen.toNat - 1
  · rw [acceptPayload_last h]
    exact DecoderOnly.trans ⟨rfl, rfl⟩ (frameComplete_only _ _)
  · rw [acceptPayload_mid h]
    exact ⟨rfl, rfl⟩

/-- R134: DEC.DELIVER. -/
theorem deliver_only (k : Nat) (s : State) : DecoderOnly s (deliver k s) := by
  unfold deliver
  split
  · exact ⟨rfl, by simp⟩
  · exact .refl s

/-- R134: the deliveries. -/
theorem deliverAll_only (s : State) : DecoderOnly s (deliverAll s) := by
  unfold deliverAll
  generalize s.dec.dpub.length = n
  induction n with
  | zero => exact .refl s
  | succ n ih => exact ih.trans (deliver_only n _)

/-- R135: DEC.RXERR. -/
theorem raise_serialIo_only (s : State) : DecoderOnly s (raise .serialIo s) := ⟨rfl, rfl⟩

/-- R130: one event. -/
theorem acceptEvent_only (e : StreamEv) (s : State) : DecoderOnly s (acceptEvent e s) := by
  cases e with
  | ioError => exact raise_serialIo_only s
  | byte b =>
    unfold acceptEvent
    cases s.dec.dstate
    · exact acceptLen_only b s
    · exact acceptPayload_only b s
    · exact .refl s

/-- R130: the run of the decoder. -/
theorem decRun_only (n : Nat) (s : State) : DecoderOnly s (decRun n s) := by
  induction n generalizing s with
  | zero => exact .refl s
  | succ n ih =>
    unfold decRun
    split
    · split
      · exact .refl s
      · exact ((acceptEvent_only _ _).trans ((deliverAll_only _).trans (ih _))).of_rxq
    · exact .refl s

/-- R115: bytes that arrive on the serial stream. -/
theorem serialArrive_only (bs : List Byte) (s : State) : DecoderOnly s (serialArrive bs s) :=
  ((deliverAll_only _).trans (decRun_only _ _)).of_rxq

/-- R62: the write to the command stream. -/
theorem txWrite_only (bs : List Byte) (s : State) : EngineOnly s (txWrite bs s).2 := by
  rcases txWrite_cases bs s with h | ⟨k, -, h⟩ <;> rw [h] <;> rfl

/-- R170: the completion of an operation. -/
theorem completeStatus_only (op : Op) (st : Status) (s : State) : EngineOnly s (completeStatus op st s) := by
  cases op <;> rfl

/-- R241 to R243: the engine's error classes. -/
theorem raise_engine_only (e : ErrorSite) (s : State) (h : (raise e s).dec = s.dec) : EngineOnly s (raise e s) := by
  cases e with
  | decode r =>
    unfold EngineOnly
    simp only [raise, emit] at h ⊢
    rw [h]
  | serialIo =>
    unfold EngineOnly
    simp only [raise, emit] at h ⊢
    rw [h]
  | engineIo op => cases op <;> rfl
  | handshake => rfl
  | response => rfl
  | config => rfl

/-- R171: INIT from the speed lookup on. -/
theorem sendAdd_only (pin : Byte) (r : Rate) (s : State) : EngineOnly s (sendAdd pin r s) := by
  simp only [sendAdd]
  have h := txWrite_only (addLine pin r) { s with esc := { s.esc with espeed := speedOf r } }
  have h0 : EngineOnly s { s with esc := { s.esc with espeed := speedOf r } } := rfl
  split
  · exact (h0.trans h).trans rfl
  · exact (h0.trans h).trans (raise_engine_only _ _ (by simp [raise]))

/-- R171: INIT. -/
theorem acceptInit_only (pin : Byte) (rate : U16) (mode : WireMode) (s : State) :
    EngineOnly s (acceptInit pin rate mode s) := by
  unfold acceptInit
  cases s.esc.estate
  · dsimp only
    cases rateOf rate
    · exact (raise_engine_only .config _ (by simp [raise])).of_esc
    · exact (sendAdd_only _ _ _).of_esc
  · exact .refl s
  · exact completeStatus_only _ _ s
  · exact .refl s
  · exact completeStatus_only _ _ s

/-- R176: SEND in TEXT mode. -/
theorem acceptSendText_only (thr : U11) (tel : Bool) (s : State) : EngineOnly s (acceptSendText thr tel s) := by
  simp only [acceptSendText]
  have h := txWrite_only (throttleLine s.esc.eid thr tel) s
  split
  · exact h.trans rfl
  · exact h.trans (raise_engine_only _ _ (by simp [raise]))

/-- R177: SEND in BIN16 mode. -/
theorem acceptSendBin16_only (thr : U11) (tel : Bool) (s : State) : EngineOnly s (acceptSendBin16 thr tel s) := by
  simp only [acceptSendBin16]
  have h := txWrite_only (binBytes thr tel) s
  split
  · exact h.trans (completeStatus_only _ _ _)
  · exact h.trans (raise_engine_only _ _ (by simp [raise]))

/-- R174: SEND. -/
theorem acceptSend_only (thr : U11) (tel : Bool) (s : State) : EngineOnly s (acceptSend thr tel s) := by
  unfold acceptSend
  cases s.esc.estate
  · exact completeStatus_only _ _ s
  · exact .refl s
  · dsimp only
    cases s.esc.emode
    · exact acceptSendText_only thr tel s
    · exact acceptSendBin16_only thr tel s
  · exact .refl s
  · exact completeStatus_only _ _ s

/-- R172: a line in the handshake. -/
theorem hsLine_only (ln : List Byte) (ov : Bool) (s : State) : EngineOnly s (hsLine ln ov s) := by
  unfold hsLine
  split
  · split
    · rfl
    · rfl
  · rfl

/-- R178: a line during a SEND. -/
theorem rspLine_only (ln : List Byte) (ov : Bool) (s : State) : EngineOnly s (rspLine ln ov s) := by
  unfold rspLine
  split <;> rfl

/-- R180: ESC.RSPBYTE. -/
theorem acceptRspByte_only (b : Byte) (s : State) : EngineOnly s (acceptRspByte b s) := by
  unfold acceptRspByte
  split
  · dsimp only
    have h0 : EngineOnly s (dropLine s) := rfl
    cases (dropLine s).esc.estate
    · exact h0.trans (rspLine_only _ _ _)
    · exact h0.trans (hsLine_only _ _ _)
    · exact h0.trans (rspLine_only _ _ _)
    · exact h0.trans (rspLine_only _ _ _)
    · exact h0.trans (rspLine_only _ _ _)
  · rfl

/-- R180, R182: one event of the response stream. -/
theorem acceptRsp_only (e : StreamEv) (s : State) : EngineOnly s (acceptRsp e s) := by
  cases e with
  | byte b => exact acceptRspByte_only b s
  | ioError => exact raise_engine_only (.engineIo s.esc.eop) s (by simp [raise])

/-- R181: the run of the engine. -/
theorem escRun_only (n : Nat) (s : State) : EngineOnly s (escRun n s) := by
  induction n generalizing s with
  | zero => exact .refl s
  | succ n ih =>
    unfold escRun
    split
    · split
      · exact .refl s
      · exact ((acceptRsp_only _ _).trans (ih _)).of_rspq
    · exact .refl s

/-- R115: bytes that arrive on the response stream. -/
theorem responseArrive_only (bs : List Byte) (s : State) : EngineOnly s (responseArrive bs s) :=
  (escRun_only _ _).of_rspq

end Sys2Proof.Machine
end

