-- ==== Sys2Proof/Laws/PerInstr.lean ====
section
/-! SUPPORT. The laws made per instruction. `UnitShape`: the encoding of a well-formed instruction is one unit of its port: a
frame as long as its length byte says (R92), one line with its only LF at the end (R101), or the port's fixed number of
bytes. -/

namespace Sys2Proof

open Machine

/-- What one unit of a port looks like. -/
def unitShape : Port → List Byte → Prop
  | .serial _, bs => ∃ len r, bs = len :: r ∧ bs.length = frameLength len
  | .rx, bs => bs.length = 1
  | .deliver, bs => bs.length = 1
  | .pub, bs => bs.length = 29
  | .take, bs => bs.length = 2
  | .peek, bs => bs.length = 2
  | .op, bs => bs.length = 8
  | .sendIn _, bs => bs.length = 3
  | .rsp, bs => bs.length = 1
  | .cmdText, bs => ∃ ln, bs = ln ++ [LF] ∧ LF ∉ ln
  | .cmdBin, bs => bs.length = 2
  | .hsLine, bs => ∃ ln, bs = ln ++ [LF] ∧ LF ∉ ln
  | .rspLine, bs => ∃ ln, bs = ln ++ [LF] ∧ LF ∉ ln
  | .servo, bs => bs.length = 28
  | .escFn, bs => bs.length = 28

/-- R92: a length byte of two or more counts the whole frame. -/
theorem frameLength_two {len : Byte} (h : 2 ≤ len.toNat) : frameLength len = len.toNat := by
  have h0 : ¬ len = 0 := by rintro rfl; simp at h
  rw [frameLength, if_neg h0]

/-- R101: a line without LF, as a predicate. -/
theorem noLf_iff {ln : List Byte} : noLf ln = true ↔ LF ∉ ln := by simp [noLf]

/-- R110: the text of a well-formed response holds no LF. -/
theorem rspText_noLf {k : Kind} {i p : List Byte} (h : wfResponse k i p = true) : LF ∉ rspText k i p := by
  simp only [wfResponse, Bool.and_eq_true] at h
  obtain ⟨⟨h1, h2⟩, -⟩ := h
  obtain ⟨id, hid⟩ := Option.isSome_iff_exists.mp h1
  rw [noLf_iff] at h2
  have hs : LF ≠ SP := by decide
  simp [rspText, (kindText_plain k).2.1, (parseDec_plain hid).2, h2, hs]

/-- R109: a line that starts with "OK" holds an LF only where the rest does. -/
theorem okLine_noLf {rest : List Byte} (h : noLf rest = true) : LF ∉ txtOk ++ rest := by
  rw [noLf_iff] at h
  have hs : LF ∉ txtOk := by decide
  simp [h, hs]

end Sys2Proof

/-- Every well-formed instruction's encoding is one unit of its port. -/
def Sys2Proof.Laws.UnitShape.Statement (i : Sys2Proof.Instr) : Prop :=
  i.wf = true → Sys2Proof.unitShape (Sys2Proof.portOf i) (Sys2Proof.encodeBytes i)

namespace Sys2Proof.Laws.UnitShape

open Sys2Proof.Machine

/-- SFRAME.ZEROLEN. -/
theorem sframeZerolen : Statement .sframeZerolen := fun _ => ⟨0, [], rfl, rfl⟩

/-- SFRAME.EMPTY. -/
theorem sframeEmpty : Statement .sframeEmpty := fun _ => ⟨1, [], rfl, rfl⟩

/-- SFRAME.CHDATA. -/
theorem sframeChdata (f : ChannelFrame) : Statement (.sframeChdata f) := fun _ =>
  ⟨_, _, rfl, by
    simp only [encodeBytes, encodeFrame, List.length_cons, chanBytes_length, Vector.length_toList]
    rfl⟩

/-- SFRAME.BADLEN. -/
theorem sframeBadlen (len : Byte) (rest : List Byte) : Statement (.sframeBadlen len rest) := fun h => by
  simp only [Instr.wf, Bool.and_eq_true, decide_eq_true_eq] at h
  refine ⟨_, _, rfl, ?_⟩
  rw [frameLength_two h.1.1]
  simp only [encodeBytes, List.length_cons]
  omega

/-- SFRAME.OTHER. -/
theorem sframeOther (len hdr : Byte) (rest : List Byte) : Statement (.sframeOther len hdr rest) := fun h => by
  simp only [Instr.wf, Bool.and_eq_true, decide_eq_true_eq] at h
  refine ⟨_, _, rfl, ?_⟩
  rw [frameLength_two h.1.1]
  simp only [encodeBytes, List.length_cons]
  omega

/-- DEC.LEN. -/
theorem decLen : Statement .decLen := fun _ => rfl

/-- DEC.PAYLOAD. -/
theorem decPayload : Statement .decPayload := fun _ => rfl

/-- DEC.DELIVER. -/
theorem decDeliver (s : Nat) : Statement (.decDeliver s) := fun _ => rfl

/-- DEC.RXERR. -/
theorem decRxerr : Statement .decRxerr := fun _ => rfl

/-- PUBLISH. -/
theorem publish (s : Nat) (v : Value) : Statement (.publish s v) := fun _ => by
  simp [unitShape, portOf, encodeBytes, valueBytes]

/-- TAKE. -/
theorem take (s c : Nat) : Statement (.take s c) := fun _ => rfl

/-- PEEK. -/
theorem peek (s c : Nat) : Statement (.peek s c) := fun _ => rfl

/-- INIT. -/
theorem init (pin : Byte) (rate : U16) (mode : WireMode) : Statement (.init pin rate mode) := fun _ => rfl

/-- SEND. -/
theorem send (thr : U11) (tel : Bool) : Statement (.send thr tel) := fun _ => rfl

/-- SEND.TEXT. -/
theorem sendText (thr : U11) (tel : Bool) : Statement (.sendText thr tel) := fun _ => rfl

/-- SEND.BIN16. -/
theorem sendBin16 (thr : U11) (tel : Bool) : Statement (.sendBin16 thr tel) := fun _ => rfl

/-- ESC.RSPBYTE. -/
theorem escRspbyte : Statement .escRspbyte := fun _ => rfl

/-- ESC.RSPERR. -/
theorem escRsperr : Statement .escRsperr := fun _ => rfl

/-- TLINE.ADD. -/
theorem tlineAdd (pin : Byte) (rate : Rate) : Statement (.tlineAdd pin rate) := fun _ => by
  have hs : LF ≠ SP := by decide
  have ht : LF ∉ txtAdd := by decide
  exact ⟨_, rfl, by simp [(dec_plain _).2, hs, ht]⟩

/-- TLINE.THROTTLE. -/
theorem tlineThrottle (id : U32) (thr : U11) (tel : Bool) : Statement (.tlineThrottle id thr tel) := fun _ => by
  have hs : LF ≠ SP := by decide
  have ht : LF ∉ txtThrottle := by decide
  have hb : LF ∉ boolStr tel := by cases tel <;> decide
  exact ⟨_, rfl, by simp [(dec_plain _).2, hs, ht, hb]⟩

/-- HS.OK. -/
theorem hsOk (rest : List Byte) : Statement (.hsOk rest) := fun h => by
  simp only [Instr.wf, Bool.and_eq_true] at h
  exact ⟨_, rfl, okLine_noLf h.1.1⟩

/-- HS.OK_NOINT. -/
theorem hsOkNoint (rest : List Byte) : Statement (.hsOkNoint rest) := fun h => by
  simp only [Instr.wf, Bool.and_eq_true] at h
  exact ⟨_, rfl, okLine_noLf h.1.1⟩

/-- HS.OTHER. -/
theorem hsOther (ln : List Byte) : Statement (.hsOther ln) := fun h => by
  simp only [Instr.wf, Bool.and_eq_true] at h
  exact ⟨_, rfl, noLf_iff.mp h.1⟩

/-- RSP.THROTTLE. -/
theorem rspThrottle (i p : List Byte) : Statement (.rspThrottle i p) := fun h => ⟨_, rfl, rspText_noLf h⟩

/-- RSP.OK. -/
theorem rspOk (i p : List Byte) : Statement (.rspOk i p) := fun h => ⟨_, rfl, rspText_noLf h⟩

/-- RSP.ERR. -/
theorem rspErr (i p : List Byte) : Statement (.rspErr i p) := fun h => ⟨_, rfl, rspText_noLf h⟩

/-- RSP.INVALID. -/
theorem rspInvalid (ln : List Byte) : Statement (.rspInvalid ln) := fun h => by
  simp only [Instr.wf, Bool.and_eq_true] at h
  exact ⟨_, rfl, noLf_iff.mp h.1⟩

/-- BIN16.FRAME. -/
theorem bin16Frame (thr : U11) (tel : Bool) : Statement (.bin16Frame thr tel) := fun _ => rfl

/-- SERVOMAP. -/
theorem servomap (f : ChannelFrame) : Statement (.servomap f) := fun _ => by
  simp [unitShape, portOf, encodeBytes]

/-- ESCMAP. -/
theorem escmap (f : ChannelFrame) : Statement (.escmap f) := fun _ => by
  simp [unitShape, portOf, encodeBytes]

end Sys2Proof.Laws.UnitShape
end

