-- ==== Sys2Proof/Tests/Slice0.lean ====
section
/-! SUPPORT. The model's own tests. Expected values are the spec's: its encodings (30_encoding.md), the examples of its rules,
and its vectors V1 to V167 (95_test_vectors.md), named in each docstring. The last part holds a witness for the hypotheses
of each statement that has any. -/

namespace Sys2Proof.Tests

open Sys2Proof Sys2Proof.Machine

/-- Parameters of a test machine. -/
def par : Params where
  servoK := 0
  servoLo := 0
  servoHi := 180
  readServo := .take
  readEsc := .take
  peekClears := false
  pin := 18
  rate := 300
  wireMode := .text

/-- The test machine after reset. -/
def base : State := { State.reset with params := par }

/-- The outcome is a next state with this property. -/
def gives (o : Host.Outcome State Fault Refusal) (p : State → Bool) : Bool :=
  match o with
  | .next t => p t
  | .fault _ => false
  | .refused _ => false

/-- The next state of an outcome, or the state itself. -/
def nextOr (s : State) (o : Host.Outcome State Fault Refusal) : State :=
  match o with
  | .next t => t
  | .fault _ => s
  | .refused _ => s

/-- A frame of fourteen equal channels. -/
def flat (w : U16) : ChannelFrame := Vector.replicate 14 w

/-- A frame with channels 2, 8 and 9 given, the others 1500. -/
def sticks (c2 c8 c9 : U16) : ChannelFrame := (((flat 1500).set 2 c2).set 8 c8).set 9 c9

/-- The engine with endpoint 3, ready, in TEXT mode. -/
def ready : State := { base with esc := { base.esc with
  estate := .ready, epin := 18, erate := 300, espeed := 1250, eid := 3 } }

/-- The engine in the handshake. -/
def shaking : State := { base with esc := { base.esc with
  estate := .hsWait, epin := 18, erate := 300, espeed := 1250 } }

/-- The engine waiting for a response. -/
def asking : State := { ready with esc := { ready.esc with estate := .rspWait, eop := .send } }

/-- The engine ready in BIN16 mode. -/
def readyBin : State := { ready with esc := { ready.esc with emode := .bin16 } }

/-- The engine stopped with a protocol error. -/
def faulted : State := { base with esc := { base.esc with estate := .fault, ecause := .protocol } }

/-- The decoder about to take the payload byte of index `p` of a frame of length `len` and header `hdr`. -/
def inFrame (len : Byte) (p : Nat) (hdr : Byte) (q : List StreamEv) : State :=
  { base with dec := { base.dec with dstate := .payload, dlen := len, dcnt := p, dhdr := hdr }, rxq := q }

/-- The decoder stopped. -/
def deadDec : State := { base with dec := { base.dec with dstate := .fatal } }

/-- Slot 0 holds the unread value 5. -/
def fullSlot : State := { base with slots := [{ val := 5, full := true, wait := [false] }, Slot.reset 1] }

/-- Two consumers on slot 0, both waiting. -/
def twoWait : State := { base with slots := [{ val := 0, full := false, wait := [true, true] }, Slot.reset 1] }

/-- The state with these events in the serial stream. -/
def onWire (s : State) (q : List StreamEv) : State := { s with rxq := q }

/-- The state with these events in the response stream. -/
def onPipe (s : State) (q : List StreamEv) : State := { s with rspq := q }

/-- The state with `n` bytes of `ln` held by the line reader. -/
def holding (s : State) (ln : List Byte) : State :=
  { s with esc := { s.esc with lbuf := ln ++ List.replicate (64 - ln.length) 0, llen := ln.length } }

/-- `"OK 3"`. -/
def ok3 : List Byte := [0x4F, 0x4B, 0x20, 0x33]

/-- `"OK 3 done"`. -/
def ok3done : List Byte := [0x4F, 0x4B, 0x20, 0x33, 0x20, 0x64, 0x6F, 0x6E, 0x65]

/-- `"hello"`. -/
def hello : List Byte := [0x68, 0x65, 0x6C, 0x6C, 0x6F]

/-! ### Well-formedness: each check refuses an ill-formed term -/

/-- R96: BADLEN has a length of two or more, not 0x1E, and as many bytes as the length says. -/
theorem test_wf_badlen :
    (Instr.sframeBadlen 0x01 []).wf = false ∧ (Instr.sframeBadlen 0x1E (List.replicate 28 0)).wf = false ∧
    (Instr.sframeBadlen 0x04 [0x01]).wf = false ∧ (Instr.sframeBadlen 0x04 [0x01, 0x02]).wf = true := by decide

/-- R96: OTHER has a length of two or more, a header other than 0x40, and as many bytes as the length says. -/
theorem test_wf_other :
    (Instr.sframeOther 0x01 0x7F []).wf = false ∧ (Instr.sframeOther 0x02 0x40 []).wf = false ∧
    (Instr.sframeOther 0x02 0x7F [0x00]).wf = false ∧ (Instr.sframeOther 0x02 0x7F []).wf = true := by decide

/-- The port forms carry a slot and a consumer in a byte each (log entry 6). -/
theorem test_wf_ports :
    (Instr.decDeliver 256).wf = false ∧ (Instr.publish 256 0).wf = false ∧ (Instr.take 256 0).wf = false ∧
    (Instr.take 0 256).wf = false ∧ (Instr.peek 256 0).wf = false ∧ (Instr.peek 0 256).wf = false ∧
    (Instr.peek 255 255).wf = true := by decide

/-- R109, R113: the handshake lines. -/
theorem test_wf_handshake :
    (Instr.hsOk [0x0A, 0x33]).wf = false ∧ (Instr.hsOk []).wf = false ∧ (Instr.hsOk (List.replicate 63 0x33)).wf = false ∧
    (Instr.hsOkNoint [0x0A]).wf = false ∧ (Instr.hsOkNoint [0x33]).wf = false ∧
    (Instr.hsOkNoint (List.replicate 63 0x20)).wf = false ∧
    (Instr.hsOther [0x0A]).wf = false ∧ (Instr.hsOther ok3).wf = false ∧ (Instr.hsOther hello).wf = true := by decide

/-- R105, R110, R113: the response lines. -/
theorem test_wf_response :
    (Instr.rspOk [] hello).wf = false ∧ (Instr.rspOk [0x78] hello).wf = false ∧ (Instr.rspOk [0x33] [0x0A]).wf = false ∧
    (Instr.rspOk [0x33] (List.replicate 60 0x78)).wf = false ∧ (Instr.rspErr [0x33] [0x0A]).wf = false ∧
    (Instr.rspThrottle [] []).wf = false ∧ (Instr.rspOk [0x33] (List.replicate 59 0x78)).wf = true ∧
    (Instr.rspInvalid [0x0A]).wf = false ∧ (Instr.rspInvalid ok3done).wf = false ∧
    (Instr.rspInvalid ok3).wf = true := by decide

/-! ### Decoding: a word written out from the spec's encoding for every constructor -/

/-- R91, R96: V4, V5, V6, V9, and V7's frame, whose header is also its last byte. -/
theorem test_decode_sframe :
    decode (.serial .lengthPrefixed) [0x00] = .ok .sframeZerolen ∧
    decode (.serial .lengthPrefixed) [0x01] = .ok .sframeEmpty ∧
    decode (.serial .lengthPrefixed) [0x02, 0x7F] = .ok (.sframeOther 0x02 0x7F []) ∧
    decode (.serial .lengthPrefixed) [0x04, 0x40, 0x01, 0x02] = .ok (.sframeBadlen 0x04 [0x01, 0x02]) ∧
    decode (.serial .lengthPrefixed) [0x02, 0x40] = .ok (.sframeBadlen 0x02 []) := by decide

/-- R93: V2, a channel-data frame, each channel low byte first. -/
theorem test_decode_chdata :
    decode (.serial .lengthPrefixed) [0x1E, 0x40, 0x00, 0x00, 0xFF, 0xFF, 0x01, 0x00, 0x00, 0x01, 0x34, 0x12,
      0xDC, 0x05, 0xDC, 0x05, 0xDC, 0x05, 0xDC, 0x05, 0xDC, 0x05, 0xDC, 0x05, 0xDC, 0x05, 0xDC, 0x05, 0xDC, 0x05] =
    .ok (.sframeChdata
      #v[0, 65535, 1, 256, 4660, 1500, 1500, 1500, 1500, 1500, 1500, 1500, 1500, 1500]) := by decide +kernel

/-- R38, R236: the decoder's port. Byte valid, error, and both (the error wins), in `D_LEN` and `D_PAYLOAD`. -/
theorem test_decode_rx :
    decode .rx [0x01] = .ok .decLen ∧ decode .rx [0x05] = .ok .decPayload ∧ decode .rx [0x02] = .ok .decRxerr ∧
    decode .rx [0x03] = .ok .decRxerr ∧ decode .rx [0x06] = .ok .decRxerr ∧
    decode .rx [0x00] = .error .noEvent ∧ decode .rx [0x09] = .error .decoderStopped := by decide

/-- R37, R134: the slot ports. -/
theorem test_decode_slots :
    decode .deliver [0x01] = .ok (.decDeliver 1) ∧ decode .take [0x01, 0x00] = .ok (.take 1 0) ∧
    decode .peek [0x00, 0x01] = .ok (.peek 0 1) ∧
    decode .pub (0x01 :: 0x34 :: 0x12 :: List.replicate 26 0) = .ok (.publish 1 0x1234) := by decide +kernel

/-- R39, R114: the operation port (`op_code` 0 and 1), the two actions of SEND, and the response port. -/
theorem test_decode_engine :
    decode .op [0x00, 0x12, 0x2C, 0x01, 0x00, 0x00, 0x00, 0x00] = .ok (.init 18 300 .text) ∧
    decode .op [0x01, 0x00, 0x00, 0x00, 0x00, 0xF4, 0x01, 0x00] = .ok (.send 500 false) ∧
    decode (.sendIn .text) [0xF4, 0x01, 0x00] = .ok (.sendText 500 false) ∧
    decode (.sendIn .bin16) [0xFF, 0x07, 0x01] = .ok (.sendBin16 2047 true) ∧
    decode .rsp [0x01] = .ok .escRspbyte ∧ decode .rsp [0x02] = .ok .escRsperr ∧
    decode .rsp [0x03] = .ok .escRsperr := by decide

/-- R107, R108, R111: V44, V71, V117, and V118's frame with a checksum that does not verify. -/
theorem test_decode_commands :
    decode .cmdText [0x41, 0x44, 0x44, 0x20, 0x30, 0x20, 0x33, 0x31, 0x33, 0x0A] = .ok (.tlineAdd 0 .r1200) ∧
    decode .cmdText [0x54, 0x48, 0x52, 0x4F, 0x54, 0x54, 0x4C, 0x45, 0x20, 0x33, 0x20, 0x30, 0x20,
      0x74, 0x72, 0x75, 0x65, 0x0A] = .ok (.tlineThrottle 3 0 true) ∧
    decode .cmdBin [0xFF, 0x0F] = .ok (.bin16Frame 2047 true) ∧
    decode .cmdBin [0xF5, 0x51] = .error .badChecksum := by decide

/-- R109, R113: V51, V53, V59 (`"OK"`), V61 (`"hello"`). -/
theorem test_decode_handshake :
    decode .hsLine (ok3 ++ [0x0A]) = .ok (.hsOk [0x20, 0x33]) ∧
    decode .hsLine [0x4F, 0x4B, 0x31, 0x32, 0x0A] = .ok (.hsOk [0x31, 0x32]) ∧
    decode .hsLine [0x4F, 0x4B, 0x0A] = .ok (.hsOkNoint []) ∧
    decode .hsLine (hello ++ [0x0A]) = .ok (.hsOther hello) := by decide

/-- R110, R113: V80, V85 (the id's text keeps its zeros), V88 and the other two kinds. -/
theorem test_decode_responses :
    decode .rspLine (ok3done ++ [0x0A]) = .ok (.rspOk [0x33] [0x64, 0x6F, 0x6E, 0x65]) ∧
    decode .rspLine [0x4F, 0x4B, 0x20, 0x30, 0x30, 0x37, 0x20, 0x7A, 0x0A] = .ok (.rspOk [0x30, 0x30, 0x37] [0x7A]) ∧
    decode .rspLine [0x45, 0x52, 0x52, 0x20, 0x33, 0x20, 0x0A] = .ok (.rspErr [0x33] []) ∧
    decode .rspLine [0x54, 0x48, 0x52, 0x4F, 0x54, 0x54, 0x4C, 0x45, 0x20, 0x33, 0x20, 0x78, 0x0A] =
      .ok (.rspThrottle [0x33] [0x78]) ∧
    decode .rspLine (ok3 ++ [0x0A]) = .ok (.rspInvalid ok3) := by decide

/-- The functions' operand is a frame's 28 bytes (log entry 6). -/
theorem test_decode_functions :
    decode .servo (chanBytes (flat 1000).toList) = .ok (.servomap (flat 1000)) ∧
    decode .escFn (chanBytes (flat 1000).toList) = .ok (.escmap (flat 1000)) ∧
    decode .servo [0x00] = .error .truncated := by decide +kernel

/-- The opcode table's words (R114, R116) are fetched and run as the first instruction after reset. -/
theorem test_table_words :
    decodeTableWord 16 0x0000 = some .sframeZerolen ∧ decodeTableWord 16 0x0140 = some .sframeEmpty ∧
    decodeTableWord 16 0x0240 = some (.sframeBadlen 0x02 []) ∧
    decodeTableWord 16 0x0300 = some (.sframeOther 0x03 0x00 [0x00]) ∧
    gives (step (base.withFetchWord 16 0x0000)) (fun t => t.trace = [.skip .zeroLen]) = true ∧
    gives (step (base.withFetchWord 8 0x01)) (fun t => t.rets = [.send .badState none]) = true := by decide

/-! ### The text functions -/

/-- R103, R105, R106: V120, V122, V126 to V128. -/
theorem test_decimal :
    dec 0 = [0x30] ∧ dec 313 = [0x33, 0x31, 0x33] ∧ dec 1250 = [0x31, 0x32, 0x35, 0x30] ∧
    parseDec [0x30, 0x30, 0x37] = some 7 ∧ parseDec [] = none ∧ parseDec [0x2D, 0x31] = none ∧
    parseDec (List.replicate 11 0x30) = none ∧ digitsSuffix [0x4F, 0x4B, 0x37] = [0x37] := by decide

/-- R105: V124, V126, V127 at the end of the range. -/
theorem test_decimal_limit :
    dec 4294967295 = [0x34, 0x32, 0x39, 0x34, 0x39, 0x36, 0x37, 0x32, 0x39, 0x35] ∧
    parseDec (dec 4294967295) = some 4294967295 ∧ parseDec (dec 4294967296) = none := by decide +kernel

/-! ### The decoder -/

/-- V4: 00 is skipped. -/
theorem test_sframeZerolen :
    gives (exec .sframeZerolen base) (fun t => t.trace = [.skip .zeroLen] ∧ t.dec.dstate = .len) = true := by decide

/-- V5: 01 is skipped. -/
theorem test_sframeEmpty :
    gives (exec .sframeEmpty base) (fun t => t.trace = [.skip .empty] ∧ t.dec.dlen = 1) = true := by decide

/-- V1: both slots hold the frame. -/
theorem test_sframeChdata :
    gives (exec (.sframeChdata (flat 1000)) base) (fun t =>
      t.trace = [.frame (flat 1000)] ∧ t.slots.map (·.full) = [true, true] ∧ t.dec.dpub = [false, false]) = true := by
  decide +kernel

/-- V7: the header is also the last byte. -/
theorem test_sframeBadlen :
    gives (exec (.sframeBadlen 0x02 []) base) (fun t =>
      t.trace = [.skip .badLen] ∧ t.dec.dhdr = 0x40 ∧ t.slots = base.slots) = true := by decide

/-- V8: `03 10 AA`; program P1's last frame leaves `dcnt = 1`. -/
theorem test_sframeOther :
    gives (exec (.sframeOther 0x03 0x10 [0xAA]) base) (fun t =>
      t.trace = [.skip .header] ∧ t.dec.dcnt = 2 ∧ t.dec.ch = base.dec.ch) = true := by decide

/-- R131: a length byte of two or more opens a payload. -/
theorem test_decLen :
    gives (exec .decLen { base with rxq := [.byte 0x1E, .byte 0x40] }) (fun t =>
      t.dec.dstate = .payload ∧ t.dec.dlen = 0x1E ∧ t.rxq = [.byte 0x40]) = true := by decide

/-- R132, V14: payload byte 2 is the high byte of channel 0. -/
theorem test_decPayload :
    gives (exec .decPayload (inFrame 0x1E 2 0x40 [.byte 0x03])) (fun t =>
      t.dec.ch[0] = 0x0300 ∧ t.dec.dcnt = 3 ∧ t.dec.dstate = .payload) = true := by decide

/-- R133: the last byte of a channel-data frame makes every delivery pending. -/
theorem test_decPayload_last :
    gives (exec .decPayload (inFrame 0x1E 28 0x40 [.byte 0xFF])) (fun t =>
      t.dec.ch[13] = 0xFF00 ∧ t.dec.dpub = [true, true] ∧ t.dec.dstate = .len) = true := by decide

/-- R134: the example. -/
theorem test_decDeliver :
    gives (exec (.decDeliver 1) { base with dec := { base.dec with dpub := [true, true], ch := flat 1000 } }) (fun t =>
      t.slots[1]? = some { val := pack (flat 1000), full := true, wait := [false] } ∧
      t.dec.dpub = [true, false] ∧ t.slots[0]? = some (Slot.reset 1)) = true := by decide +kernel

/-- R135: the example. -/
theorem test_decRxerr :
    gives (exec .decRxerr (inFrame 0x1E 10 0x40 [.ioError])) (fun t =>
      t.dec.dstate = .fatal ∧ t.trace = [.decFatal] ∧ t.dec.dcnt = 10) = true := by decide

/-! ### The slots -/

/-- V22: an unread value is overwritten. -/
theorem test_publish :
    gives (exec (.publish 0 9) fullSlot) (fun t =>
      t.slots[0]? = some { val := 9, full := true, wait := [false] } ∧ t.slots[1]? = fullSlot.slots[1]?) = true := by
  decide +kernel

/-- V25: the value is returned and the flag falls. -/
theorem test_take :
    gives (exec (.take 0 0) fullSlot) (fun t =>
      t.rets = [.take 0 0 5] ∧ t.slots[0]? = some { val := 5, full := false, wait := [false] }) = true := by
  decide +kernel

/-- V26: the consumer waits. -/
theorem test_take_waits :
    gives (exec (.take 0 0) base) (fun t =>
      t.rets = [] ∧ t.slots[0]? = some { val := 0, full := false, wait := [true] }) = true := by decide +kernel

/-- V23: a hit changes no slot. -/
theorem test_peek :
    gives (exec (.peek 0 0) fullSlot) (fun t => t.rets = [.peek 0 0 (some 5)] ∧ t.slots = fullSlot.slots) = true := by
  decide +kernel

/-- V20: a miss. -/
theorem test_peek_miss :
    gives (exec (.peek 0 0) base) (fun t => t.rets = [.peek 0 0 none] ∧ t.slots = base.slots) = true := by
  decide +kernel

/-! ### The engine -/

/-- V40. -/
theorem test_init :
    gives (exec (.init 18 300 .text) base) (fun t =>
      t.cmdq = [0x41, 0x44, 0x44, 0x20, 0x31, 0x38, 0x20, 0x31, 0x32, 0x35, 0x30, 0x0A] ∧
      t.esc.estate = .hsWait ∧ t.esc.espeed = 1250) = true := by decide

/-- V46: program P6 (a). -/
theorem test_init_config :
    gives (exec (.init 18 999 .text) base) (fun t =>
      t.cmdq = [] ∧ t.esc.estate = .fault ∧ t.esc.ecause = .config ∧ t.esc.erate = 999 ∧
      t.rets = [.init .fault none] ∧ t.trace = [.escFault .config]) = true := by decide

/-- V70. -/
theorem test_send :
    gives (exec (.send 500 false) ready) (fun t =>
      t.cmdq = [0x54, 0x48, 0x52, 0x4F, 0x54, 0x54, 0x4C, 0x45, 0x20, 0x33, 0x20, 0x35, 0x30, 0x30, 0x20,
        0x66, 0x61, 0x6C, 0x73, 0x65, 0x0A] ∧ t.esc.estate = .rspWait ∧ t.esc.eop = .send) = true := by decide

/-- V76. -/
theorem test_send_uninit :
    gives (exec (.send 500 false) base) (fun t =>
      t.cmdq = [] ∧ t.rets = [.send .badState none] ∧ t.esc.estate = .uninit) = true := by decide

/-- V71. -/
theorem test_sendText :
    gives (exec (.sendText 0 true) ready) (fun t =>
      t.cmdq = [0x54, 0x48, 0x52, 0x4F, 0x54, 0x54, 0x4C, 0x45, 0x20, 0x33, 0x20, 0x30, 0x20, 0x74, 0x72, 0x75, 0x65,
        0x0A]) = true := by decide

/-- V78: a write that fails after 0 bytes. -/
theorem test_sendText_fails :
    gives (exec (.sendText 500 false) { ready with cmdFail := [some 0] }) (fun t =>
      t.cmdq = [] ∧ t.esc.estate = .fault ∧ t.rets = [.send .fault none] ∧ t.trace = [.escFault .streamIo]) = true := by
  decide

/-- V109. -/
theorem test_sendBin16 :
    gives (exec (.sendBin16 500 false) readyBin) (fun t =>
      t.cmdq = [0xF4, 0x51] ∧ t.esc.estate = .ready ∧ t.rets = [.send .ok none]) = true := by decide

/-- R180: the example. -/
theorem test_escRspbyte :
    gives (exec .escRspbyte { asking with
        rspq := [.byte 0x20],
        esc := { asking.esc with llen := 4, lbuf := ok3 ++ List.replicate 60 0 } }) (fun t =>
      t.esc.lbuf.take 5 = ok3 ++ [0x20] ∧ t.esc.llen = 5 ∧ t.rspq = []) = true := by decide

/-- V94, R182: the example. -/
theorem test_escRsperr :
    gives (exec .escRsperr { asking with rspq := [.ioError] }) (fun t =>
      t.esc.estate = .fault ∧ t.esc.ecause = .streamIo ∧ t.trace = [.escFault .streamIo] ∧
      t.rets = [.send .fault none]) = true := by decide

/-- V43's line. -/
theorem test_tlineAdd :
    gives (exec (.tlineAdd 18 .r1200) base) (fun t =>
      t.cmdq = [0x41, 0x44, 0x44, 0x20, 0x31, 0x38, 0x20, 0x33, 0x31, 0x33, 0x0A] ∧ t.esc.espeed = 313 ∧
      t.esc.estate = .hsWait) = true := by decide

/-- V73's line. -/
theorem test_tlineThrottle :
    gives (exec (.tlineThrottle 3 0 false) ready) (fun t =>
      t.cmdq.length = 19 ∧ t.esc.estate = .rspWait) = true := by decide

/-- V52. -/
theorem test_hsOk :
    gives (exec (.hsOk [0x20, 0x30, 0x30, 0x37]) shaking) (fun t =>
      t.esc.eid = 7 ∧ t.esc.estate = .ready ∧ t.rets = [.init .ok (some 7)]) = true := by decide

/-- V59: `"OK"`. -/
theorem test_hsOkNoint :
    gives (exec (.hsOkNoint []) shaking) (fun t =>
      t.esc.estate = .fault ∧ t.esc.ecause = .protocol ∧ t.rets = [.init .fault none]) = true := by decide

/-- V61: `"hello"`. -/
theorem test_hsOther :
    gives (exec (.hsOther hello) shaking) (fun t =>
      t.trace = [.hsIgnored hello] ∧ t.esc.estate = .hsWait ∧ t.rets = []) = true := by decide

/-- V62: a line of 65 bytes that begins with "OK" and ends in digits. -/
theorem test_hsOther_overlong :
    gives (exec (.hsOther (txtOk ++ List.replicate 63 0x33)) shaking) (fun t =>
      t.trace = [.hsIgnored (txtOk ++ List.replicate 62 0x33)] ∧ t.esc.estate = .hsWait ∧ t.esc.llen = 0 ∧
      t.esc.lovf = false) = true := by decide +kernel

/-- V83: an echo. -/
theorem test_rspThrottle :
    gives (exec (.rspThrottle [0x33] [0x35, 0x30, 0x30]) asking) (fun t =>
      t.rets = [.send .ok (some ⟨.throttle, 3, [0x35, 0x30, 0x30]⟩)] ∧ t.esc.estate = .ready) = true := by decide

/-- V80. -/
theorem test_rspOk :
    gives (exec (.rspOk [0x33] [0x64, 0x6F, 0x6E, 0x65]) asking) (fun t =>
      t.rets = [.send .ok (some ⟨.ok, 3, [0x64, 0x6F, 0x6E, 0x65]⟩)] ∧ t.esc.rplen = 4) = true := by decide

/-- V84's id with kind ERR: neither the id nor the kind is checked. -/
theorem test_rspErr :
    gives (exec (.rspErr [0x39] [0x78]) asking) (fun t =>
      t.rets = [.send .ok (some ⟨.err, 9, [0x78]⟩)] ∧ t.esc.rid = 9 ∧ t.esc.eid = 3) = true := by decide

/-- V88: one space only. -/
theorem test_rspInvalid :
    gives (exec (.rspInvalid ok3) asking) (fun t =>
      t.rets = [.send .protocol none] ∧ t.esc.estate = .ready ∧ t.trace = []) = true := by decide

/-- V118: the low byte 0x0A is data. -/
theorem test_bin16Frame :
    gives (exec (.bin16Frame 10 false) readyBin) (fun t => t.cmdq = [0x0A, 0x50]) = true := by decide

/-- R190: V100, V103, V110, V117. -/
theorem test_checksum :
    binFrame 0 false = 0xF000 ∧ binFrame 15 false = 0x000F ∧ binFrame 500 true = 0xD9F4 ∧
    binFrame 2047 true = 0x0FFF := by decide

/-! ### The mapping functions -/

/-- V135 and V134. -/
theorem test_servomap :
    gives (exec (.servomap (flat 1012)) base) (fun t => t.servoRes = some 1) = true ∧
    gives (exec (.servomap (flat 1011)) base) (fun t => t.servoRes = none) = true := by decide

/-- V139 in range 0..90, V130 in range 10..170. -/
theorem test_servoMap_clamp :
    servoMap 0 0 90 (flat 2012) = some 90 ∧ servoMap 0 10 170 (flat 0) = some 10 := by decide

/-- V155 and V161. -/
theorem test_escmap :
    gives (exec (.escmap (sticks 1500 1000 1500)) base) (fun t => t.escRes = some (1524, false)) = true ∧
    gives (exec (.escmap (sticks 999 2000 1500)) base) (fun t => t.escRes = none) = true := by decide

/-- V150, V162, V163, V164, V165, V166. -/
theorem test_escMap_limits :
    escMap (sticks 1500 2000 1000) = some (0, true) ∧ escMap (sticks 3047 2000 1500) = some (2047, false) ∧
    escMap (sticks 3048 2000 1500) = none ∧ escMap (sticks 2023 1000 1500) = some (2047, false) ∧
    escMap (sticks 2024 1000 1500) = none ∧ escMap (sticks 0 1000 1500) = some (24, false) := by decide

/-! ### The step around the operations -/

/-- R236: in one cycle with both signals, the error wins. -/
theorem test_step_rx :
    gives (step (base.scheduled (.rx true true 0x1E) [])) (fun t => t.rxq = [.ioError] ∧ t.sched = []) = true := by decide

/-- R260: reset is the way out of `E_FAULT`. -/
theorem test_step_rst :
    gives (step (faulted.scheduled .rst [])) (fun t => t.esc.estate = .uninit ∧ t.esc.ecause = .none) = true := by decide

/-! ### Witnesses: the hypotheses of each statement can be met, for each clause at the ends of its range -/

/-- The invariant of a decoder and an engine. -/
theorem inv_dead : Inv deadDec :=
  ⟨⟨rfl, (by intro h; cases h), (by intro h; exact absurd h (by decide)), by decide⟩,
    ⟨⟨rfl, rfl⟩, ⟨by decide, (by intro h; cases h), by decide⟩, by decide,
      (by intro h; rcases h with h | h | h <;> cases h), (by intro h; cases h), (by intro h; cases h), by decide,
      by decide⟩⟩

/-- The invariant of an engine that waits for a response. -/
theorem inv_asking : Inv asking :=
  ⟨⟨rfl, (by intro h; cases h), (by intro h; exact absurd h (by decide)), by decide⟩,
    ⟨⟨rfl, rfl⟩, ⟨by decide, (by intro h; cases h), by decide⟩, by decide, (fun _ => ⟨.r300, rfl, rfl⟩),
      (by intro h; cases h), (fun _ => ⟨rfl, rfl⟩), by decide, by decide⟩⟩

/-- The decoder of the test machine is idle. -/
theorem idle_base : DecIdle base := ⟨rfl, rfl, rfl⟩

/-- The line readers of the test machines stand at the start of a line. -/
theorem lineStart_shaking : LineStart shaking ∧ LineStart asking := ⟨⟨rfl, rfl, rfl, rfl⟩, ⟨rfl, rfl, rfl, rfl⟩⟩

/-- DecodeOfEncode: the longest response and the longest serial frame. -/
theorem witness_DecodeOfEncode :
    (Instr.rspOk [0x33] (List.replicate 59 0x78)).wf = true ∧
    (Instr.sframeOther 0xFF 0x00 (List.replicate 253 0)).wf = true ∧ (Instr.take 255 255).wf = true := by
  decide +kernel

/-- DecodedIsWellFormed, StepRunsDecoded. -/
theorem witness_DecodedIsWellFormed : decode .take [0x01, 0x00] = .ok (.take 1 0) := by decide

/-- EncodeOfDecode, at each of its five ports. -/
theorem witness_EncodeOfDecode :
    decode (.serial .lengthPrefixed) [0x02, 0x7F] = .ok (.sframeOther 0x02 0x7F []) ∧
    decode .cmdText [0x41, 0x44, 0x44, 0x20, 0x30, 0x20, 0x33, 0x31, 0x33, 0x0A] = .ok (.tlineAdd 0 .r1200) ∧
    decode .cmdBin [0x00, 0xF0] = .ok (.bin16Frame 0 false) ∧
    decode .hsLine [0x0A] = .ok (.hsOther []) ∧ decode .rspLine [0x0A] = .ok (.rspInvalid []) := by decide

/-- SerialFrameClasses: the lengths 0, 1, 2, 0x1E and 0xFF. -/
theorem witness_SerialFrameClasses :
    [(0x00 : Byte)].length = frameLength 0x00 ∧ [(0x01 : Byte)].length = frameLength 0x01 ∧
    [(0x02 : Byte), 0x40].length = frameLength 0x02 ∧
    ((0x1E : Byte) :: 0x40 :: List.replicate 28 0).length = frameLength 0x1E ∧
    ((0xFF : Byte) :: 0x41 :: List.replicate 253 0).length = frameLength 0xFF := by decide +kernel

/-- OtherFramingRefused. -/
theorem witness_OtherFramingRefused :
    Framing.doubleMarker ≠ .lengthPrefixed ∧ Framing.rawCommand ≠ .lengthPrefixed := by decide

/-- StreamsAreFifo: a step by an agent, and a cycle of each port in which the error wins. -/
theorem witness_StreamsAreFifo :
    (∃ t, step (base.scheduled (.unit (.serial .lengthPrefixed) [0x00]) []) = .next t) ∧
    serialIn (.unit (.serial .lengthPrefixed) [0x00]) = [.byte 0x00] ∧
    responseIn (.unit .hsLine [0x0A]) = [.byte 0x0A] ∧ serialIn (.rx true true 0x1E) = [.ioError] ∧
    (0x03 : Byte).getLsbD 1 = true ∧ (0x03 : Byte).getLsbD 3 = false ∧ (0x07 : Byte).getLsbD 3 = false :=
  ⟨⟨_, rfl⟩, by decide, by decide, by decide, by decide, by decide, by decide⟩

/-- StepKeepsInv. -/
theorem witness_StepKeepsInv :
    Inv (asking.scheduled (.rsp true false 0x20) []) ∧ ∃ t, step (asking.scheduled (.rsp true false 0x20) []) = .next t :=
  ⟨inv_asking, _, rfl⟩

/-- ShortFramesSkipped, ChannelFrameRoundTrip, OneEventPerFrame: `idle_base`; LongFramesSkipped at the
shortest and the longest frame of each kind, OneEventPerFrame on program P1's classes. -/
theorem witness_frames :
    DecIdle base ∧ (Instr.sframeBadlen 0x02 []).wf = true ∧ (Instr.sframeBadlen 0xFF (List.replicate 253 0)).wf = true ∧
    (Instr.sframeOther 0x02 0x7F []).wf = true ∧ (Instr.sframeOther 0xFF 0x00 (List.replicate 253 0)).wf = true ∧
    ∀ i ∈ [Instr.sframeOther 0x03 0x10 [0xAA], .sframeZerolen, .sframeEmpty, .sframeChdata (flat 1000),
      .sframeBadlen 0x02 []], isFrame i = true ∧ i.wf = true :=
  ⟨idle_base, by decide, by decide +kernel, by decide, by decide +kernel, by decide⟩

/-- LengthByteAccepted: the hypotheses are on the state; the length bytes are 0, 1 and any other. -/
theorem witness_LengthByteAccepted :
    ∀ b ∈ [(0x00 : Byte), 0x01, 0x02], (onWire base [.byte b]).dec.dstate = .len ∧
      true ∉ (onWire base [.byte b]).dec.dpub ∧ (onWire base [.byte b]).rxq = .byte b :: [] := by decide

/-- PayloadByteStored: payload index 0; the first and the last lane (1, 2, 27, 28); index 29; another header. -/
theorem witness_PayloadByteStored :
    ∀ p ∈ [0, 1, 2, 27, 28, 29], ∀ h ∈ [(0x40 : Byte), 0x41],
      (inFrame 0xFF p h [.byte 0x03]).dec.dstate = .payload ∧ true ∉ (inFrame 0xFF p h [.byte 0x03]).dec.dpub ∧
      (inFrame 0xFF p h [.byte 0x03]).rxq = .byte 0x03 :: [] ∧
      (inFrame 0xFF p h [.byte 0x03]).dec.dcnt + 1 ≠ (inFrame 0xFF p h [.byte 0x03]).dec.dlen.toNat - 1 := by
  decide +kernel

/-- LastPayloadByteCompletes: a channel-data frame, a bad length (3 and 0xFF), a one-byte payload, another header. -/
theorem witness_LastPayloadByteCompletes :
    ∀ x ∈ [((0x1E : Byte), 28, (0x40 : Byte)), (0x03, 1, 0x40), (0xFF, 253, 0x40), (0x02, 0, 0x40), (0x02, 0, 0x7F),
        (0x1E, 28, 0x41)],
      (inFrame x.1 x.2.1 x.2.2 [.byte 0x03]).dec.dstate = .payload ∧
      true ∉ (inFrame x.1 x.2.1 x.2.2 [.byte 0x03]).dec.dpub ∧
      (inFrame x.1 x.2.1 x.2.2 [.byte 0x03]).dec.dcnt + 1 = (inFrame x.1 x.2.1 x.2.2 [.byte 0x03]).dec.dlen.toNat - 1 := by
  decide +kernel

/-- DeliveryPublishesFrame, both clauses; DeliveriesCommute. -/
theorem witness_DeliveryPublishesFrame :
    base.slots[1]? = some (Slot.reset 1) ∧
    ({ base with dec := { base.dec with dpub := [false, true] } } : State).dec.dpub[1]? = some true ∧
    base.dec.dpub[1]? ≠ some true ∧
    (∃ t u, exec (.decDeliver 1) { base with dec := { base.dec with dpub := [true, true] } } = .next t ∧
      exec (.decDeliver 0) t = .next u) :=
  ⟨by decide +kernel, by decide, by decide, _, _, rfl, rfl⟩

/-- SerialErrorIsFatal, in both states. -/
theorem witness_SerialErrorIsFatal :
    ∀ s ∈ [inFrame 0x1E 10 0x40 [.ioError], onWire base [.ioError]],
      s.dec.dstate ≠ .fatal ∧ true ∉ s.dec.dpub ∧ s.rxq = .ioError :: [] := by decide

/-- DecoderWaits: each of the three grounds alone; each step in a state of the other; an error and a byte at the head. -/
theorem witness_DecoderWaits :
    base.rxq = [] ∧
    true ∈ ({ onWire base [.byte 0x00] with dec := { base.dec with dpub := [true, false] } } : State).dec.dpub ∧
    (onWire deadDec [.byte 0x00]).dec.dstate = .fatal ∧
    (inFrame 0x1E 1 0x40 [.byte 0x00]).dec.dstate ≠ .len ∧ (onWire base [.byte 0x00]).dec.dstate ≠ .payload ∧
    (onWire base [.ioError]).rxq = .ioError :: [] ∧ (onWire base [.byte 0x00]).rxq = .byte 0x00 :: [] := by decide

/-- FatalDecoderStaysStopped. -/
theorem witness_FatalDecoderStaysStopped :
    Inv deadDec ∧ deadDec.dec.dstate = .fatal ∧ Act.rx true false 0x00 ≠ .rst ∧
    ∃ t, step (deadDec.scheduled (.rx true false 0x00) []) = .next t :=
  ⟨inv_dead, rfl, by decide, _, rfl⟩

/-- FrameIsRunOfSteps. -/
theorem witness_FrameIsRunOfSteps :
    base.rxq = [] ∧ base.sched = [] ∧ base.slots.length ≤ 256 ∧
    base.dec.dpub = List.replicate base.slots.length false := by decide

/-- PublishOverwrites, TakeReturnsPending, TakeWaits, LastWriteWins: a full and an empty slot, its one port. -/
theorem witness_slots :
    fullSlot.slots[0]? = some { val := 5, full := true, wait := [false] } ∧ base.slots[1]? = some (Slot.reset 1) ∧
    0 < [false].length ∧ 0 < (Slot.reset 1).wait.length ∧ (Slot.reset 1).full = false ∧ 0 < 256 := by decide +kernel

/-- PeekWritesNothing, each clause: not waiting on a full slot with `PEEK_CLEARS` off and on, on an empty slot, waiting. -/
theorem witness_PeekWritesNothing :
    fullSlot.slots[0]? = some { val := 5, full := true, wait := [false] } ∧ fullSlot.params.peekClears = false ∧
    ({ fullSlot with params := { par with peekClears := true } } : State).params.peekClears = true ∧
    (Slot.reset 1).wait[0]? = some false ∧
    twoWait.slots[0]? = some { val := 0, full := false, wait := [true, true] } := by decide +kernel

/-- MissingPortsStop: the first slot and the first consumer beyond the block's. -/
theorem witness_MissingPortsStop :
    base.slots.length ≤ 2 ∧ base.slots[0]? = some (Slot.reset 1) ∧ (Slot.reset 1).wait.length ≤ 1 := by decide +kernel

/-- FlagFallsOnlyByTake: a TAKE on a full slot. -/
theorem witness_FlagFallsOnlyByTake :
    fullSlot.params.peekClears = false ∧ schedule (.take 0 0) ≠ .rst ∧
    ∃ t, step (fullSlot.scheduled (schedule (.take 0 0)) []) = .next t ∧
      t.slots[0]? = some { val := 5, full := false, wait := [false] } :=
  ⟨rfl, by decide, _, rfl, by decide +kernel⟩

/-- OneTakePerPublish: V30, with what may be scheduled after the first TAKE: the other consumer, a TAKE and a publish on
another slot, a reset. -/
theorem witness_OneTakePerPublish :
    twoWait.slots[0]? = some { val := 0, full := false, wait := [true, true] } ∧ 0 < [true, true].length ∧
    1 < [true, true].length ∧
    (∀ a ∈ [schedule (.take 0 1), schedule (.publish 1 7), schedule (.take 1 0), .servoLoop, .rst],
      mayPublish 0 a = false) ∧
    mayPublish 0 (schedule (.publish 0 7)) = true ∧ mayPublish 0 (schedule (.decDeliver 0)) = true ∧
    mayPublish 0 (schedule (.sframeChdata (flat 1500))) = true ∧
    ∃ t, Host.Core.run core 2 { fullSlot with sched := [schedule (.take 0 0), schedule (.take 0 0)] } = .next t :=
  ⟨by decide +kernel, by decide, by decide, by decide +kernel, by decide +kernel, by decide +kernel, by decide +kernel,
    _, rfl⟩

/-- FairTakeCompletes, before its first step: a TAKE outstanding on slot 0, whose value is pending; the ESC loop at rest. -/
def owed : State := { base with
  slots := [{ val := 5, full := true, wait := [true] }, Slot.reset 1], escLoop := .stopped }

/-- The execution in which the servo loop moves again and again. -/
def turns : Nat → State
  | 0 => owed
  | n + 1 => nextOr owed (step { turns n with sched := [.servoLoop] })

/-- The loop completes its TAKE, maps the frame, and issues the next TAKE, which waits from then on. -/
theorem turns_rest : ∀ n, turns (n + 3) = turns 3 := by
  intro n
  induction n with
  | zero => rfl
  | succ n ih =>
    show nextOr owed (step { turns (n + 3) with sched := [.servoLoop] }) = turns 3
    rw [ih]
    decide +kernel

/-- It is an execution. -/
theorem turns_executes : Executes turns (fun _ => .servoLoop) := by
  intro n
  match n with
  | 0 => rfl
  | 1 => rfl
  | 2 => rfl
  | k + 3 =>
    show step { turns (k + 3) with sched := [.servoLoop] } = .next (turns (k + 1 + 3))
    rw [turns_rest k, turns_rest (k + 1)]
    rfl

/-- In the end no row is enabled. -/
theorem turns_row_rest (i : Instr) : rowEnabled i (turns 3) = false := by
  have hs : (turns 3).slots = [{ val := 5, full := false, wait := [true] }, Slot.reset 1] := by decide +kernel
  have hd : (turns 3).dec.dpub = [false, false] := by decide +kernel
  have hr : (turns 3).rxq = [] ∧ busy (turns 3).esc = false := by decide +kernel
  cases i <;> simp only [rowEnabled, hr.1, hr.2, headByte, headError, Bool.and_false, Bool.false_and]
  case decDeliver k =>
    rw [hd]
    match k with
    | 0 => rfl
    | 1 => rfl
    | k + 2 => rfl
  case take k c =>
    unfold takeEnabled
    rw [hs]
    match k with
    | 0 => rfl
    | 1 => rfl
    | k + 2 => rfl

/-- FairTakeCompletes: a weakly fair execution with a TAKE outstanding and its value pending. -/
theorem witness_FairTakeCompletes :
    Executes turns (fun _ => .servoLoop) ∧ WeaklyFair turns (fun _ => .servoLoop) ∧
    (∀ m : Nat, 0 ≤ m → Act.servoLoop ≠ .rst) ∧ (turns 0).params.peekClears = false ∧
    (turns 0).slots[0]? = some { val := 5, full := true, wait := [true] } ∧ [true].length = 1 ∧
    takeEnabled 0 0 (turns 0) = true := by
  refine ⟨turns_executes, ?_, fun _ _ => by decide, rfl, rfl, rfl, rfl⟩
  intro g n h
  have h3 := h (n + 3) (by omega)
  rw [turns_rest n] at h3
  cases g with
  | row i => exact absurd h3 (by rw [AgentStep.enabled, turns_row_rest]; decide)
  | servoLoop => exact ⟨n, le_refl n, rfl⟩
  | escLoop => exact absurd h3 (by decide +kernel)

/-- InitSendsAdd: a write that succeeds because nothing is chosen, because `Ok` is, and because `k` is the line's length. -/
theorem witness_InitSendsAdd :
    base.esc.estate = .uninit ∧ writeFails (addLine 18 .r300).length base = none ∧
    writeFails (addLine 18 .r300).length { base with cmdFail := [none] } = none ∧
    writeFails (addLine 18 .r300).length { base with cmdFail := [some 12] } = none := by decide

/-- UnsupportedRateIsConfigError: V47's rates next to the table's. -/
theorem witness_UnsupportedRateIsConfigError :
    base.esc.estate = .uninit ∧
    [(0 : U16), 149, 151, 1199, 1201, 65535].all (fun r => r ≠ 150 ∧ r ≠ 300 ∧ r ≠ 600 ∧ r ≠ 1200) = true := by decide

/-- WriteFailureFaults: V48's `k = 5`, the last `k` that fails, and `k = 0`, for the three writes; each of their forms. -/
theorem witness_WriteFailureFaults :
    base.esc.estate = .uninit ∧ writeFails (addLine 18 .r300).length { base with cmdFail := [some 5] } = some 5 ∧
    writeFails (addLine 18 .r300).length { base with cmdFail := [some 11] } = some 11 ∧
    (ready.esc.estate = .ready ∧ ready.esc.emode = .text ∧ ready.esc.eid = 3 ∧
      writeFails (throttleLine 3 500 false).length { ready with cmdFail := [some 0] } = some 0) ∧
    (readyBin.esc.estate = .ready ∧ readyBin.esc.emode = .bin16 ∧
      writeFails 2 { readyBin with cmdFail := [some 1] } = some 1) ∧
    Instr.tlineThrottle 3 500 false = .tlineThrottle ready.esc.eid 500 false := by decide

/-- OperationsInWrongState, InactiveFormsPass: each state that a clause names. -/
theorem witness_OperationsInWrongState :
    faulted.esc.estate = .fault ∧ ready.esc.estate = .ready ∧ base.esc.estate = .uninit ∧ busy shaking.esc = true ∧
    busy asking.esc = true ∧ ready.esc.estate ≠ .uninit ∧ readyBin.esc.emode ≠ .text ∧ ready.esc.emode ≠ .bin16 ∧
    ready.esc.eid ≠ 4 := by decide

/-- SendTextWritesThrottle, SendBin16WritesFrame. -/
theorem witness_sends :
    ready.esc.estate = .ready ∧ ready.esc.emode = .text ∧ writeFails (throttleLine 3 2047 true).length ready = none ∧
    readyBin.esc.estate = .ready ∧ readyBin.esc.emode = .bin16 ∧ writeFails 2 readyBin = none := by decide

/-- ResponseByteStored: 63 and 64 bytes held. -/
theorem witness_ResponseByteStored :
    (∀ n ∈ [63, 64], busy (onPipe (holding asking (List.replicate n 0x78)) [.byte 0x0D]).esc = true ∧
      (onPipe (holding asking (List.replicate n 0x78)) [.byte 0x0D]).rspq = .byte 0x0D :: [] ∧
      (onPipe (holding asking (List.replicate n 0x78)) [.byte 0x0D]).esc.llen = n) ∧
    (0x0D : Byte) ≠ 0x0A := by decide +kernel

/-- LineFeedEndsLine: a held line of each kind. -/
theorem witness_LineFeedEndsLine :
    (∀ s ∈ [shaking, asking], ∀ ln ∈ [ok3, txtOk, hello, ok3done],
      (onPipe (holding s ln) [.byte 0x0A]).rspq = .byte 0x0A :: [] ∧
      ln = (onPipe (holding s ln) [.byte 0x0A]).esc.lbuf.take (onPipe (holding s ln) [.byte 0x0A]).esc.llen ∧
      (onPipe (holding s ln) [.byte 0x0A]).esc.estate = s.esc.estate ∧
      (onPipe (holding s ln) [.byte 0x0A]).esc.lovf = false) ∧
    shaking.esc.estate = .hsWait ∧ asking.esc.estate = .rspWait ∧
    startsOk ok3 = true ∧ trailingInt ok3 = some 3 ∧ startsOk txtOk = true ∧ trailingInt txtOk = none ∧
    startsOk hello = false ∧ parseCommand ok3 = none ∧
    parseCommand ok3done = some ⟨.ok, 3, [0x64, 0x6F, 0x6E, 0x65]⟩ := by decide +kernel

/-- ResponseErrorFaults, for both operations. -/
theorem witness_ResponseErrorFaults :
    ∀ s ∈ [shaking, asking], busy (onPipe s [.ioError]).esc = true ∧ (onPipe s [.ioError]).rspq = .ioError :: [] := by
  decide

/-- The four statements on handshake and response lines: the shortest and the longest of each class. -/
theorem witness_lines :
    LineStart shaking ∧ LineStart asking ∧ shaking.esc.estate = .hsWait ∧ asking.esc.estate = .rspWait ∧
    (Instr.hsOk [0x33]).wf = true ∧ (Instr.hsOk (List.replicate 61 0x20 ++ [0x33])).wf = true ∧
    (Instr.hsOkNoint []).wf = true ∧ (Instr.hsOkNoint (List.replicate 62 0x20)).wf = true ∧
    (Instr.hsOther []).wf = true ∧ (Instr.hsOther (txtOk ++ List.replicate 63 0x33)).wf = true ∧
    (Instr.rspThrottle [0x33] []).wf = true ∧ (Instr.rspOk [0x30, 0x30, 0x37] []).wf = true ∧
    (Instr.rspErr [0x33] []).wf = true ∧ (Instr.rspOk [0x33] (List.replicate 59 0x78)).wf = true ∧
    (Instr.rspInvalid []).wf = true ∧ (Instr.rspInvalid (rspText .ok [0x33] (List.replicate 60 0x78))).wf = true :=
  ⟨lineStart_shaking.1, lineStart_shaking.2, by decide, by decide, by decide, by decide +kernel, by decide,
    by decide +kernel, by decide, by decide +kernel, by decide, by decide, by decide, by decide +kernel, by decide,
    by decide +kernel⟩

/-- IdleEngineReadsNothing: each idle state; a busy engine with nothing, an error and a byte at the head. LineIsRunOfSteps. -/
theorem witness_IdleEngineReadsNothing :
    busy base.esc = false ∧ busy ready.esc = false ∧ busy faulted.esc = false ∧ asking.rspq = [] ∧ asking.sched = [] ∧
    busy asking.esc = true ∧ (onPipe asking [.ioError]).rspq = .ioError :: [] ∧
    (onPipe asking [.byte 0x20]).rspq = .byte 0x20 :: [] := by
  decide

/-- FaultedEngineStaysStopped. -/
theorem witness_FaultedEngineStaysStopped :
    faulted.esc.estate = .fault ∧ Act.rsp true false 0x20 ≠ .rst ∧
    ∃ t, step (faulted.scheduled (.rsp true false 0x20) []) = .next t := ⟨rfl, by decide, _, rfl⟩

/-- ConfigurationIsLatched, EngineStateGraph. -/
theorem witness_ConfigurationIsLatched :
    ready.esc.estate ≠ .uninit ∧ schedule (.send 500 false) ≠ .rst ∧
    ∃ t, step (ready.scheduled (schedule (.send 500 false)) []) = .next t := ⟨by decide, by decide, _, rfl⟩

/-- EscCommandCases: each case at the ends of its range (V150 to V166). -/
theorem witness_EscCommandCases :
    (sticks 0 0 1000)[9] = 1000 ∧
    ((sticks 1000 2000 999)[9] ≠ 1000 ∧ (sticks 1000 2000 999)[8] = 2000 ∧ (sticks 1000 2000 999)[2].toNat = 1000 + 0) ∧
    ((sticks 3047 2000 999)[2].toNat = 1000 + 2047 ∧ (sticks 999 2000 999)[2].toNat < 1000 ∧
      3047 < (sticks 3048 2000 999)[2].toNat) ∧
    ((sticks 0 1000 1001)[8] = 1000 ∧ (sticks 0 1000 1001)[2].toNat + 24 = 24 ∧
      (sticks 2023 1000 1001)[2].toNat + 24 = 2047 ∧ 2023 < (sticks 2024 1000 1001)[2].toNat) ∧
    (sticks 0 1500 1001)[8] = 1500 ∧
    ((sticks 0 1999 1001)[8] ≠ 2000 ∧ (sticks 0 1999 1001)[8] ≠ 1000 ∧ (sticks 0 1999 1001)[8] ≠ 1500) ∧
    1000 ≤ (sticks 1000 1500 1001)[2].toNat ∧ (sticks 2000 1500 1001)[2].toNat ≤ 2000 := by decide +kernel

/-- SubBlocksAreIndependent: one row of the engine, one of the decoder, one of a slot, one mapping function. -/
theorem witness_SubBlocksAreIndependent :
    (∃ t, exec (.send 500 false) ready = .next t) ∧ portOf (.send 500 false) = .op ∧
    (∃ t, exec (.sframeChdata (flat 1000)) base = .next t ∧ base.slots[1]? = some (Slot.reset 1) ∧
      t.slots[1]? = some { val := pack (flat 1000), full := true, wait := [false] }) ∧
    isFrame (.sframeChdata (flat 1000)) = true ∧
    (∃ t, exec (.take 0 0) fullSlot = .next t) ∧ portOf (.take 0 0) = .take ∧
    (∃ t, exec (.servomap (flat 1012)) base = .next t) ∧ portOf (.servomap (flat 1012)) = .servo :=
  ⟨⟨_, rfl⟩, rfl, ⟨_, rfl, by decide +kernel, by decide +kernel⟩, rfl, ⟨_, rfl⟩, rfl, ⟨_, rfl⟩, rfl⟩

/-- The test machine with both loops at these places and both reading by `m`, slot 0 and slot 1 being `sl`. -/
def loops (m : ReadMode) (sl : Slot) (v : ServoPhase) (p : EscPhase) (e : Esc) : State :=
  { base with
    slots := [sl, sl], servoLoop := v, escLoop := p, esc := e, params := { par with readServo := m, readEsc := m } }

/-- ControlLoopTurns: the ports; for each read mode a full and an empty slot, and with PEEK a TAKE outstanding; each phase, with
the engine idle and busy, and with each status after a SEND. -/
theorem witness_ControlLoopTurns :
    (∀ m ∈ [ReadMode.take, .peek], ∀ sl ∈ [({ val := 5, full := true, wait := [false] } : Slot), Slot.reset 1,
        { val := 0, full := false, wait := [true] }],
      (loops m sl .get .get ready.esc).slots[0]? = some sl ∧ (loops m sl .get .get ready.esc).slots[1]? = some sl ∧
      0 < sl.wait.length ∧ (loops m sl .get .get ready.esc).servoLoop = .get ∧
      (loops m sl .get .get ready.esc).escLoop = .get ∧
      (loops m sl .get .get ready.esc).params.readServo = m ∧ (loops m sl .get .get ready.esc).params.readEsc = m) ∧
    waiting (Slot.reset 1) 0 = false ∧ waiting { val := 0, full := false, wait := [true] } 0 = true ∧
    (loops .take (Slot.reset 1) (.have 5) (.have 5) ready.esc).servoLoop = .have 5 ∧
    (loops .take (Slot.reset 1) (.have 5) (.have 5) ready.esc).escLoop = .have 5 ∧
    (∀ p ∈ [EscPhase.boot, .waitInit, .issue 500 false, .waitSend, .stopped], ∀ e ∈ [ready.esc, asking.esc],
      (loops .take (Slot.reset 1) .get p e).escLoop = p) ∧
    busy ready.esc = false ∧ busy asking.esc = true ∧
    (∃ t, exec (.init base.params.pin base.params.rate base.params.wireMode) { base with sched := [] } = .next t) ∧
    (∃ t, exec (.send 500 false) { ready with escLoop := .issue 500 false, sched := [] } = .next t) ∧
    (∀ st ∈ [Status.ok, .protocol, .fault, .badState],
      ({ ready.esc with rstatus := st } : Esc).rstatus = st ∧ busy { ready.esc with rstatus := st } = false) :=
  ⟨by decide +kernel, by decide, by decide, rfl, rfl, by decide +kernel, rfl, rfl, ⟨_, rfl⟩, ⟨_, rfl⟩, by decide⟩

end Sys2Proof.Tests
end

section
/-! SUPPORT. The proofs of the statements on the step, the framings, the missing ports and the streams. First the step at a
given schedule and the ports that do not exist; then the flow of the three streams, operation by operation. -/

namespace Sys2Proof.Machine

/-! ### The scheduled action and the missing ports -/

/-- R14: the action scheduled next is the one a step performs. -/
theorem step_of_scheduled (s : State) (a : Act) (r : List Act) :
    step (s.scheduled a r) = runAct a { s with sched := r } := step_scheduled (s := s.scheduled a r) rfl

/-- A unit that decodes is executed. -/
theorem runUnit_of_decode {p : Port} {bs : List Byte} {i : Instr} (h : decode p bs = .ok i) (s : State) :
    runUnit p bs s = exec i s := by
  simp only [runUnit, h]

/-- A unit that does not decode is refused under decoding's name for it. -/
theorem runUnit_of_reject {p : Port} {bs : List Byte} {e : Reject} (h : decode p bs = .error e) (s : State) :
    runUnit p bs s = .refused (.undecodable e) := by
  simp only [runUnit, h]

/-- R5: no bytes decode in a framing without a layout. -/
theorem decode_otherFraming {fr : Framing} (h : fr ≠ .lengthPrefixed) (bs : List Byte) :
    decode (.serial fr) bs = .error (.framing fr) := if_neg h

/-- R14: an operation at a slot beyond the block's. -/
theorem atSlot_missing {k : Nat} {s : State} (h : s.slots.length ≤ k) (f : State → State) :
    atSlot k s f = .fault (.noSuchSlot k) := if_neg (Nat.not_lt.2 h)

/-- R14: an operation at a consumer port of a slot beyond the block's. -/
theorem atPort_noSlot {k : Nat} {s : State} (h : s.slots.length ≤ k) (c : Nat) (f : State → State) :
    atPort k c s f = .fault (.noSuchSlot k) := by
  simp only [atPort, List.getElem?_eq_none h]

/-- R14: an operation at a consumer port that its slot does not have. -/
theorem atPort_noConsumer {k c : Nat} {s : State} {sl : Slot} (h : s.slots[k]? = some sl) (hc : sl.wait.length ≤ c)
    (f : State → State) : atPort k c s f = .fault (.noSuchConsumer k c) := by
  simp only [atPort, h, if_neg (Nat.not_lt.2 hc)]

/-- The meaning of TAKE's row. -/
theorem exec_take (k c : Nat) (s : State) : exec (.take k c) s = execTake k c s := rfl

/-- The meaning of PEEK's row. -/
theorem exec_peek (k c : Nat) (s : State) : exec (.peek k c) s = execPeek k c s := rfl

/-- Settles O6: the step performs the scheduled unit, and a unit that decodes is executed. -/
theorem stepRunsDecoded : Obligations.StepRunsDecoded := by
  intro s p bs r i h
  rw [step_of_scheduled]
  exact runUnit_of_decode h _

/-- Settles O7: decoding rejects the framing whatever the bytes are, and the step refuses what decoding rejects. -/
theorem otherFramingRefused : Obligations.OtherFramingRefused := by
  intro s fr bs r h
  rw [step_of_scheduled]
  exact runUnit_of_reject (decode_otherFraming h bs) _

/-- Settles O30: DEC.DELIVER and PUBLISH run at a slot, TAKE and PEEK at a consumer port, and neither runs where there is
none. -/
theorem missingPortsStop : Obligations.MissingPortsStop := by
  intro s k c v
  rw [exec_take, exec_peek, execTake, execPeek]
  constructor
  · intro hk
    exact ⟨atSlot_missing hk _, atSlot_missing hk _, atPort_noSlot hk c _, atPort_noSlot hk c _⟩
  · intro sl hs hc
    exact ⟨atPort_noConsumer hs hc _, atPort_noConsumer hs hc _⟩

/-! ### The flow of the streams -/

/-- R17: from `s` to `t` the two read streams lost only a beginning, and the command stream, with what SVC has removed from
it, grew only at its end. -/
structure StreamsFlow (s t : State) : Prop where
  serial : t.rxq <:+ s.rxq
  response : t.rspq <:+ s.rspq
  command : s.cmdRead ++ s.cmdq <+: t.cmdRead ++ t.cmdq

/-- Where no stream is touched. -/
theorem StreamsFlow.of_eq {s t : State} (hx : t.rxq = s.rxq := by simp) (hr : t.rspq = s.rspq := by simp)
    (hd : t.cmdRead = s.cmdRead := by simp) (hc : t.cmdq = s.cmdq := by simp) : StreamsFlow s t :=
  ⟨hx ▸ List.suffix_rfl, hr ▸ List.suffix_rfl, by rw [hd, hc]⟩

/-- Where nothing is done. -/
theorem StreamsFlow.refl (s : State) : StreamsFlow s s := .of_eq

/-- One after the other. -/
theorem StreamsFlow.trans {s t u : State} (h : StreamsFlow s t) (k : StreamsFlow t u) : StreamsFlow s u :=
  ⟨k.serial.trans h.serial, k.response.trans h.response, h.command.trans k.command⟩

/-- R61: the head of the serial stream is removed. -/
theorem StreamsFlow.popSerial {s : State} {e : StreamEv} {r : List StreamEv} (h : s.rxq = e :: r) :
    StreamsFlow s { s with rxq := r } := ⟨h ▸ List.suffix_cons e r, List.suffix_rfl, ⟨[], List.append_nil _⟩⟩

/-- R64: the head of the response stream is removed. -/
theorem StreamsFlow.popResponse {s : State} {e : StreamEv} {r : List StreamEv} (h : s.rspq = e :: r) :
    StreamsFlow s { s with rspq := r } := ⟨List.suffix_rfl, h ▸ List.suffix_cons e r, ⟨[], List.append_nil _⟩⟩

/-- What a TAKE or a PEEK can touch holds no stream. -/
theorem SlotsOnly.flow {s t : State} (h : SlotsOnly s t) : StreamsFlow s t := by
  obtain ⟨ht, -⟩ := h
  rw [ht]
  exact .of_eq

/-! ### The flow in the decoder -/

/-- R240 to R244: no error class touches a stream. -/
theorem raise_flow (e : ErrorSite) (s : State) : StreamsFlow s (raise e s) := .of_eq

/-- R131: DEC.LEN. -/
theorem acceptLen_flow (b : Byte) (s : State) : StreamsFlow s (acceptLen b s) := by
  rw [acceptLen_eq]
  split
  · exact .of_eq
  · split <;> exact .of_eq

/-- R133: FrameComplete. -/
theorem frameComplete_flow (h : Byte) (s : State) : StreamsFlow s (frameComplete h s) := by
  unfold frameComplete
  split
  · split
    · exact .of_eq
    · exact raise_flow _ s
  · exact raise_flow _ s

/-- R132: DEC.PAYLOAD. -/
theorem acceptPayload_flow (b : Byte) (s : State) : StreamsFlow s (acceptPayload b s) := by
  by_cases h : s.dec.dcnt + 1 = s.dec.dlen.toNat - 1
  · rw [acceptPayload_last h]
    exact .trans .of_eq (frameComplete_flow _ _)
  · rw [acceptPayload_mid h]
    exact .of_eq

/-- R130: one event, already removed from its stream. -/
theorem acceptEvent_flow (e : StreamEv) (s : State) : StreamsFlow s (acceptEvent e s) := by
  cases e with
  | ioError => exact raise_flow .serialIo s
  | byte b =>
    unfold acceptEvent
    cases s.dec.dstate
    case len => exact acceptLen_flow b s
    case payload => exact acceptPayload_flow b s
    case fatal => exact .refl s

/-- R134: DEC.DELIVER. -/
theorem deliver_flow (k : Nat) (s : State) : StreamsFlow s (deliver k s) := by
  rw [(deliver_frame k s).1]
  exact .of_eq

/-- R134: the deliveries. -/
theorem deliverUpTo_flow (n : Nat) (s : State) : StreamsFlow s (deliverUpTo n s) := by
  induction n with
  | zero => exact .refl s
  | succ n ih => exact ih.trans (deliver_flow n _)

/-- R130: the run of the decoder takes events from the head alone. -/
theorem decRun_flow (n : Nat) (s : State) : StreamsFlow s (decRun n s) := by
  induction n generalizing s with
  | zero => exact .refl s
  | succ n ih =>
    unfold decRun
    split
    · split
      · exact .refl s
      · rename_i hq
        exact (StreamsFlow.popSerial hq).trans
          ((acceptEvent_flow _ _).trans ((deliverUpTo_flow _ _).trans (ih _)))
    · exact .refl s

/-- R115: bytes that arrive join the tail, and the decoder takes from the head. -/
theorem serialArrive_flow (bs : List Byte) (s : State) :
    StreamsFlow { s with rxq := s.rxq ++ bs.map StreamEv.byte } (serialArrive bs s) :=
  (deliverUpTo_flow _ _).trans (decRun_flow _ _)

/-! ### The flow in the engine -/

/-- R62: a write appends to the command stream, all of its bytes or the first of them. -/
theorem txWrite_flow (bs : List Byte) (s : State) : StreamsFlow s (txWrite bs s).2 := by
  have grows (w : List Byte) : s.cmdRead ++ s.cmdq <+: s.cmdRead ++ (s.cmdq ++ w) :=
    ⟨w, List.append_assoc ..⟩
  rcases txWrite_cases bs s with h | ⟨k, -, h⟩
  · rw [h]
    exact ⟨List.suffix_rfl, List.suffix_rfl, grows bs⟩
  · rw [h]
    exact ⟨List.suffix_rfl, List.suffix_rfl, grows (bs.take k)⟩

/-- R170: the completion of an operation. -/
theorem completeStatus_flow (op : Op) (st : Status) (s : State) : StreamsFlow s (completeStatus op st s) := .of_eq

/-- R171: INIT from the speed lookup on. -/
theorem sendAdd_flow (pin : Byte) (r : Rate) (s : State) : StreamsFlow s (sendAdd pin r s) := by
  have h := StreamsFlow.trans (s := s) .of_eq
    (txWrite_flow (addLine pin r) { s with esc := { s.esc with espeed := speedOf r } })
  simp only [sendAdd]
  split
  · exact h.trans .of_eq
  · exact h.trans (raise_flow _ _)

/-- R171: INIT. -/
theorem acceptInit_flow (pin : Byte) (rate : U16) (mode : WireMode) (s : State) :
    StreamsFlow s (acceptInit pin rate mode s) := by
  unfold acceptInit
  cases s.esc.estate
  case uninit =>
    dsimp only
    cases rateOf rate
    · exact .trans .of_eq (raise_flow .config _)
    · exact .trans .of_eq (sendAdd_flow _ _ _)
  case hsWait => exact .refl s
  case ready => exact completeStatus_flow _ _ s
  case rspWait => exact .refl s
  case fault => exact completeStatus_flow _ _ s

/-- R176: SEND in TEXT mode. -/
theorem acceptSendText_flow (thr : U11) (tel : Bool) (s : State) : StreamsFlow s (acceptSendText thr tel s) := by
  have h := txWrite_flow (throttleLine s.esc.eid thr tel) s
  simp only [acceptSendText]
  split
  · exact h.trans .of_eq
  · exact h.trans (raise_flow _ _)

/-- R177: SEND in BIN16 mode. -/
theorem acceptSendBin16_flow (thr : U11) (tel : Bool) (s : State) : StreamsFlow s (acceptSendBin16 thr tel s) := by
  have h := txWrite_flow (binBytes thr tel) s
  simp only [acceptSendBin16]
  split
  · exact h.trans (completeStatus_flow _ _ _)
  · exact h.trans (raise_flow _ _)

/-- R174: SEND. -/
theorem acceptSend_flow (thr : U11) (tel : Bool) (s : State) : StreamsFlow s (acceptSend thr tel s) := by
  unfold acceptSend
  cases s.esc.estate
  case uninit => exact completeStatus_flow _ _ s
  case hsWait => exact .refl s
  case ready =>
    dsimp only
    cases s.esc.emode
    case text => exact acceptSendText_flow thr tel s
    case bin16 => exact acceptSendBin16_flow thr tel s
  case rspWait => exact .refl s
  case fault => exact completeStatus_flow _ _ s

/-- R172: a line in the handshake. -/
theorem hsLine_flow (ln : List Byte) (ov : Bool) (s : State) : StreamsFlow s (hsLine ln ov s) := by
  unfold hsLine
  split
  · split
    · exact raise_flow .handshake s
    · exact .of_eq
  · exact .of_eq

/-- R178: a line during a SEND. -/
theorem rspLine_flow (ln : List Byte) (ov : Bool) (s : State) : StreamsFlow s (rspLine ln ov s) := by
  unfold rspLine
  split
  · exact raise_flow .response s
  · exact .of_eq

/-- R180: RSPBYTE, its byte already removed from its stream. -/
theorem acceptRspByte_flow (b : Byte) (s : State) : StreamsFlow s (acceptRspByte b s) := by
  unfold acceptRspByte
  split
  · have h0 : StreamsFlow s (dropLine s) := .of_eq
    dsimp only
    split
    · exact h0.trans (hsLine_flow _ _ _)
    · exact h0.trans (rspLine_flow _ _ _)
  · exact .of_eq

/-- R180, R182: one event, already removed from its stream. -/
theorem acceptRsp_flow (e : StreamEv) (s : State) : StreamsFlow s (acceptRsp e s) := by
  cases e with
  | byte b => exact acceptRspByte_flow b s
  | ioError => exact raise_flow (.engineIo s.esc.eop) s

/-- R181: the run of the engine takes events from the head alone. -/
theorem escRun_flow (n : Nat) (s : State) : StreamsFlow s (escRun n s) := by
  induction n generalizing s with
  | zero => exact .refl s
  | succ n ih =>
    unfold escRun
    split
    · split
      · exact .refl s
      · rename_i hq
        exact (StreamsFlow.popResponse hq).trans ((acceptRsp_flow _ _).trans (ih _))
    · exact .refl s

/-- R115: bytes that arrive join the tail, and the engine takes from the head. -/
theorem responseArrive_flow (bs : List Byte) (s : State) :
    StreamsFlow { s with rspq := s.rspq ++ bs.map StreamEv.byte } (responseArrive bs s) := escRun_flow _ _

/-! ### The flow of an instruction -/

/-- Where `o` answers a next state, the streams flowed from `s` to it. -/
def AnswersFlow (s : State) (o : Host.Outcome State Fault Refusal) : Prop := ∀ t, o = .next t → StreamsFlow s t

/-- A step that is always enabled. -/
theorem AnswersFlow.next {s t : State} (h : StreamsFlow s t) : AnswersFlow s (.next t) := by
  intro u hu
  cases hu
  exact h

/-- Log entry 3: a step that passes where it is not enabled. -/
theorem AnswersFlow.guarded {s t : State} {p : Prop} [Decidable p] (h : StreamsFlow s t) :
    AnswersFlow s (if p then .next t else .next s) := by
  split
  · exact .next h
  · exact .next (.refl s)

/-- R14: an operation at a slot. -/
theorem AnswersFlow.atSlot {f : State → State} {s : State} (h : StreamsFlow s (f s)) (k : Nat) :
    AnswersFlow s (atSlot k s f) := by
  intro t ht
  obtain ⟨-, rfl⟩ := atSlot_next ht
  exact h

/-- R14: an operation at a consumer port. -/
theorem AnswersFlow.atPort {f : State → State} {s : State} (h : StreamsFlow s (f s)) (k c : Nat) :
    AnswersFlow s (atPort k c s f) := by
  intro t ht
  obtain ⟨-, -, -, rfl⟩ := atPort_next ht
  exact h

/-- R131: the row DEC.LEN. -/
theorem execDecLen_flow (s : State) : AnswersFlow s (execDecLen s) := by
  unfold execDecLen
  split
  · split
    · rename_i hq
      exact .next ((StreamsFlow.popSerial hq).trans (acceptLen_flow _ _))
    · exact .next (.refl s)
  · exact .next (.refl s)

/-- R132: the row DEC.PAYLOAD. -/
theorem execDecPayload_flow (s : State) : AnswersFlow s (execDecPayload s) := by
  unfold execDecPayload
  split
  · split
    · rename_i hq
      exact .next ((StreamsFlow.popSerial hq).trans (acceptPayload_flow _ _))
    · exact .next (.refl s)
  · exact .next (.refl s)

/-- R135: the row DEC.RXERR. -/
theorem execDecRxerr_flow (s : State) : AnswersFlow s (execDecRxerr s) := by
  unfold execDecRxerr
  split
  · split
    · rename_i hq
      exact .next ((StreamsFlow.popSerial hq).trans (raise_flow _ _))
    · exact .next (.refl s)
  · exact .next (.refl s)

/-- R180: the row ESC.RSPBYTE. -/
theorem execEscRspbyte_flow (s : State) : AnswersFlow s (execEscRspbyte s) := by
  unfold execEscRspbyte
  split
  · split
    · rename_i hq
      exact .next ((StreamsFlow.popResponse hq).trans (acceptRspByte_flow _ _))
    · exact .next (.refl s)
  · exact .next (.refl s)

/-- R182: the row ESC.RSPERR. -/
theorem execEscRsperr_flow (s : State) : AnswersFlow s (execEscRsperr s) := by
  unfold execEscRsperr
  split
  · split
    · rename_i hq
      exact .next ((StreamsFlow.popResponse hq).trans (raise_flow _ _))
    · exact .next (.refl s)
  · exact .next (.refl s)

/-- R152, R153: the row TAKE. -/
theorem execTake_flow (k c : Nat) (s : State) : AnswersFlow s (execTake k c s) :=
  .atPort (f := fun s => (slotTake k c s).2) (slotTake_only k c s).flow k c

/-- R154: the row PEEK. -/
theorem execPeek_flow (k c : Nat) (s : State) : AnswersFlow s (execPeek k c s) := by
  refine .atPort ?_ k c
  split
  · split
    · exact .refl s
    · exact (slotPeek_only k c s).flow
  · exact .refl s

/-- R115: a serial frame is the arrival of its bytes. -/
theorem exec_frame {i : Instr} (h : isFrame i = true) (s : State) :
    exec i s = .next (serialArrive (encodeBytes i) s) := by
  cases i with
  | sframeZerolen => rfl
  | sframeEmpty => rfl
  | sframeChdata f => rfl
  | sframeBadlen len rest => rfl
  | sframeOther len hdr rest => rfl
  | _ => cases h

/-- R115: a handshake or response line is the arrival of its bytes. -/
theorem exec_line {i : Instr} (h : portOf i = .hsLine ∨ portOf i = .rspLine) (s : State) :
    exec i s = .next (responseArrive (encodeBytes i) s) := by
  cases i with
  | hsOk rest => rfl
  | hsOkNoint rest => rfl
  | hsOther ln => rfl
  | rspThrottle idText payload => rfl
  | rspOk idText payload => rfl
  | rspErr idText payload => rfl
  | rspInvalid ln => rfl
  | _ => simp [portOf] at h

/-- R73 (d): an instruction that brings no bytes of its own takes from the head of the streams it reads and writes to the
tail of the command stream. -/
theorem exec_flow {i : Instr} (hf : isFrame i = false) (hl : ¬ (portOf i = .hsLine ∨ portOf i = .rspLine)) (s : State) :
    AnswersFlow s (exec i s) := by
  cases i with
  | sframeZerolen => cases hf
  | sframeEmpty => cases hf
  | sframeChdata f => cases hf
  | sframeBadlen len rest => cases hf
  | sframeOther len hdr rest => cases hf
  | decLen => exact execDecLen_flow s
  | decPayload => exact execDecPayload_flow s
  | decDeliver k => exact .atSlot (deliver_flow k s) k
  | decRxerr => exact execDecRxerr_flow s
  | publish k v => exact .atSlot .of_eq k
  | take k c => exact execTake_flow k c s
  | peek k c => exact execPeek_flow k c s
  | init pin rate mode => exact .next (acceptInit_flow pin rate mode s)
  | send thr tel => exact .next (acceptSend_flow thr tel s)
  | sendText thr tel => exact .guarded (acceptSendText_flow thr tel s)
  | sendBin16 thr tel => exact .guarded (acceptSendBin16_flow thr tel s)
  | escRspbyte => exact execEscRspbyte_flow s
  | escRsperr => exact execEscRsperr_flow s
  | tlineAdd pin rate => exact .guarded (.trans .of_eq (sendAdd_flow pin rate _))
  | tlineThrottle id thr tel => exact .guarded (acceptSendText_flow thr tel s)
  | hsOk rest => exact absurd (.inl rfl) hl
  | hsOkNoint rest => exact absurd (.inl rfl) hl
  | hsOther ln => exact absurd (.inl rfl) hl
  | rspThrottle idText payload => exact absurd (.inr rfl) hl
  | rspOk idText payload => exact absurd (.inr rfl) hl
  | rspErr idText payload => exact absurd (.inr rfl) hl
  | rspInvalid ln => exact absurd (.inr rfl) hl
  | bin16Frame thr tel => exact .guarded (acceptSendBin16_flow thr tel s)
  | servomap f => exact .next .of_eq
  | escmap f => exact .next .of_eq

/-! ### The flow of an action -/

/-- R210: a turn of the servo loop. -/
theorem servoTurn_flow (s : State) : StreamsFlow s (servoTurn s) := by
  unfold servoTurn
  split
  · have h := (loopRead_only s.params.readServo 0 s).flow
    dsimp only
    split
    · exact h.trans .of_eq
    · exact h
  · exact .of_eq

/-- R210, R211: a turn of the ESC loop. -/
theorem escTurn_flow (s : State) : StreamsFlow s (escTurn s) := by
  unfold escTurn
  cases s.escLoop with
  | boot =>
    dsimp only
    split
    · exact .refl s
    · exact (acceptInit_flow s.params.pin s.params.rate s.params.wireMode s).trans .of_eq
  | waitInit =>
    dsimp only
    split
    · exact .refl s
    · exact .of_eq
  | get =>
    have h := (loopRead_only s.params.readEsc 1 s).flow
    dsimp only
    split
    · exact h.trans .of_eq
    · exact h
  | issue thr tel =>
    dsimp only
    split
    · exact .refl s
    · exact (acceptSend_flow thr tel s).trans .of_eq
  | waitSend =>
    dsimp only
    split
    · exact .refl s
    · exact .of_eq
  | stopped => exact .refl s
  | _ =>
    -- the phase that holds a frame value
    dsimp only
    split
    · exact .of_eq
    · exact .of_eq

/-- R38: a cycle of the serial port, its event, if any, at the tail. -/
theorem srcCycle_eq (valid err : Bool) (data : Byte) (s : State) :
    srcCycle valid err data s = { s with rxq := s.rxq ++ (cycleEvent valid err data).toList } := by
  unfold srcCycle
  cases cycleEvent valid err data with
  | none => simp
  | some e => rfl

/-- R39: a cycle of the response port, its event, if any, at the tail. -/
theorem svcCycle_eq (valid err : Bool) (data : Byte) (s : State) :
    svcCycle valid err data s = { s with rspq := s.rspq ++ (cycleEvent valid err data).toList } := by
  unfold svcCycle
  cases cycleEvent valid err data with
  | none => simp
  | some e => rfl

/-- R236: the events of one cycle. -/
theorem cycleEvent_toList (valid err : Bool) (data : Byte) :
    (cycleEvent valid err data).toList = if err then [.ioError] else if valid then [.byte data] else [] := by
  cases err <;> cases valid <;> rfl

/-- R17: `s` with what the action `a` brings at the tail of the two read streams. -/
def arrived (a : Act) (s : State) : State :=
  { s with rxq := s.rxq ++ serialIn a, rspq := s.rspq ++ responseIn a }

/-- An action that brings nothing. -/
theorem arrived_quiet {a : Act} (hx : serialIn a = []) (hr : responseIn a = []) (s : State) : arrived a s = s := by
  simp [arrived, hx, hr]

/-- An action that brings serial events alone. -/
theorem arrived_serial {a : Act} {q : List StreamEv} (hx : serialIn a = q) (hr : responseIn a = []) (s : State) :
    arrived a s = { s with rxq := s.rxq ++ q } := by
  simp [arrived, hx, hr]

/-- An action that brings response events alone. -/
theorem arrived_response {a : Act} {q : List StreamEv} (hx : serialIn a = []) (hr : responseIn a = q) (s : State) :
    arrived a s = { s with rspq := s.rspq ++ q } := by
  simp [arrived, hx, hr]

/-- R115: what a unit brings to the serial stream. -/
theorem serialIn_unit {p : Port} {bs : List Byte} {i : Instr} (h : decode p bs = .ok i) :
    serialIn (.unit p bs) = if isFrame i then (encodeBytes i).map StreamEv.byte else [] := by
  simp only [serialIn, actInstr, h]

/-- R115: what a unit brings to the response stream. -/
theorem responseIn_unit {p : Port} {bs : List Byte} {i : Instr} (h : decode p bs = .ok i) :
    responseIn (.unit p bs) =
      if portOf i = .hsLine ∨ portOf i = .rspLine then (encodeBytes i).map StreamEv.byte else [] := by
  simp only [responseIn, actInstr, h]

/-- R96: a frame is no line. -/
theorem not_line_of_isFrame {i : Instr} (h : isFrame i = true) : ¬ (portOf i = .hsLine ∨ portOf i = .rspLine) := by
  cases i with
  | sframeZerolen => simp [portOf]
  | sframeEmpty => simp [portOf]
  | sframeChdata f => simp [portOf]
  | sframeBadlen len rest => simp [portOf]
  | sframeOther len hdr rest => simp [portOf]
  | _ => cases h

/-- R17, R115: a unit's bytes join the tail of the stream it stands on, and what is taken is taken from the head. -/
theorem runUnit_flow (p : Port) (bs : List Byte) (s : State) :
    AnswersFlow (arrived (.unit p bs) s) (runUnit p bs s) := by
  cases hd : decode p bs with
  | error e =>
    intro t ht
    rw [runUnit_of_reject hd] at ht
    cases ht
  | ok i =>
    have hx := serialIn_unit hd
    have hr := responseIn_unit hd
    rw [runUnit_of_decode hd]
    by_cases hf : isFrame i = true
    · rw [if_pos hf] at hx
      rw [if_neg (not_line_of_isFrame hf)] at hr
      rw [arrived_serial hx hr, exec_frame hf]
      exact .next (serialArrive_flow _ s)
    · rw [if_neg hf] at hx
      by_cases hl : portOf i = .hsLine ∨ portOf i = .rspLine
      · rw [if_pos hl] at hr
        rw [arrived_response hx hr, exec_line hl]
        exact .next (responseArrive_flow _ s)
      · rw [if_neg hl] at hr
        rw [arrived_quiet hx hr]
        exact exec_flow (by simpa using hf) hl s

/-- R17, R73 (d): of every action, what it brings joins the tail of its stream, what is taken is taken from the head, and
the command stream grows only at its end. -/
theorem runAct_flow (a : Act) (s : State) : AnswersFlow (arrived a s) (runAct a s) := by
  cases a with
  | rx valid err data =>
    rw [arrived_serial (q := (cycleEvent valid err data).toList) rfl rfl, ← srcCycle_eq]
    exact .next (.refl _)
  | rsp valid err data =>
    rw [arrived_response (q := (cycleEvent valid err data).toList) rfl rfl, ← svcCycle_eq]
    exact .next (.refl _)
  | svcRead n =>
    rw [arrived_quiet rfl rfl]
    exact .next ⟨List.suffix_rfl, List.suffix_rfl, by simp [svcTake]⟩
  | cmdFail c =>
    rw [arrived_quiet rfl rfl]
    exact .next .of_eq
  | rst =>
    rw [arrived_quiet rfl rfl]
    exact .next (.of_eq rfl rfl rfl rfl)
  | servoLoop =>
    rw [arrived_quiet rfl rfl]
    exact .atPort (servoTurn_flow s) 0 0
  | escLoop =>
    rw [arrived_quiet rfl rfl]
    exact .atPort (escTurn_flow s) 1 0
  | unit p bs => exact runUnit_flow p bs s

/-! ### The byte form of a port cycle -/

/-- R236: at the response port the error bit wins. -/
theorem decode_rsp_error {b : Byte} (h : b.getLsbD 1 = true) : decode .rsp [b] = .ok .escRsperr := if_pos h

/-- R24: with the high bit of the sampled `dstate` off, its code is `D_LEN` or `D_PAYLOAD`. -/
theorem sampledState_of_bit {b : Byte} (h : b.getLsbD 3 = false) :
    b.extractLsb' 2 2 = 0#2 ∨ b.extractLsb' 2 2 = 1#2 := by
  have hhigh : (b.extractLsb' 2 2).getLsbD 1 = false := by simpa using h
  generalize b.extractLsb' 2 2 = code at hhigh
  revert code
  decide

/-- R236: at the decoder's port, sampled in `D_LEN` or `D_PAYLOAD`, the error bit wins. -/
theorem decode_rx_error {b : Byte} (h : b.getLsbD 1 = true) (hs : b.getLsbD 3 = false) :
    decode .rx [b] = .ok .decRxerr := by
  rcases sampledState_of_bit hs with hc | hc
  · simp [decode, decodeRx, hc, h]
  · simp [decode, decodeRx, hc, h]

/-- Settles O8: the environment's actions are their equations, `runAct_flow` is the law of every step, and a port cycle's
byte form decodes to the error. -/
theorem streamsAreFifo : Obligations.StreamsAreFifo := by
  refine ⟨fun s r valid err data n c => ?_, fun s t a r h => ?_, fun b hb => ?_⟩
  · simp only [step_of_scheduled, ← cycleEvent_toList]
    exact ⟨congrArg _ (srcCycle_eq ..), congrArg _ (svcCycle_eq ..), rfl, rfl⟩
  · rw [step_of_scheduled] at h
    obtain ⟨hx, hr, q, hq⟩ := runAct_flow a _ t h
    exact ⟨⟨_, List.suffix_iff_eq_drop.1 hx⟩, ⟨_, List.suffix_iff_eq_drop.1 hr⟩, q, hq.symm⟩
  · exact ⟨decode_rsp_error hb, decode_rx_error hb⟩

end Sys2Proof.Machine
end

section
/-! SUPPORT. The proof of the statement on packing: a packed frame as a number to the base 65536, whose digits are the
channels. -/

namespace Sys2Proof.Machine

/-- R21: channels as one number stay below the width of the channels. -/
theorem packNat_lt (ws : List U16) : packNat ws < 65536 ^ ws.length := by
  induction ws with
  | nil => decide
  | cons w ws ih =>
    have hw := w.isLt
    simp only [packNat, List.length_cons, pow_succ]
    omega

/-- R21: digit `j` to the base 65536 of the packed number is channel `j`. -/
theorem packNat_digit {ws : List U16} {j : Nat} (h : j < ws.length) :
    packNat ws / 65536 ^ j % 65536 = (ws[j]).toNat := by
  induction ws generalizing j with
  | nil => simp at h
  | cons w ws ih =>
    have hw := w.isLt
    cases j with
    | zero =>
      simp only [packNat, pow_zero, Nat.div_one, List.getElem_cons_zero]
      omega
    | succ j =>
      have hdrop : packNat (w :: ws) / 65536 = packNat ws := by
        simp only [packNat]
        omega
      rw [pow_succ', ← Nat.div_div_eq_div_mul, hdrop]
      exact ih (Nat.lt_of_succ_lt_succ h)

/-- R21: `Pack` puts channel `j` at bits `16*j + 15 : 16*j`. -/
theorem pack_channel (f : ChannelFrame) {j : Nat} (h : j < 14) : (pack f).extractLsb' (16 * j) 16 = f[j] := by
  have hfit : packNat f.toList < 2 ^ 224 := by simpa using packNat_lt f.toList
  apply BitVec.eq_of_toNat_eq
  calc ((pack f).extractLsb' (16 * j) 16).toNat
      = packNat f.toList / 65536 ^ j % 65536 := by
        rw [BitVec.extractLsb'_toNat, pack, BitVec.toNat_ofNat, Nat.mod_eq_of_lt hfit, Nat.shiftRight_eq_div_pow,
          pow_mul]
        rfl
    _ = f[j].toNat := by
        rw [packNat_digit (by simpa using h)]
        simp

/-- R210: channel `j` of an unpacked value. -/
theorem unpack_channel (v : Value) {j : Nat} (h : j < 14) : (unpack v)[j] = v.extractLsb' (16 * j) 16 := by
  simp [unpack]

/-- R21: a slot value is its fourteen channels. -/
theorem value_ext {v w : Value} (h : ∀ j, j < 14 → v.extractLsb' (16 * j) 16 = w.extractLsb' (16 * j) 16) : v = w := by
  apply BitVec.eq_of_getLsbD_eq
  intro i hi
  have hbit := congrArg (fun c => c.getLsbD (i % 16)) (h (i / 16) (by omega))
  simpa [BitVec.getLsbD_extractLsb', Nat.mod_lt, Nat.div_add_mod] using hbit

/-- Settles O35: channel by channel, both ways. -/
theorem packUnpackInverse : Obligations.PackUnpackInverse := by
  refine ⟨fun f => ?_, fun v => ?_, fun f j h => pack_channel f h⟩
  · apply Vector.ext
    intro j h
    rw [unpack_channel _ h, pack_channel f h]
  · apply value_ext
    intro j h
    rw [pack_channel _ h, unpack_channel v h]

end Sys2Proof.Machine
end

section
/-! SUPPORT. The proofs of the statements on the invariant, on reset and on the latched configuration. The moves of the engine's
registers are listed once (`EscMove`), every step of the engine is shown to be such a move, and the invariant and the
configuration are followed along moves; the decoder's steps keep its own part of the invariant. -/

namespace Sys2Proof.Machine

open Relation

/-! ### The engine's registers -/

/-- R29 to R33, R192: everything that one step of the engine can do to its registers `e`. -/
inductive EscMove (e : Esc) : Esc → Prop
  /-- A completion with a status alone, of an idle engine (R171, R174, R177). -/
  | completed (st : Status) (h : busy e = false) : EscMove e { e with rstatus := st }
  /-- INIT with a rate outside the table (R171, R243). -/
  | rateRefused (mode : WireMode) (pin : Byte) (rate : U16) (h : e.estate = .uninit) :
      EscMove e { e with
        emode := mode, epin := pin, erate := rate, estate := .fault, ecause := .config, rstatus := .fault }
  /-- INIT's write (R171). -/
  | addSent (mode : WireMode) (pin : Byte) (r : Rate) (h : e.estate = .uninit) :
      EscMove e { e with
        emode := mode, epin := pin, erate := rateKbit r, espeed := speedOf r, eop := .init, estate := .hsWait }
  /-- INIT's write where it fails (R241). -/
  | addFailed (mode : WireMode) (pin : Byte) (r : Rate) (h : e.estate = .uninit) :
      EscMove e { e with
        emode := mode, epin := pin, erate := rateKbit r, espeed := speedOf r, llen := 0, lovf := false,
        estate := .fault, ecause := .streamIo, rstatus := .fault }
  /-- SEND's write in TEXT mode (R176). -/
  | textSent (h : e.estate = .ready) (hm : e.emode = .text) : EscMove e { e with eop := .send, estate := .rspWait }
  /-- An error on a stream once an endpoint is asked for (R241), or a handshake line that the engine cannot use (R242). -/
  | stopped (c : Cause) (hc : c ≠ .none) (h : e.estate = .hsWait ∨ e.estate = .ready ∨ e.estate = .rspWait) :
      EscMove e { e with llen := 0, lovf := false, estate := .fault, ecause := c, rstatus := .fault }
  /-- A byte of a line (R180). -/
  | byteStored (b : Byte) (hb : b ≠ LF) (h : busy e = true) : EscMove e (storeLineByte b e)
  /-- A handshake line that is passed over (R172). -/
  | lineIgnored (h : e.estate = .hsWait) : EscMove e { e with llen := 0, lovf := false }
  /-- The handshake's answer (R172). -/
  | idGiven (v : U32) (h : e.estate = .hsWait) :
      EscMove e { e with llen := 0, lovf := false, eid := v, estate := .ready, rstatus := .ok, rid := v }
  /-- A response line that does not parse (R178, R242). -/
  | responseRefused (h : e.estate = .rspWait) :
      EscMove e { e with llen := 0, lovf := false, estate := .ready, rstatus := .protocol }
  /-- A response line that parses (R178). -/
  | responseParsed (c : EscCommand) (h : e.estate = .rspWait) (hc : parseCommand (e.lbuf.take e.llen) = some c) :
      EscMove e { e with
        llen := 0, lovf := false, estate := .ready, rstatus := .ok, rkind := c.kind, rid := c.id,
        rplen := c.payload.length, rpay := overlay c.payload e.rpay }

/-- R178: the payload of a response line of 64 bytes or fewer has 59 at most: the shortest word, the shortest id and the
two spaces take five. -/
theorem payload_length_le {ln : List Byte} {c : EscCommand} (h : parseCommand ln = some c)
    (hl : ln.length ≤ Config.lineMax) : c.payload.length ≤ 59 := by
  obtain ⟨idText, hid, rfl⟩ := parseCommand_some h
  obtain ⟨hid1, -⟩ := parseDec_some hid
  have hword : 2 ≤ (kindText c.kind).length := by cases c.kind <;> decide
  simp only [rspText, List.length_append, List.length_singleton, Config.lineMax] at hl
  omega

/-- R33: overlaying a payload that fits keeps the register's length. -/
theorem overlay_length {pay old : List Byte} (h : pay.length ≤ old.length) :
    (overlay pay old).length = old.length := by
  simp only [overlay, List.length_append, List.length_drop]
  omega

/-- R180: storing a byte other than LF leaves the bytes of the line free of LF. -/
theorem storeLineByte_line {b : Byte} {e : Esc} (hb : b ≠ LF) (hlen : e.lbuf.length = Config.lineMax)
    (hlf : LF ∉ e.lbuf.take e.llen) :
    LF ∉ (storeLineByte b e).lbuf.take (storeLineByte b e).llen := by
  unfold storeLineByte
  split
  · rename_i h
    have hlt : e.llen < e.lbuf.length := by omega
    rw [List.take_succ_eq_append_getElem (by simpa using hlt), List.take_set_of_le (Nat.le_refl _)]
    simp [hlf, Ne.symm hb]
  · exact hlf

/-- R180: storing a byte keeps the buffer's length and counts no further than the buffer holds, overlong lines filling
it. -/
theorem storeLineByte_bounds {b : Byte} {e : Esc} (hlen : e.lbuf.length = Config.lineMax) (hn : e.llen ≤ Config.lineMax)
    (ho : e.lovf = true → e.llen = Config.lineMax) :
    (storeLineByte b e).lbuf.length = Config.lineMax ∧ (storeLineByte b e).llen ≤ Config.lineMax ∧
      ((storeLineByte b e).lovf = true → (storeLineByte b e).llen = Config.lineMax) := by
  unfold storeLineByte
  split
  · rename_i h
    refine ⟨by simpa using hlen, h, fun hov => ?_⟩
    have := ho hov
    omega
  · exact ⟨hlen, hn, fun _ => by dsimp only; omega⟩

/-- R29: the engine is busy exactly in its two waiting states. -/
theorem busy_iff (e : Esc) : busy e = true ↔ e.estate = .hsWait ∨ e.estate = .rspWait := by simp [busy]

/-- R29 to R33, R180: a move keeps the engine's registers fitting together. The moves that leave the engine idle find its line
empty or empty it, and those into a state that needs a rate of the table come from INIT or from such a state. -/
theorem EscMove.keepsOk {e e' : Esc} (hm : EscMove e e') (h : EscOk e) : EscOk e' := by
  obtain ⟨⟨hbuf, hpay⟩, ⟨hlen, hov, hlf⟩, hidle, hrate, hinit, hsend, hcause, hplen⟩ := h
  cases hm with
  | completed st _ => exact ⟨⟨hbuf, hpay⟩, ⟨hlen, hov, hlf⟩, hidle, hrate, hinit, hsend, hcause, hplen⟩
  | rateRefused mode pin rate h =>
    exact ⟨⟨hbuf, hpay⟩, ⟨hlen, hov, hlf⟩, fun _ => hidle (by simp [busy, h]), by simp, by simp, by simp, by simp,
      hplen⟩
  | addSent mode pin r h =>
    exact ⟨⟨hbuf, hpay⟩, ⟨hlen, hov, hlf⟩, by simp [busy], fun _ => ⟨r, rfl, rfl⟩, by simp, by simp,
      by simpa [h] using hcause, hplen⟩
  | addFailed mode pin r h =>
    exact ⟨⟨hbuf, hpay⟩, by simp, by simp, by simp, by simp, by simp, by simp, hplen⟩
  | textSent h hm =>
    exact ⟨⟨hbuf, hpay⟩, ⟨hlen, hov, hlf⟩, by simp [busy], fun _ => hrate (by simp [h]), by simp, by simp [hm],
      by simpa [h] using hcause, hplen⟩
  | stopped c hc h => exact ⟨⟨hbuf, hpay⟩, by simp, by simp, by simp, by simp, by simp, by simp [hc], hplen⟩
  | byteStored b hb h =>
    obtain ⟨hbuf', hlen', hov'⟩ := storeLineByte_bounds (b := b) hbuf hlen hov
    have hlf' := storeLineByte_line hb hbuf hlf
    have hidle' : busy (storeLineByte b e) = false →
        (storeLineByte b e).llen = 0 ∧ (storeLineByte b e).lovf = false := by
      rw [busy_storeLineByte, h]
      exact nofun
    rw [storeLineByte_frame] at hidle' ⊢
    exact ⟨⟨hbuf', hpay⟩, ⟨hlen', hov', hlf'⟩, hidle', hrate, hinit, hsend, hcause, hplen⟩
  | lineIgnored h => exact ⟨⟨hbuf, hpay⟩, by simp, by simp, hrate, hinit, hsend, hcause, hplen⟩
  | idGiven v h =>
    exact ⟨⟨hbuf, hpay⟩, by simp, by simp, fun _ => hrate (by simp [h]), by simp, by simp, by simpa [h] using hcause,
      hplen⟩
  | responseRefused h =>
    exact ⟨⟨hbuf, hpay⟩, by simp, by simp, fun _ => hrate (by simp [h]), by simp, by simp, by simpa [h] using hcause,
      hplen⟩
  | responseParsed c h hc =>
    have hfits : c.payload.length ≤ 59 := payload_length_le hc ((List.length_take_le _ _).trans hlen)
    have hkeep : (overlay c.payload e.rpay).length = Config.lineMax := by
      have hroom : c.payload.length ≤ e.rpay.length := by
        rw [hpay, Config.lineMax]
        omega
      rw [overlay_length hroom, hpay]
    exact ⟨⟨hbuf, hkeep⟩, by simp, by simp, fun _ => hrate (by simp [h]), by simp, by simp, by simpa [h] using hcause,
      hfits⟩

/-- R30: the configuration registers of an engine. -/
def Esc.config (e : Esc) : WireMode × Byte × U16 × U16 := (e.emode, e.epin, e.erate, e.espeed)

/-- R193: INIT's moves start in `E_UNINIT`; no other move writes the configuration, and none leads back there. -/
theorem EscMove.keepsConfig {e e' : Esc} (hm : EscMove e e') (h : e.estate ≠ .uninit) :
    e'.estate ≠ .uninit ∧ e'.config = e.config := by
  cases hm with
  | rateRefused mode pin rate hu => exact absurd hu h
  | addSent mode pin r hu => exact absurd hu h
  | addFailed mode pin r hu => exact absurd hu h
  | byteStored b hb hy =>
    rw [storeLineByte_frame]
    exact ⟨h, rfl⟩
  | completed st _ => exact ⟨h, rfl⟩
  | lineIgnored _ => exact ⟨h, rfl⟩
  | _ =>
    -- the moves that only name another next state
    exact ⟨nofun, rfl⟩

/-! ### The steps of the engine as moves of its registers -/

/-- R171: the table's rate is the requested one. -/
theorem rateKbit_of_rateOf {rate : U16} {r : Rate} (h : rateOf rate = some r) : rate = rateKbit r := by
  unfold rateOf at h
  split at h
  · cases h; assumption
  · split at h
    · cases h; assumption
    · split at h
      · cases h; assumption
      · split at h
        · cases h; assumption
        · cases h

/-- R171: from `E_UNINIT`, the operands latched, the ADD line is written or its write fails. -/
theorem sendAdd_move {s : State} (h : s.esc.estate = .uninit) (mode : WireMode) (pin : Byte) (r : Rate) :
    EscMove s.esc
      (sendAdd pin r { s with esc := { s.esc with emode := mode, epin := pin, erate := rateKbit r } }).esc := by
  rcases hw : writeFails (addLine pin r).length s with _ | k
  · rw [sendAdd_ok (by exact hw)]
    exact .addSent mode pin r h
  · rw [sendAdd_fails (by exact hw)]
    exact .addFailed mode pin r h

/-- R171: INIT. A busy engine makes no move. -/
theorem acceptInit_moves (pin : Byte) (rate : U16) (mode : WireMode) (s : State) :
    ReflTransGen EscMove s.esc (acceptInit pin rate mode s).esc := by
  unfold acceptInit
  cases h : s.esc.estate
  case uninit =>
    dsimp only
    cases hr : rateOf rate with
    | none => exact .single (.rateRefused mode pin rate h)
    | some r =>
      rw [rateKbit_of_rateOf hr]
      exact .single (sendAdd_move h mode pin r)
  case hsWait => exact .refl
  case ready => exact .single (.completed _ (by simp [busy, h]))
  case rspWait => exact .refl
  case fault => exact .single (.completed _ (by simp [busy, h]))

/-- R176: SEND in TEXT mode. -/
theorem acceptSendText_move {s : State} (h : s.esc.estate = .ready) (hm : s.esc.emode = .text) (thr : U11)
    (tel : Bool) : EscMove s.esc (acceptSendText thr tel s).esc := by
  rcases hw : writeFails (throttleLine s.esc.eid thr tel).length s with _ | k
  · rw [acceptSendText_ok hw]
    exact .textSent h hm
  · rw [acceptSendText_fails hw]
    exact .stopped .streamIo (by decide) (by simp [h])

/-- R177: SEND in BIN16 mode. -/
theorem acceptSendBin16_move {s : State} (h : s.esc.estate = .ready) (thr : U11) (tel : Bool) :
    EscMove s.esc (acceptSendBin16 thr tel s).esc := by
  rcases hw : writeFails 2 s with _ | k
  · rw [acceptSendBin16_ok hw]
    exact .completed .ok (by simp [busy, h])
  · rw [acceptSendBin16_fails hw]
    exact .stopped .streamIo (by decide) (by simp [h])

/-- R174: SEND. A busy engine makes no move. -/
theorem acceptSend_moves (thr : U11) (tel : Bool) (s : State) :
    ReflTransGen EscMove s.esc (acceptSend thr tel s).esc := by
  unfold acceptSend
  cases h : s.esc.estate
  case uninit => exact .single (.completed _ (by simp [busy, h]))
  case hsWait => exact .refl
  case ready =>
    dsimp only
    cases hm : s.esc.emode
    case text => exact .single (acceptSendText_move h hm thr tel)
    case bin16 => exact .single (acceptSendBin16_move h thr tel)
  case rspWait => exact .refl
  case fault => exact .single (.completed _ (by simp [busy, h]))

/-- R172: a line in the handshake. -/
theorem hsLine_move {s : State} (h : s.esc.estate = .hsWait) (ln : List Byte) (ov : Bool) :
    EscMove s.esc (hsLine ln ov (dropLine s)).esc := by
  unfold hsLine
  split
  · split
    · exact .stopped .protocol (by decide) (by simp [h])
    · exact .idGiven _ h
  · exact .lineIgnored h

/-- R178: the line held by the line reader, during a SEND. -/
theorem rspLine_move {s : State} (h : s.esc.estate = .rspWait) (ov : Bool) :
    EscMove s.esc (rspLine (s.esc.lbuf.take s.esc.llen) ov (dropLine s)).esc := by
  unfold rspLine
  split
  · exact .responseRefused h
  · rename_i c hc
    cases ov with
    | true => cases hc
    | false => exact .responseParsed c h hc

/-- R180: RSPBYTE, of a busy engine. -/
theorem acceptRspByte_move {s : State} (h : busy s.esc = true) (b : Byte) :
    EscMove s.esc (acceptRspByte b s).esc := by
  by_cases hb : b = LF
  · rcases (busy_iff _).1 h with he | he
    · simp only [acceptRspByte, hb, if_true, dropLine_esc, he]
      exact hsLine_move he _ _
    · simp only [acceptRspByte, hb, if_true, dropLine_esc, he]
      exact rspLine_move he _
  · simp only [acceptRspByte, hb, if_false]
    exact .byteStored b hb h

/-- R182: RSPERR, of a busy engine. -/
theorem responseError_move {s : State} (h : busy s.esc = true) : EscMove s.esc (raise (.engineIo s.esc.eop) s).esc := by
  have hs : s.esc.estate = .hsWait ∨ s.esc.estate = .ready ∨ s.esc.estate = .rspWait := by
    rcases (busy_iff _).1 h with he | he
    · exact .inl he
    · exact .inr (.inr he)
  simp only [raise, completeStatus_esc, escStop_esc, dropLine_esc]
  exact .stopped .streamIo (by decide) hs

/-- R180, R182: one event of the response stream, taken by a busy engine. -/
theorem acceptRsp_move {s : State} (h : busy s.esc = true) (e : StreamEv) : EscMove s.esc (acceptRsp e s).esc := by
  cases e with
  | byte b => exact acceptRspByte_move h b
  | ioError => exact responseError_move h

/-- R181: the run of the engine. -/
theorem escRun_moves (n : Nat) (s : State) : ReflTransGen EscMove s.esc (escRun n s).esc := by
  induction n generalizing s with
  | zero => exact .refl
  | succ n ih =>
    unfold escRun
    split
    · rename_i hb
      split
      · exact .refl
      · rename_i e r _
        exact .head (acceptRsp_move (s := { s with rspq := r }) hb e) (ih _)
    · exact .refl

/-! ### The decoder's registers -/

/-- R23, R24: the decoder's registers fit together. -/
def DecInv (s : State) : Prop := DecOk s.slots.length s.dec

/-- R131: a length byte, taken with no delivery pending. -/
theorem acceptLen_decInv {s : State} (h : DecInv s) (hp : true ∉ s.dec.dpub) (b : Byte) : DecInv (acceptLen b s) := by
  obtain ⟨hn, -, -, -⟩ := h
  rw [acceptLen_eq]
  split
  · exact ⟨hn, nofun, fun _ => rfl, by simp⟩
  · rename_i h0
    split
    · exact ⟨hn, nofun, fun _ => rfl, by simp⟩
    · rename_i h1
      have h2 : 2 ≤ b.toNat := by bv_omega
      exact ⟨hn, fun _ => ⟨h2, by dsimp only; omega⟩, fun hm => absurd hm hp, by simp⟩

/-- R133: FrameComplete, whatever the decoder's counter has reached. -/
theorem frameComplete_decInv {s : State} (hn : s.dec.dpub.length = s.slots.length) (hc : s.dec.dcnt ≤ 254) (h : Byte) :
    DecInv (frameComplete h s) := by
  unfold frameComplete
  split
  · split
    · exact ⟨by simp, nofun, fun _ => rfl, hc⟩
    · exact ⟨hn, nofun, fun _ => rfl, hc⟩
  · exact ⟨hn, nofun, fun _ => rfl, hc⟩

/-- R132: a payload byte, taken with no delivery pending. The length byte bounds the counter. -/
theorem acceptPayload_decInv {s : State} (h : DecInv s) (hs : s.dec.dstate = .payload) (hp : true ∉ s.dec.dpub)
    (b : Byte) : DecInv (acceptPayload b s) := by
  obtain ⟨hn, hpay, -, -⟩ := h
  obtain ⟨hlen, hcnt⟩ := hpay hs
  have hbyte := s.dec.dlen.isLt
  by_cases hlast : s.dec.dcnt + 1 = s.dec.dlen.toNat - 1
  · rw [acceptPayload_last hlast, storePayload_frame]
    exact frameComplete_decInv (by exact hn) (by dsimp only; omega) _
  · rw [acceptPayload_mid hlast, storePayload_frame]
    exact ⟨hn, fun _ => ⟨hlen, by dsimp only; omega⟩, fun hm => absurd hm hp, by dsimp only; omega⟩

/-- R135: an error on the serial stream, taken with no delivery pending. -/
theorem serialError_decInv {s : State} (h : DecInv s) (hp : true ∉ s.dec.dpub) : DecInv (raise .serialIo s) := by
  obtain ⟨hn, -, -, hc⟩ := h
  exact ⟨hn, nofun, fun hm => absurd hm hp, hc⟩

/-- R134: DELIVER. -/
theorem deliver_decInv {s : State} (h : DecInv s) (k : Nat) : DecInv (deliver k s) := by
  obtain ⟨hn, hpay, hpend, hc⟩ := h
  unfold deliver
  split
  · rename_i hk
    have hlen : s.dec.dstate = .len := hpend (List.mem_of_getElem? hk)
    exact ⟨by simpa using hn, hpay, fun _ => hlen, hc⟩
  · exact ⟨hn, hpay, hpend, hc⟩

/-- R134: the deliveries. -/
theorem deliverUpTo_decInv {s : State} (h : DecInv s) (n : Nat) : DecInv (deliverUpTo n s) := by
  induction n with
  | zero => exact h
  | succ n ih => exact deliver_decInv ih n

/-- R130: one event of the serial stream, taken where the decoder may take one. -/
theorem acceptEvent_decInv {s : State} (h : DecInv s) (ht : decTakes s.dec = true) (e : StreamEv) :
    DecInv (acceptEvent e s) := by
  obtain ⟨-, hp⟩ := (decTakes_iff _).1 ht
  cases e with
  | ioError => exact serialError_decInv h hp
  | byte b =>
    unfold acceptEvent
    cases hs : s.dec.dstate
    case len => exact acceptLen_decInv h hp b
    case payload => exact acceptPayload_decInv h hs hp b
    case fatal => exact h

/-- R130: the run of the decoder. -/
theorem decRun_decInv {s : State} (h : DecInv s) (n : Nat) : DecInv (decRun n s) := by
  induction n generalizing s with
  | zero => exact h
  | succ n ih =>
    unfold decRun
    split
    · rename_i ht
      split
      · exact h
      · exact ih (deliverUpTo_decInv (acceptEvent_decInv (by exact h) (by exact ht) _) _)
    · exact h

/-- R115: bytes that arrive on the serial stream. -/
theorem serialArrive_decInv {s : State} (h : DecInv s) (bs : List Byte) : DecInv (serialArrive bs s) :=
  decRun_decInv (deliverUpTo_decInv (by exact h) _) _

/-! ### What a step can do to the machine -/

/-- R29 to R33: what every action but reset can do, as far as the invariants speak of it: parameters and slot count stay, the
decoder's registers fit together if they did, and the engine's change by its own moves alone. -/
structure Advances (s t : State) : Prop where
  params : t.params = s.params
  slotCount : t.slots.length = s.slots.length
  decoder : DecInv s → DecInv t
  engine : ReflTransGen EscMove s.esc t.esc

/-- Where nothing is done. -/
theorem Advances.refl (s : State) : Advances s s := ⟨rfl, rfl, id, .refl⟩

/-- Where only streams, observation, loops or schedule are touched. -/
theorem Advances.of_eq {s t : State} (hp : t.params = s.params := by rfl) (hn : t.slots = s.slots := by rfl)
    (hd : t.dec = s.dec := by rfl) (he : t.esc = s.esc := by rfl) : Advances s t :=
  ⟨hp, by rw [hn], fun h => by rwa [DecInv, hn, hd], he ▸ .refl⟩

/-- One after the other. -/
theorem Advances.trans {s t u : State} (h : Advances s t) (k : Advances t u) : Advances s u :=
  ⟨k.params.trans h.params, k.slotCount.trans h.slotCount, k.decoder ∘ h.decoder, h.engine.trans k.engine⟩

/-- A step of the decoder. -/
theorem DecoderOnly.advances {s t : State} (h : DecoderOnly s t) (hd : DecInv s → DecInv t) : Advances s t := by
  obtain ⟨ht, hn⟩ := h
  have hesc : t.esc = s.esc := by rw [ht]
  exact ⟨by rw [ht], hn, hd, hesc ▸ .refl⟩

/-- A step of the engine. -/
theorem EngineOnly.advances {s t : State} (h : EngineOnly s t) (hm : ReflTransGen EscMove s.esc t.esc) :
    Advances s t := by
  refine ⟨by rw [h], by rw [h], fun hd => ?_, hm⟩
  rw [h]
  exact hd

/-- A TAKE or a PEEK. -/
theorem SlotsOnly.advances {s t : State} (h : SlotsOnly s t) : Advances s t := by
  obtain ⟨ht, hn⟩ := h
  have hesc : t.esc = s.esc := by rw [ht]
  refine ⟨by rw [ht], hn, fun hd => ?_, hesc ▸ .refl⟩
  have hdec : t.dec = s.dec := by rw [ht]
  rw [DecInv, hn, hdec]
  exact hd

/-- R151: PUBLISH. -/
theorem slotPublish_advances (k : Nat) (v : Value) (s : State) : Advances s (slotPublish k v s) where
  params := rfl
  slotCount := by simp
  decoder hd := by simpa [DecInv] using hd
  engine := .refl

/-- R171: INIT. -/
theorem acceptInit_advances (pin : Byte) (rate : U16) (mode : WireMode) (s : State) :
    Advances s (acceptInit pin rate mode s) :=
  (acceptInit_only pin rate mode s).advances (acceptInit_moves pin rate mode s)

/-- R174: SEND. -/
theorem acceptSend_advances (thr : U11) (tel : Bool) (s : State) : Advances s (acceptSend thr tel s) :=
  (acceptSend_only thr tel s).advances (acceptSend_moves thr tel s)

/-- R180, R182: one event of the response stream, taken by a busy engine. -/
theorem takeResponse_advances {s : State} (hb : busy s.esc = true) (e : StreamEv) (r : List StreamEv) :
    Advances s (acceptRsp e { s with rspq := r }) :=
  (acceptRsp_only e _).of_rspq.advances (.single (acceptRsp_move (s := { s with rspq := r }) hb e))

/-- Where `o` answers a next state, `s` advanced to it. -/
def AnswersAdvance (s : State) (o : Host.Outcome State Fault Refusal) : Prop := ∀ t, o = .next t → Advances s t

/-- A step that is always enabled. -/
theorem AnswersAdvance.next {s t : State} (h : Advances s t) : AnswersAdvance s (.next t) := by
  intro u hu
  cases hu
  exact h

/-- Log entry 3: a step that passes where it is not enabled. -/
theorem AnswersAdvance.guarded {s t : State} {p : Prop} [Decidable p] (h : p → Advances s t) :
    AnswersAdvance s (if p then .next t else .next s) := by
  split
  · exact .next (h ‹_›)
  · exact .next (.refl s)

/-- R14: an operation at a slot. -/
theorem AnswersAdvance.atSlot {f : State → State} {s : State} (h : Advances s (f s)) (k : Nat) :
    AnswersAdvance s (atSlot k s f) := by
  intro t ht
  obtain ⟨-, rfl⟩ := atSlot_next ht
  exact h

/-- R14: an operation at a consumer port. -/
theorem AnswersAdvance.atPort {f : State → State} {s : State} (h : Advances s (f s)) (k c : Nat) :
    AnswersAdvance s (atPort k c s f) := by
  intro t ht
  obtain ⟨-, -, -, rfl⟩ := atPort_next ht
  exact h

/-! ### The rows -/

/-- R131: the row DEC.LEN. -/
theorem execDecLen_advances (s : State) : AnswersAdvance s (execDecLen s) := by
  unfold execDecLen
  split
  · rename_i h
    obtain ⟨ht, -⟩ := h
    obtain ⟨-, hp⟩ := (decTakes_iff _).1 ht
    split
    · exact .next ((acceptLen_only _ _).of_rxq.advances fun hd => acceptLen_decInv (by exact hd) (by exact hp) _)
    · exact .next (.refl s)
  · exact .next (.refl s)

/-- R132: the row DEC.PAYLOAD. -/
theorem execDecPayload_advances (s : State) : AnswersAdvance s (execDecPayload s) := by
  unfold execDecPayload
  split
  · rename_i h
    obtain ⟨ht, hs⟩ := h
    obtain ⟨-, hp⟩ := (decTakes_iff _).1 ht
    split
    · exact .next ((acceptPayload_only _ _).of_rxq.advances fun hd =>
        acceptPayload_decInv (by exact hd) (by exact hs) (by exact hp) _)
    · exact .next (.refl s)
  · exact .next (.refl s)

/-- R135: the row DEC.RXERR. -/
theorem execDecRxerr_advances (s : State) : AnswersAdvance s (execDecRxerr s) := by
  unfold execDecRxerr
  split
  · rename_i ht
    obtain ⟨-, hp⟩ := (decTakes_iff _).1 ht
    split
    · exact .next ((raise_serialIo_only _).of_rxq.advances fun hd => serialError_decInv (by exact hd) (by exact hp))
    · exact .next (.refl s)
  · exact .next (.refl s)

/-- R154: the row PEEK. -/
theorem execPeek_advances (k c : Nat) (s : State) : AnswersAdvance s (execPeek k c s) := by
  refine .atPort ?_ k c
  split
  · split
    · exact .refl s
    · exact (slotPeek_only k c s).advances
  · exact .refl s

/-- R180: the row ESC.RSPBYTE. -/
theorem execEscRspbyte_advances (s : State) : AnswersAdvance s (execEscRspbyte s) := by
  unfold execEscRspbyte
  split
  · rename_i hb
    split
    · rename_i b r _
      exact .next (takeResponse_advances hb (.byte b) r)
    · exact .next (.refl s)
  · exact .next (.refl s)

/-- R182: the row ESC.RSPERR. -/
theorem execEscRsperr_advances (s : State) : AnswersAdvance s (execEscRsperr s) := by
  unfold execEscRsperr
  split
  · rename_i hb
    split
    · rename_i r _
      exact .next (takeResponse_advances hb .ioError r)
    · exact .next (.refl s)
  · exact .next (.refl s)

/-- R107, R171: the row TLINE.ADD. -/
theorem execTlineAdd_advances (pin : Byte) (rate : Rate) (s : State) : AnswersAdvance s (execTlineAdd pin rate s) :=
  .guarded fun h => (sendAdd_only pin rate _).of_esc.advances (.single (sendAdd_move h s.esc.emode pin rate))

/-- R115: the bytes of a frame. -/
theorem serialArrive_advances (bs : List Byte) (s : State) : Advances s (serialArrive bs s) :=
  (serialArrive_only bs s).advances fun hd => serialArrive_decInv hd bs

/-- R115: the bytes of a line. -/
theorem responseArrive_advances (bs : List Byte) (s : State) : Advances s (responseArrive bs s) :=
  (responseArrive_only bs s).advances (escRun_moves _ { s with rspq := s.rspq ++ bs.map StreamEv.byte })

/-- Every row. -/
theorem exec_advances (i : Instr) (s : State) : AnswersAdvance s (exec i s) := by
  cases i with
  | sframeZerolen => exact .next (serialArrive_advances _ s)
  | sframeEmpty => exact .next (serialArrive_advances _ s)
  | sframeChdata f => exact .next (serialArrive_advances _ s)
  | sframeBadlen len rest => exact .next (serialArrive_advances _ s)
  | sframeOther len hdr rest => exact .next (serialArrive_advances _ s)
  | decLen => exact execDecLen_advances s
  | decPayload => exact execDecPayload_advances s
  | decDeliver k => exact .atSlot ((deliver_only k s).advances fun hd => deliver_decInv hd k) k
  | decRxerr => exact execDecRxerr_advances s
  | publish k v => exact .atSlot (slotPublish_advances k v s) k
  | take k c => exact .atPort (f := fun s => (slotTake k c s).2) (slotTake_only k c s).advances k c
  | peek k c => exact execPeek_advances k c s
  | init pin rate mode => exact .next (acceptInit_advances pin rate mode s)
  | send thr tel => exact .next (acceptSend_advances thr tel s)
  | sendText thr tel =>
    exact .guarded fun ⟨h, hm⟩ =>
      (acceptSendText_only thr tel s).advances (.single (acceptSendText_move h hm thr tel))
  | sendBin16 thr tel =>
    exact .guarded fun ⟨h, _⟩ =>
      (acceptSendBin16_only thr tel s).advances (.single (acceptSendBin16_move h thr tel))
  | escRspbyte => exact execEscRspbyte_advances s
  | escRsperr => exact execEscRsperr_advances s
  | tlineAdd pin rate => exact execTlineAdd_advances pin rate s
  | tlineThrottle id thr tel =>
    exact .guarded fun ⟨h, hm, _⟩ =>
      (acceptSendText_only thr tel s).advances (.single (acceptSendText_move h hm thr tel))
  | hsOk rest => exact .next (responseArrive_advances _ s)
  | hsOkNoint rest => exact .next (responseArrive_advances _ s)
  | hsOther ln => exact .next (responseArrive_advances _ s)
  | rspThrottle idText payload => exact .next (responseArrive_advances _ s)
  | rspOk idText payload => exact .next (responseArrive_advances _ s)
  | rspErr idText payload => exact .next (responseArrive_advances _ s)
  | rspInvalid ln => exact .next (responseArrive_advances _ s)
  | bin16Frame thr tel =>
    exact .guarded fun ⟨h, _⟩ =>
      (acceptSendBin16_only thr tel s).advances (.single (acceptSendBin16_move h thr tel))
  | servomap f => exact .next .of_eq
  | escmap f => exact .next .of_eq

/-! ### The actions -/

/-- R210: a turn of the servo loop. -/
theorem servoTurn_advances (s : State) : Advances s (servoTurn s) := by
  unfold servoTurn
  split
  · have h := (loopRead_only s.params.readServo 0 s).advances
    dsimp only
    split
    · exact h.trans .of_eq
    · exact h
  · exact .of_eq

/-- R210, R211: a turn of the ESC loop. -/
theorem escTurn_advances (s : State) : Advances s (escTurn s) := by
  unfold escTurn
  cases s.escLoop with
  | boot =>
    dsimp only
    split
    · exact .refl s
    · exact (acceptInit_advances s.params.pin s.params.rate s.params.wireMode s).trans .of_eq
  | waitInit =>
    dsimp only
    split <;> exact .of_eq
  | get =>
    have h := (loopRead_only s.params.readEsc 1 s).advances
    dsimp only
    split
    · exact h.trans .of_eq
    · exact h
  | issue thr tel =>
    dsimp only
    split
    · exact .refl s
    · exact (acceptSend_advances thr tel s).trans .of_eq
  | waitSend =>
    dsimp only
    split <;> exact .of_eq
  | stopped => exact .refl s
  | _ =>
    -- the phase that holds a frame value
    dsimp only
    split <;> exact .of_eq

/-- An operation as its unit stands at its port. -/
theorem runUnit_advances (p : Port) (bs : List Byte) (s : State) : AnswersAdvance s (runUnit p bs s) := by
  cases hd : decode p bs with
  | ok i =>
    rw [runUnit_of_decode hd]
    exact exec_advances i s
  | error e =>
    intro t ht
    rw [runUnit_of_reject hd] at ht
    cases ht

/-- Every action but reset. -/
theorem runAct_advances {a : Act} (ha : a ≠ .rst) (s : State) : AnswersAdvance s (runAct a s) := by
  cases a with
  | rx valid err data =>
    rw [runAct, srcCycle_eq]
    exact .next .of_eq
  | rsp valid err data =>
    rw [runAct, svcCycle_eq]
    exact .next .of_eq
  | svcRead n => exact .next .of_eq
  | cmdFail c => exact .next .of_eq
  | rst => exact absurd rfl ha
  | servoLoop => exact .atPort (servoTurn_advances s) 0 0
  | escLoop => exact .atPort (escTurn_advances s) 1 0
  | unit p bs => exact runUnit_advances p bs s

/-! ### Reset -/

/-- R41: the decoder's registers after reset. -/
theorem decOk_reset (n : Nat) : DecOk n (Dec.reset n) := ⟨by simp [Dec.reset], nofun, fun _ => rfl, by simp [Dec.reset]⟩

/-- R41: the engine's registers after reset. -/
theorem escOk_reset : EscOk Esc.reset := by
  refine ⟨⟨by simp [Esc.reset], by simp [Esc.reset]⟩, ⟨by simp [Esc.reset], nofun, by simp [Esc.reset]⟩, ?_⟩
  refine ⟨fun _ => ⟨rfl, rfl⟩, by simp [Esc.reset], nofun, nofun, by simp [Esc.reset], by simp [Esc.reset]⟩

/-- R260: the reset input establishes the invariant, whatever the state was. -/
theorem inv_resetBlock (s : State) : Inv (resetBlock s) := by
  refine ⟨?_, escOk_reset⟩
  simp only [resetBlock, List.length_map]
  exact decOk_reset _

/-- Settles O11: the reset state's fields are these values. -/
theorem resetValues : Obligations.ResetValues :=
  ⟨rfl, rfl, rfl, rfl, rfl, rfl, rfl, rfl, rfl, rfl, rfl, rfl⟩

/-- Settles O9: both register sets fit together after reset. -/
theorem invAtReset : Obligations.InvAtReset :=
  ⟨by simpa [State.reset] using decOk_reset Config.nSlots, escOk_reset⟩

/-! ### The invariant and the configuration along moves -/

/-- R29 to R33: moves of the engine keep its registers fitting together. -/
theorem escOk_of_moves {e e' : Esc} (hm : ReflTransGen EscMove e e') (h : EscOk e) : EscOk e' := by
  induction hm with
  | refl => exact h
  | tail _ hm ih => exact hm.keepsOk ih

/-- R193: moves of an engine that has left `E_UNINIT` neither return there nor touch the configuration. -/
theorem config_of_moves {e e' : Esc} (hm : ReflTransGen EscMove e e') (h : e.estate ≠ .uninit) :
    e'.estate ≠ .uninit ∧ e'.config = e.config := by
  induction hm with
  | refl => exact ⟨h, rfl⟩
  | tail _ hm ih =>
    obtain ⟨hu, hc⟩ := ih
    obtain ⟨hu', hc'⟩ := hm.keepsConfig hu
    exact ⟨hu', hc'.trans hc⟩

/-- Every action but reset keeps the invariant. -/
theorem Advances.keepsInv {s t : State} (h : Advances s t) (hi : Inv s) : Inv t := by
  obtain ⟨hdec, hesc⟩ := hi
  exact ⟨h.decoder hdec, escOk_of_moves h.engine hesc⟩

/-- Every action keeps the invariant. -/
theorem runAct_keepsInv {a : Act} {s t : State} (h : runAct a s = .next t) (hi : Inv s) : Inv t := by
  by_cases ha : a = .rst
  · subst ha
    cases h
    exact inv_resetBlock s
  · exact (runAct_advances ha s t h).keepsInv hi

/-- Settles O10: with nothing scheduled the step does nothing, and every action keeps the invariant. -/
theorem stepKeepsInv : Obligations.StepKeepsInv := by
  intro s t hi h
  cases hs : s.sched with
  | nil =>
    simp only [step, stepSched, hs] at h
    cases h
    exact hi
  | cons a r =>
    rw [step_scheduled hs] at h
    exact runAct_keepsInv h hi

/-- Settles O53: the configuration stays along the engine's moves once it has left `E_UNINIT`, and reset too keeps the
parameters and the number of slots. -/
theorem configurationIsLatched : Obligations.ConfigurationIsLatched := by
  intro s t a r h
  rw [step_of_scheduled] at h
  by_cases ha : a = .rst
  · subst ha
    cases h
    exact ⟨fun _ hne => absurd rfl hne, rfl, by simp [resetBlock]⟩
  · have hadv := runAct_advances ha _ t h
    refine ⟨fun hu _ => ?_, hadv.params, hadv.slotCount⟩
    obtain ⟨-, hc⟩ := config_of_moves hadv.engine hu
    simpa [Esc.config] using hc

end Sys2Proof.Machine
end

section
/-! SUPPORT. The proofs of the statements on the order of a frame's deliveries, on the waiting of the decoder and on a failing
write: two deliveries commute, a row of the decoder passes where it is not enabled, and every form of a write is brought to the
one operation of the engine that performs it. -/

namespace Sys2Proof.Machine

/-! ### The deliveries of a frame -/

/-- R14: an operation at a slot of the block. -/
theorem atSlot_at {k : Nat} {s : State} (h : k < s.slots.length) (f : State → State) : atSlot k s f = .next (f s) :=
  if_pos h

/-- R134: where DEC.DELIVER answers a next state. -/
theorem exec_decDeliver_next {k : Nat} {s t : State} :
    exec (.decDeliver k) s = .next t ↔ k < s.slots.length ∧ t = deliver k s := by
  constructor
  · exact atSlot_next
  · rintro ⟨hk, rfl⟩
    exact atSlot_at hk _

/-- R134: a pending delivery, whether the slot exists or not. -/
theorem deliver_of_pending {k : Nat} {s : State} (h : s.dec.dpub[k]? = some true) :
    deliver k s = { s with
      slots := s.slots.modify k (Slot.published (pack s.dec.ch)),
      dec := { s.dec with dpub := s.dec.dpub.set k false } } := if_pos h

/-- R134: a delivery keeps the number of slots. -/
theorem deliver_slots_length (k : Nat) (s : State) : (deliver k s).slots.length = s.slots.length := by
  obtain ⟨-, hn, -⟩ := deliver_frame k s
  exact hn

/-- R73 (e): a delivery leaves the pending bits of the other slots alone. -/
theorem deliver_dpub_ne {j k : Nat} (h : j ≠ k) (s : State) : (deliver j s).dec.dpub[k]? = s.dec.dpub[k]? := by
  unfold deliver
  split
  · exact List.getElem?_set_ne h
  · rfl

/-- Writing to two different entries of a list, in either order. -/
theorem modify_comm {α : Type} {j k : Nat} (h : j ≠ k) (f g : α → α) (l : List α) :
    (l.modify j f).modify k g = (l.modify k g).modify j f := by
  apply List.ext_getElem?
  intro n
  by_cases hj : j = n
  · subst hj
    simp [h.symm]
  · simp [hj, List.getElem?_modify]

/-- R73 (e), R134: two deliveries, in either order: they write different slots and different pending bits, from the same
channel registers. -/
theorem deliver_comm (j k : Nat) (s : State) : deliver k (deliver j s) = deliver j (deliver k s) := by
  by_cases hjk : j = k
  · rw [hjk]
  by_cases hj : s.dec.dpub[j]? = some true
  · by_cases hk : s.dec.dpub[k]? = some true
    · have hj' : (deliver k s).dec.dpub[j]? = some true := (deliver_dpub_ne (Ne.symm hjk) s).trans hj
      have hk' : (deliver j s).dec.dpub[k]? = some true := (deliver_dpub_ne hjk s).trans hk
      rw [deliver_of_pending hk', deliver_of_pending hj', deliver_of_pending hj, deliver_of_pending hk]
      simp only [modify_comm hjk, List.set_comm _ _ hjk]
    · rw [deliver_none hk, deliver_none ((deliver_dpub_ne hjk s).trans_ne hk)]
  · rw [deliver_none hj, deliver_none ((deliver_dpub_ne (Ne.symm hjk) s).trans_ne hj)]

/-- Settles O23: a delivery keeps the slots that exist, and the two commute on the state. -/
theorem deliveriesCommute : Obligations.DeliveriesCommute := by
  intro s t u j k ht hu
  obtain ⟨hj, rfl⟩ := exec_decDeliver_next.1 ht
  obtain ⟨hk, rfl⟩ := exec_decDeliver_next.1 hu
  rw [deliver_slots_length] at hk
  refine ⟨deliver k s, exec_decDeliver_next.2 ⟨hk, rfl⟩, exec_decDeliver_next.2 ⟨?_, deliver_comm j k s⟩⟩
  rwa [deliver_slots_length]

/-! ### The rows of the decoder that are not enabled -/

/-- R131: DEC.LEN passes where it is not enabled. -/
theorem decLen_passes {s : State} (h : rowEnabled .decLen s = false) : exec .decLen s = .next s := by
  change execDecLen s = .next s
  unfold execDecLen
  split
  next hg =>
    split
    next hq => simp [rowEnabled, hg, hq, headByte] at h
    next => rfl
  next => rfl

/-- R132: DEC.PAYLOAD passes where it is not enabled. -/
theorem decPayload_passes {s : State} (h : rowEnabled .decPayload s = false) : exec .decPayload s = .next s := by
  change execDecPayload s = .next s
  unfold execDecPayload
  split
  next hg =>
    split
    next hq => simp [rowEnabled, hg, hq, headByte] at h
    next => rfl
  next => rfl

/-- R135: DEC.RXERR passes where it is not enabled. -/
theorem decRxerr_passes {s : State} (h : rowEnabled .decRxerr s = false) : exec .decRxerr s = .next s := by
  change execDecRxerr s = .next s
  unfold execDecRxerr
  split
  next hg =>
    split
    next hq => simp [rowEnabled, hg, hq, headError] at h
    next => rfl
  next => rfl

/-- R61, R136: the decoder takes no event while a delivery is pending or in `D_FATAL`. -/
theorem decTakes_eq_false {d : Dec} (h : true ∈ d.dpub ∨ d.dstate = .fatal) : decTakes d = false := by
  rw [← Bool.not_eq_true, decTakes_iff]
  rintro ⟨hlive, hnone⟩
  exact h.elim hnone hlive

/-- R16, R61, R136: with nothing to take, or while it takes none, no row of the decoder that takes an event is enabled. -/
theorem serialRows_disabled {s : State} (h : s.rxq = [] ∨ true ∈ s.dec.dpub ∨ s.dec.dstate = .fatal) :
    rowEnabled .decLen s = false ∧ rowEnabled .decPayload s = false ∧ rowEnabled .decRxerr s = false := by
  rcases h with hq | hd
  · simp [rowEnabled, hq, headByte, headError]
  · simp [rowEnabled, decTakes_eq_false hd]

/-- Settles O21: each ground disables the row, and a row that is not enabled passes. -/
theorem decoderWaits : Obligations.DecoderWaits := by
  intro s
  refine ⟨fun h => ?_, fun h => decLen_passes ?_, fun h => decPayload_passes ?_,
    fun r h => ⟨decLen_passes ?_, decPayload_passes ?_⟩, fun b r h => decRxerr_passes ?_⟩
  case refine_1 =>
    obtain ⟨hlen, hpayload, hrxerr⟩ := serialRows_disabled h
    exact ⟨decLen_passes hlen, decPayload_passes hpayload, decRxerr_passes hrxerr⟩
  all_goals simp [rowEnabled, h, headByte, headError]

/-! ### The writes of the engine -/

/-- What the caller of an operation gets when the engine stops in it. -/
def faultRet : Op → Ret
  | .init => .init .fault none
  | .send => .send .fault none

/-- R183, R241: the entry of a stream error of the engine. -/
theorem raise_engineIo (op : Op) (s : State) :
    raise (.engineIo op) s = { s with
      esc := { s.esc with estate := .fault, ecause := .streamIo, llen := 0, lovf := false, rstatus := .fault },
      trace := s.trace ++ [.escFault .streamIo], rets := s.rets ++ [faultRet op] } := by
  cases op <;> rfl

/-- R171: the table holds each rate under its own number. -/
theorem rateOf_rateKbit (r : Rate) : rateOf (rateKbit r) = some r := by cases r <;> rfl

/-- R171: INIT with a rate of the table, without an endpoint, latches its operands and writes the ADD line. -/
theorem exec_init_uninit {s : State} (h : s.esc.estate = .uninit) (pin : Byte) (r : Rate) (mode : WireMode) :
    exec (.init pin (rateKbit r) mode) s =
      .next (sendAdd pin r { s with esc := { s.esc with emode := mode, epin := pin, erate := rateKbit r } }) := by
  change Host.Outcome.next (acceptInit pin (rateKbit r) mode s) = _
  simp only [acceptInit, h, rateOf_rateKbit]

/-- R107, R171: the row of the ADD line writes it where there is no endpoint. -/
theorem exec_tlineAdd_uninit {s : State} (h : s.esc.estate = .uninit) (pin : Byte) (r : Rate) :
    exec (.tlineAdd pin r) s =
      .next (sendAdd pin r { s with esc := { s.esc with epin := pin, erate := rateKbit r } }) := if_pos h

/-- R174, R176: in TEXT mode the ready engine performs SEND, its action and its line by the one write of the line. -/
theorem exec_textForm {s : State} {thr : U11} {tel : Bool} {i : Instr}
    (hi : i = .send thr tel ∨ i = .sendText thr tel ∨ i = .tlineThrottle s.esc.eid thr tel)
    (hr : s.esc.estate = .ready) (hm : s.esc.emode = .text) : exec i s = .next (acceptSendText thr tel s) := by
  rcases hi with rfl | rfl | rfl
  · change Host.Outcome.next (acceptSend thr tel s) = _
    simp only [acceptSend, hr, hm]
  · exact if_pos ⟨hr, hm⟩
  · exact if_pos ⟨hr, hm, rfl⟩

/-- R174, R177: in BIN16 mode the ready engine performs SEND, its action and its frame by the one write of the frame. -/
theorem exec_bin16Form {s : State} {thr : U11} {tel : Bool} {i : Instr}
    (hi : i = .send thr tel ∨ i = .sendBin16 thr tel ∨ i = .bin16Frame thr tel)
    (hr : s.esc.estate = .ready) (hm : s.esc.emode = .bin16) : exec i s = .next (acceptSendBin16 thr tel s) := by
  rcases hi with rfl | rfl | rfl
  · change Host.Outcome.next (acceptSend thr tel s) = _
    simp only [acceptSend, hr, hm]
  · exact if_pos ⟨hr, hm⟩
  · exact if_pos ⟨hr, hm⟩

/-- Settles O38: each form performs one write, and the write that fails raises the engine's stream error. -/
theorem writeFailureFaults : Obligations.WriteFailureFaults := by
  intro s k
  refine ⟨fun pin r mode hu hw => ⟨?_, ?_⟩, fun thr tel i hi hr hm hw => ?_, fun thr tel i hi hr hm hw => ?_⟩
  · rw [exec_init_uninit hu, sendAdd_fails (by exact hw), raise_engineIo]
    rfl
  · rw [exec_tlineAdd_uninit hu, sendAdd_fails (by exact hw), raise_engineIo]
    rfl
  · rw [exec_textForm hi hr hm, acceptSendText_fails hw, raise_engineIo]
    rfl
  · rw [exec_bin16Form hi hr hm, acceptSendBin16_fails hw, raise_engineIo]
    rfl

end Sys2Proof.Machine
end

section
/-! SUPPORT. The proofs of the statements on the encoding: decimal text and the 16-bit frame in both directions, the
checks on the operands as propositions, every row read back from its encoding, and what decoding answers at each port. -/

namespace Sys2Proof

open Machine

/-! ### Decimal text -/

/-- R103, R105: the decimal text of a 32-bit number is read back. -/
theorem parseDec_dec {n : Nat} (h : n < 2 ^ 32) : parseDec (dec n) = some (BitVec.ofNat 32 n) := by
  obtain ⟨hpos, hten⟩ := dec_length (n := n) (k := 10) (by omega) (by omega)
  simp only [parseDec, decValue_dec]
  exact if_pos ⟨hpos, hten, dec_digits n, h⟩

/-- R103: decimal text is never empty, so text after it does not change its first digit. -/
theorem dec_head_append (n : Nat) (r : List Byte) : (dec n ++ r).head? = (dec n).head? := by
  have hpos := (dec_length (n := n) (k := n + 1) (by omega) (n.lt_succ_self.trans (Nat.lt_pow_self (by omega)))).1
  exact List.head?_append_of_ne_nil _ (List.ne_nil_of_length_pos hpos)

/-- R103: only 0 is written with a leading zero. -/
theorem eq_zero_of_dec_head {n : Nat} (h : (dec n).head? = some 0x30) : n = 0 := by
  induction n using Nat.strongRecOn with
  | _ n ih =>
    by_cases hn : n < 10
    · have hzero : ∀ m : Fin 10, (dec m).head? = some 0x30 → m.val = 0 := by decide
      exact hzero ⟨n, hn⟩ h
    · rw [dec_large (by omega), dec_head_append] at h
      have := ih (n / 10) (by omega) h
      omega

/-- Settles O56: the digits are read back to the number they were written from, ten suffice for 32 bits, and only 0 leads
with a zero. -/
theorem decimalRoundTrip : Obligations.DecimalRoundTrip := by
  intro v
  have hv := v.isLt
  obtain ⟨hpos, hten⟩ := dec_length (n := v.toNat) (k := 10) (by omega) (by omega)
  refine ⟨?_, hpos, hten, dec_digits _, fun h => BitVec.eq_of_toNat_eq (eq_zero_of_dec_head h)⟩
  rw [parseDec_dec hv, BitVec.ofNat_toNat, BitVec.setWidth_eq]

/-! ### The 16-bit frame -/

/-- R190: the mask of the field, bit by bit. -/
theorem fieldMask_bit {i : Nat} (hi : i < 16) : (0x0FFF : U16).getLsbD i = decide (i < 12) := by
  have h : ∀ j : Fin 16, (0x0FFF : U16).getLsbD j = decide (j.val < 12) := by decide
  exact h ⟨i, hi⟩

/-- R190: the mask of a nibble, bit by bit. -/
theorem nibbleMask_bit {i : Nat} (hi : i < 16) : (0x000F : U16).getLsbD i = decide (i < 4) := by
  have h : ∀ j : Fin 16, (0x000F : U16).getLsbD j = decide (j.val < 4) := by decide
  exact h ⟨i, hi⟩

/-- R190: a field, bit by bit. -/
theorem binField_bit (thr : U11) (tel : Bool) {i : Nat} (hi : i < 16) :
    (binField thr tel).getLsbD i = (thr.getLsbD i || (decide (i = 11) && tel)) := by
  have hshift : (!decide (i < 11) && decide (i - 11 = 0)) = decide (i = 11) := by
    rw [← decide_not, ← Bool.decide_and]
    exact decide_eq_decide.2 (by omega)
  simp only [binField, BitVec.getLsbD_or, BitVec.getLsbD_setWidth, BitVec.getLsbD_shiftLeft, BitVec.getLsbD_ofBool, hi,
    show i - 11 < 16 by omega, decide_true, Bool.true_and, ← Bool.and_assoc, hshift]

/-- R190: a field has twelve bits. -/
theorem binField_bit_high (thr : U11) (tel : Bool) {i : Nat} (hi : i < 16) (h : ¬ i < 12) :
    (binField thr tel).getLsbD i = false := by
  rw [binField_bit thr tel hi, BitVec.getLsbD_of_ge _ _ (by omega), decide_eq_false (by omega)]
  rfl

/-- R190: a field, then a checksum nibble above it, bit by bit. -/
theorem binFrame_bit (thr : U11) (tel : Bool) {i : Nat} (hi : i < 16) :
    (binFrame thr tel).getLsbD i =
      if i < 12 then (binField thr tel).getLsbD i else (checksum (binField thr tel)).getLsbD (i - 12) := by
  rw [binFrame, BitVec.getLsbD_or, BitVec.getLsbD_shiftLeft]
  by_cases h : i < 12
  · simp [h]
  · rw [binField_bit_high thr tel hi h]
    simp [h, hi]

/-- R190: the field of a frame. -/
theorem binFrame_field (thr : U11) (tel : Bool) : binFrame thr tel &&& 0x0FFF = binField thr tel := by
  apply BitVec.eq_of_getLsbD_eq
  intro i hi
  rw [BitVec.getLsbD_and, fieldMask_bit hi, binFrame_bit thr tel hi]
  by_cases h : i < 12
  · simp [h]
  · simp [binField_bit_high thr tel hi h, h]

/-- R190: the checksum nibble of a frame. -/
theorem binFrame_nibble (thr : U11) (tel : Bool) : binFrame thr tel >>> 12 = checksum (binField thr tel) := by
  apply BitVec.eq_of_getLsbD_eq
  intro i hi
  rw [BitVec.getLsbD_ushiftRight]
  by_cases h : i < 4
  · rw [binFrame_bit thr tel (show 12 + i < 16 by omega), if_neg (by omega), Nat.add_sub_cancel_left]
  · rw [BitVec.getLsbD_of_ge _ _ (show 16 ≤ 12 + i by omega)]
    simp only [checksum, BitVec.getLsbD_and]
    rw [nibbleMask_bit hi, decide_eq_false h, Bool.and_false]

/-- R191: every frame the engine builds verifies. -/
theorem verifyFrame_binFrame (thr : U11) (tel : Bool) : verifyFrame (binFrame thr tel) = true := by
  rw [verifyFrame, binFrame_field, binFrame_nibble, beq_self_eq_true]

/-- R111: the throttle of a frame is read back. -/
theorem frameThr_binFrame (thr : U11) (tel : Bool) : frameThr (binFrame thr tel) = thr := by
  apply BitVec.eq_of_getLsbD_eq
  intro i hi
  have hne : i ≠ 11 := by omega
  simp only [frameThr, BitVec.getLsbD_extractLsb', Nat.zero_add]
  rw [binFrame_bit thr tel (by omega), if_pos (by omega), binField_bit thr tel (by omega)]
  simp [hi, hne]

/-- R111: the telemetry bit of a frame is read back. -/
theorem frameTel_binFrame (thr : U11) (tel : Bool) : frameTel (binFrame thr tel) = tel := by
  rw [frameTel, binFrame_bit thr tel (by omega), if_pos (by omega), binField_bit thr tel (by omega)]
  simp

/-- R111: the two fields of 16 bits are their low twelve. -/
theorem binField_of_fields (fr : U16) : binField (frameThr fr) (frameTel fr) = fr &&& 0x0FFF := by
  apply BitVec.eq_of_getLsbD_eq
  intro i hi
  rw [binField_bit _ _ hi, BitVec.getLsbD_and, fieldMask_bit hi]
  simp only [frameThr, frameTel, BitVec.getLsbD_extractLsb', Nat.zero_add]
  rcases Nat.lt_trichotomy i 11 with h | rfl | h
  · simp [h, show i ≠ 11 by omega, show i < 12 by omega]
  · simp
  · simp [show ¬ i < 11 by omega, show i ≠ 11 by omega, show ¬ i < 12 by omega]

/-- R111, R191: a frame that verifies is the one its fields build. -/
theorem binFrame_of_verifyFrame {fr : U16} (h : verifyFrame fr = true) : binFrame (frameThr fr) (frameTel fr) = fr := by
  have hsum : checksum (fr &&& 0x0FFF) = fr >>> 12 := by simpa [verifyFrame] using h
  apply BitVec.eq_of_getLsbD_eq
  intro i hi
  rw [binFrame_bit _ _ hi, binField_of_fields, hsum, BitVec.getLsbD_and, fieldMask_bit hi, BitVec.getLsbD_ushiftRight]
  split
  · simp [*]
  · rw [show 12 + (i - 12) = i by omega]

/-! ### The checks on the operands -/

/-- R96: the operands of SFRAME.BADLEN. -/
theorem wf_sframeBadlen {len : Byte} {rest : List Byte} :
    (Instr.sframeBadlen len rest).wf = true ↔
      2 ≤ len.toNat ∧ len ≠ Config.lenChdata ∧ rest.length = len.toNat - 2 := by
  simp [Instr.wf, and_assoc]

/-- R96: the operands of SFRAME.OTHER. -/
theorem wf_sframeOther {len hdr : Byte} {rest : List Byte} :
    (Instr.sframeOther len hdr rest).wf = true ↔
      2 ≤ len.toNat ∧ hdr ≠ Config.hdrChdata ∧ rest.length = len.toNat - 2 := by
  simp [Instr.wf, and_assoc]

/-- R109: the operand of HS.OK. -/
theorem wf_hsOk {rest : List Byte} :
    (Instr.hsOk rest).wf = true ↔
      noLf rest = true ∧ fits (txtOk ++ rest) = true ∧ ∃ v, trailingInt (txtOk ++ rest) = some v := by
  simp [Instr.wf, and_assoc, Option.isSome_iff_exists]

/-- R113: the operand of HS.OK_NOINT. -/
theorem wf_hsOkNoint {rest : List Byte} :
    (Instr.hsOkNoint rest).wf = true ↔
      noLf rest = true ∧ fits (txtOk ++ rest) = true ∧ trailingInt (txtOk ++ rest) = none := by
  simp [Instr.wf, and_assoc]

/-- R113: the operand of HS.OTHER. -/
theorem wf_hsOther {ln : List Byte} :
    (Instr.hsOther ln).wf = true ↔ noLf ln = true ∧ (fits ln = false ∨ startsOk ln = false) := by
  simp [Instr.wf]

/-- R113: the operand of RSP.INVALID. -/
theorem wf_rspInvalid {ln : List Byte} :
    (Instr.rspInvalid ln).wf = true ↔ noLf ln = true ∧ (fits ln = false ∨ parseCommand ln = none) := by
  simp [Instr.wf]

/-- R110: the response of a kind. -/
def responseOf (k : Kind) (idText payload : List Byte) : Instr :=
  match k with
  | .throttle => .rspThrottle idText payload
  | .ok => .rspOk idText payload
  | .err => .rspErr idText payload

/-- R110: the check on the operands of a response. -/
theorem wf_responseOf_eq (k : Kind) (i p : List Byte) : (responseOf k i p).wf = wfResponse k i p := by cases k <;> rfl

/-- R110: the operands of a response. -/
theorem wf_responseOf {k : Kind} {i p : List Byte} :
    (responseOf k i p).wf = true ↔
      (∃ id, parseDec i = some id) ∧ noLf p = true ∧ fits (rspText k i p) = true := by
  rw [wf_responseOf_eq]
  simp [wfResponse, and_assoc, Option.isSome_iff_exists]

/-- R101, R110: a response's encoding is its line. -/
theorem encode_responseOf (k : Kind) (i p : List Byte) :
    encode (responseOf k i p) = (.rspLine, rspText k i p ++ [LF]) := by cases k <;> rfl

/-- R110: the text of a response is of that response's class. -/
theorem classifyRsp_responseOf {k : Kind} {i p : List Byte} (h : (responseOf k i p).wf = true) :
    classifyRsp (rspText k i p) = responseOf k i p := by
  rw [wf_responseOf_eq] at h
  rw [classifyRsp_rspText h]
  cases k <;> rfl

/-! ### Decoding what was encoded, port by port -/

/-- The encoding of `i` decodes to `i`. -/
def ReadsBack (i : Instr) : Prop := decode (portOf i) (encodeBytes i) = .ok i

/-- R5: the length-prefixed framing is the one that is read. -/
theorem decode_serial (bs : List Byte) : decode (.serial .lengthPrefixed) bs = decodeSerial bs := rfl

/-- R93, R95: a channel-data frame. -/
theorem sframeChdata_readsBack (f : ChannelFrame) : ReadsBack (.sframeChdata f) := by
  refine (decode_serial _).trans ?_
  rw [encodeBytes, encodeFrame, decodeSerial_two (by decide) (by simp [Config.lenChdata]), frameOfBytes_chanBytes]
  rfl

/-- R96: a frame of header 0x40 and another length. -/
theorem sframeBadlen_readsBack {len : Byte} {rest : List Byte} (h : (Instr.sframeBadlen len rest).wf = true) :
    ReadsBack (.sframeBadlen len rest) := by
  obtain ⟨hlen, hne, hrest⟩ := wf_sframeBadlen.1 h
  refine (decode_serial _).trans ?_
  rw [encodeBytes, decodeSerial_two hlen hrest, if_pos rfl, if_neg hne]

/-- R96: a frame of another header. -/
theorem sframeOther_readsBack {len hdr : Byte} {rest : List Byte} (h : (Instr.sframeOther len hdr rest).wf = true) :
    ReadsBack (.sframeOther len hdr rest) := by
  obtain ⟨hlen, hne, hrest⟩ := wf_sframeOther.1 h
  refine (decode_serial _).trans ?_
  rw [encodeBytes, decodeSerial_two hlen hrest, if_neg hne]

/-- R134: a delivery. -/
theorem decDeliver_readsBack {k : Nat} (h : k < 256) : ReadsBack (.decDeliver k) := by
  simp [ReadsBack, portOf, encodeBytes, decode, Nat.mod_eq_of_lt h]

/-- R151: a PUBLISH. -/
theorem publish_readsBack {k : Nat} (h : k < 256) (v : Value) : ReadsBack (.publish k v) := by
  have hlen : exactly 28 (valueBytes v) = .ok () := exactly_ok.2 (by simp [valueBytes])
  simp [ReadsBack, portOf, encodeBytes, decode, hlen, bytesNat_valueBytes, Nat.mod_eq_of_lt h]

/-- R152: a TAKE. -/
theorem take_readsBack {k c : Nat} (hk : k < 256) (hc : c < 256) : ReadsBack (.take k c) := by
  simp [ReadsBack, portOf, encodeBytes, decode, Nat.mod_eq_of_lt hk, Nat.mod_eq_of_lt hc]

/-- R154: a PEEK. -/
theorem peek_readsBack {k c : Nat} (hk : k < 256) (hc : c < 256) : ReadsBack (.peek k c) := by
  simp [ReadsBack, portOf, encodeBytes, decode, Nat.mod_eq_of_lt hk, Nat.mod_eq_of_lt hc]

/-- R30: a wire mode is read back from its bit. -/
theorem modeOfBit_bitOfMode (m : WireMode) : modeOfBit (bitOfMode m)[0] = m := by cases m <;> rfl

/-- R39: a boolean signal is read back from its byte. -/
theorem bitByte_bit (b : Bool) : (bitByte b)[0] = b := by cases b <;> rfl

/-- R171: INIT at the operation port. -/
theorem init_readsBack (pin : Byte) (rate : U16) (mode : WireMode) : ReadsBack (.init pin rate mode) := by
  simp [ReadsBack, portOf, encodeBytes, decode, decodeOp, modeOfBit_bitOfMode]

/-- R174: SEND at the operation port. -/
theorem send_readsBack (thr : U11) (tel : Bool) : ReadsBack (.send thr tel) := by
  simp [ReadsBack, portOf, encodeBytes, decode, decodeOp, thrBytes, thrOfBytes_thrBytes, bitByte_bit]

/-- R176: the action of SEND in TEXT mode. -/
theorem sendText_readsBack (thr : U11) (tel : Bool) : ReadsBack (.sendText thr tel) := by
  simp [ReadsBack, portOf, encodeBytes, decode, decodeSendIn, thrBytes, thrOfBytes_thrBytes, bitByte_bit]

/-- R177: the action of SEND in BIN16 mode. -/
theorem sendBin16_readsBack (thr : U11) (tel : Bool) : ReadsBack (.sendBin16 thr tel) := by
  simp [ReadsBack, portOf, encodeBytes, decode, decodeSendIn, thrBytes, thrOfBytes_thrBytes, bitByte_bit]

/-- R101: a unit of the command stream in TEXT mode is decoded by its line. -/
theorem decode_cmdText {ln : List Byte} (h : noLf ln = true) : decode .cmdText (ln ++ [LF]) = decodeCmdText ln := by
  simp only [decode, lineOf_append h]

/-- R101: a unit of the response stream in the handshake is classified by its line. -/
theorem decode_hsLine {ln : List Byte} (h : noLf ln = true) : decode .hsLine (ln ++ [LF]) = .ok (classifyHs ln) := by
  simp only [decode, lineOf_append h]

/-- R101: a unit of the response stream during a SEND is classified by its line. -/
theorem decode_rspLine {ln : List Byte} (h : noLf ln = true) : decode .rspLine (ln ++ [LF]) = .ok (classifyRsp ln) := by
  simp only [decode, lineOf_append h]

/-- R107: the line of an ADD command, without its LF. -/
theorem decodeCmdText_add (r : List Byte) : decodeCmdText (txtAdd ++ SP :: r) = decodeAdd r := by
  simp only [decodeCmdText, splitSpace_append r (show SP ∉ txtAdd by decide), if_true]

/-- R108: the line of a THROTTLE command, without its LF. -/
theorem decodeCmdText_throttle (r : List Byte) : decodeCmdText (txtThrottle ++ SP :: r) = decodeThrottle r := by
  simp only [decodeCmdText, splitSpace_append r (show SP ∉ txtThrottle by decide),
    if_neg (show txtThrottle ≠ txtAdd by decide), if_true]

/-- R107: an ADD line. -/
theorem tlineAdd_readsBack (pin : Byte) (r : Rate) : ReadsBack (.tlineAdd pin r) := by
  obtain ⟨ln, hbytes, hlf⟩ := Laws.UnitShape.tlineAdd pin r rfl
  have hln : ln = txtAdd ++ SP :: (dec pin.toNat ++ SP :: dec (speedOf r).toNat) :=
    List.append_cancel_right (hbytes.symm.trans (by simp [encodeBytes, addLine]))
  rw [ReadsBack, hbytes]
  exact (decode_cmdText (noLf_iff.2 hlf)).trans (by rw [hln, decodeCmdText_add, decodeAdd_dec])

/-- R108: a THROTTLE line. -/
theorem tlineThrottle_readsBack (id : U32) (thr : U11) (tel : Bool) : ReadsBack (.tlineThrottle id thr tel) := by
  obtain ⟨ln, hbytes, hlf⟩ := Laws.UnitShape.tlineThrottle id thr tel rfl
  have hln : ln = txtThrottle ++ SP :: (dec id.toNat ++ SP :: (dec thr.toNat ++ SP :: boolStr tel)) :=
    List.append_cancel_right (hbytes.symm.trans (by simp [encodeBytes, throttleLine]))
  rw [ReadsBack, hbytes]
  exact (decode_cmdText (noLf_iff.2 hlf)).trans (by rw [hln, decodeCmdText_throttle, decodeThrottle_dec])

/-- R111: a 16-bit frame. -/
theorem bin16Frame_readsBack (thr : U11) (tel : Bool) : ReadsBack (.bin16Frame thr tel) := by
  change decodeCmdBin [lowByte (binFrame thr tel), highByte (binFrame thr tel)] = _
  simp only [decodeCmdBin, joinBytes_bytes, verifyFrame_binFrame, frameThr_binFrame, frameTel_binFrame, if_true]

/-- R109, R113: a handshake line that starts with "OK" and fits, by its trailing integer. -/
theorem classifyHs_ok {rest : List Byte} (hf : fits (txtOk ++ rest) = true) :
    classifyHs (txtOk ++ rest) = if (trailingInt (txtOk ++ rest)).isSome then .hsOk rest else .hsOkNoint rest := by
  have hok : startsOk (txtOk ++ rest) = true := by simp [startsOk, txtOk]
  have hdrop : (txtOk ++ rest).drop 2 = rest := rfl
  simp only [classifyHs, hf, hok, hdrop, Bool.and_self, if_true]

/-- R113: any other handshake line. -/
theorem classifyHs_other {ln : List Byte} (h : fits ln = false ∨ startsOk ln = false) : classifyHs ln = .hsOther ln :=
  if_neg (by rcases h with h | h <;> simp [h])

/-- R109: a handshake answer with an id. -/
theorem hsOk_readsBack {rest : List Byte} (h : (Instr.hsOk rest).wf = true) : ReadsBack (.hsOk rest) := by
  obtain ⟨hlf, hf, v, hv⟩ := wf_hsOk.1 h
  refine (decode_hsLine (noLf_iff.2 (okLine_noLf hlf))).trans ?_
  rw [classifyHs_ok hf, hv, Option.isSome_some, if_pos rfl]

/-- R113: a handshake answer without one. -/
theorem hsOkNoint_readsBack {rest : List Byte} (h : (Instr.hsOkNoint rest).wf = true) :
    ReadsBack (.hsOkNoint rest) := by
  obtain ⟨hlf, hf, hv⟩ := wf_hsOkNoint.1 h
  refine (decode_hsLine (noLf_iff.2 (okLine_noLf hlf))).trans ?_
  rw [classifyHs_ok hf, hv, Option.isSome_none, if_neg Bool.false_ne_true]

/-- R113: any other line of the handshake. -/
theorem hsOther_readsBack {ln : List Byte} (h : (Instr.hsOther ln).wf = true) : ReadsBack (.hsOther ln) := by
  obtain ⟨hlf, ho⟩ := wf_hsOther.1 h
  exact (decode_hsLine hlf).trans (by rw [classifyHs_other ho])

/-- R110: a response of any kind. -/
theorem responseOf_readsBack {k : Kind} {i p : List Byte} (h : (responseOf k i p).wf = true) :
    decode .rspLine (rspText k i p ++ [LF]) = .ok (responseOf k i p) := by
  have hlf : noLf (rspText k i p) = true := noLf_iff.2 (rspText_noLf ((wf_responseOf_eq k i p).symm.trans h))
  rw [decode_rspLine hlf, classifyRsp_responseOf h]

/-- R113: a line that is no response. -/
theorem rspInvalid_readsBack {ln : List Byte} (h : (Instr.rspInvalid ln).wf = true) : ReadsBack (.rspInvalid ln) := by
  obtain ⟨hlf, hp⟩ := wf_rspInvalid.1 h
  exact (decode_rspLine hlf).trans (by rw [classifyRsp_invalid hp])

/-- R212: a frame at the servo mapping. -/
theorem servomap_readsBack (f : ChannelFrame) : ReadsBack (.servomap f) := by
  simp only [ReadsBack, portOf, encodeBytes, decode, frameOfBytes_chanBytes]

/-- R213: a frame at the ESC mapping. -/
theorem escmap_readsBack (f : ChannelFrame) : ReadsBack (.escmap f) := by
  simp only [ReadsBack, portOf, encodeBytes, decode, frameOfBytes_chanBytes]

/-- Settles O2, row by row. -/
theorem decodeOfEncode : Obligations.DecodeOfEncode := by
  intro i h
  change ReadsBack i
  cases i with
  | sframeZerolen => rfl
  | sframeEmpty => rfl
  | sframeChdata f => exact sframeChdata_readsBack f
  | sframeBadlen len rest => exact sframeBadlen_readsBack h
  | sframeOther len hdr rest => exact sframeOther_readsBack h
  | decLen => rfl
  | decPayload => rfl
  | decDeliver k => exact decDeliver_readsBack (by simpa [Instr.wf] using h)
  | decRxerr => rfl
  | publish k v => exact publish_readsBack (by simpa [Instr.wf] using h) v
  | take k c =>
    obtain ⟨hk, hc⟩ : k < 256 ∧ c < 256 := by simpa [Instr.wf] using h
    exact take_readsBack hk hc
  | peek k c =>
    obtain ⟨hk, hc⟩ : k < 256 ∧ c < 256 := by simpa [Instr.wf] using h
    exact peek_readsBack hk hc
  | init pin rate mode => exact init_readsBack pin rate mode
  | send thr tel => exact send_readsBack thr tel
  | sendText thr tel => exact sendText_readsBack thr tel
  | sendBin16 thr tel => exact sendBin16_readsBack thr tel
  | escRspbyte => rfl
  | escRsperr => rfl
  | tlineAdd pin r => exact tlineAdd_readsBack pin r
  | tlineThrottle id thr tel => exact tlineThrottle_readsBack id thr tel
  | hsOk rest => exact hsOk_readsBack h
  | hsOkNoint rest => exact hsOkNoint_readsBack h
  | hsOther ln => exact hsOther_readsBack h
  | rspThrottle idText payload => exact responseOf_readsBack (k := .throttle) h
  | rspOk idText payload => exact responseOf_readsBack (k := .ok) h
  | rspErr idText payload => exact responseOf_readsBack (k := .err) h
  | rspInvalid ln => exact rspInvalid_readsBack h
  | bin16Frame thr tel => exact bin16Frame_readsBack thr tel
  | servomap f => exact servomap_readsBack f
  | escmap f => exact escmap_readsBack f


/-! ### What decoding answers -/

/-- The unit `bs` at `p` is the encoding of `i`, whose operands are ones it can carry. -/
def IsEncoding (p : Port) (bs : List Byte) (i : Instr) : Prop := i.wf = true ∧ encode i = (p, bs)

/-- R91, R96: a serial frame. -/
theorem decodeSerial_isEncoding {bs : List Byte} {i : Instr} (h : decodeSerial bs = .ok i) :
    IsEncoding (.serial .lengthPrefixed) bs i := by
  rcases decodeSerial_ok h with ⟨rfl, rfl⟩ | ⟨rfl, rfl⟩ | ⟨len, hdr, rest, rfl, hlen, hrest⟩
  · exact ⟨rfl, rfl⟩
  · exact ⟨rfl, rfl⟩
  · rw [decodeSerial_two hlen hrest] at h
    by_cases hhdr : hdr = Config.hdrChdata
    · rw [if_pos hhdr] at h
      by_cases hch : len = Config.lenChdata
      · obtain ⟨f, hf, hbytes, -⟩ := frameOfBytes_of_length (bs := rest) (by rw [hrest, hch]; rfl)
        rw [if_pos hch, hf] at h
        cases h
        exact ⟨rfl, by simp [encode, portOf, encodeBytes, encodeFrame, hbytes, hch, hhdr]⟩
      · rw [if_neg hch] at h
        cases h
        exact ⟨wf_sframeBadlen.2 ⟨hlen, hch, hrest⟩, by rw [hhdr]; rfl⟩
    · rw [if_neg hhdr] at h
      cases h
      exact ⟨wf_sframeOther.2 ⟨hlen, hhdr, hrest⟩, rfl⟩

/-- R107, R108: a line of the command stream. -/
theorem decodeCmdText_isEncoding {ln : List Byte} {i : Instr} (h : decodeCmdText ln = .ok i) :
    IsEncoding .cmdText (ln ++ [LF]) i := by
  unfold decodeCmdText at h
  split at h
  · cases h
  · rename_i w r hs
    obtain ⟨rfl, -⟩ := splitSpace_some hs
    split at h
    · rename_i hw
      obtain ⟨pin, rate, rfl, rfl⟩ := decodeAdd_ok h
      exact ⟨rfl, by simp [encode, portOf, encodeBytes, addLine, hw]⟩
    · split at h
      · rename_i hw
        obtain ⟨id, thr, tel, rfl, rfl⟩ := decodeThrottle_ok h
        exact ⟨rfl, by simp [encode, portOf, encodeBytes, throttleLine, hw]⟩
      · cases h

/-- R111, R191: a 16-bit frame. -/
theorem decodeCmdBin_isEncoding {bs : List Byte} {i : Instr} (h : decodeCmdBin bs = .ok i) :
    IsEncoding .cmdBin bs i := by
  unfold decodeCmdBin at h
  split at h
  · rename_i lo hi
    split at h
    · rename_i hv
      cases h
      exact ⟨rfl, by simp [encode, portOf, encodeBytes, binBytes, binFrame_of_verifyFrame hv]⟩
    · cases h
  · split at h <;> cases h

/-- R109: a line that starts with "OK". -/
theorem startsOk_iff {ln : List Byte} : startsOk ln = true ↔ ∃ rest, ln = txtOk ++ rest := by
  constructor
  · intro h
    exact ⟨ln.drop 2, by rw [← eq_of_beq h, List.take_append_drop]⟩
  · rintro ⟨rest, rfl⟩
    simp [startsOk, txtOk]

/-- R109, R113: a line of the handshake. -/
theorem classifyHs_isEncoding {ln : List Byte} (h : noLf ln = true) :
    IsEncoding .hsLine (ln ++ [LF]) (classifyHs ln) := by
  by_cases hc : fits ln = true ∧ startsOk ln = true
  · obtain ⟨hf, hok⟩ := hc
    obtain ⟨rest, rfl⟩ := startsOk_iff.1 hok
    have hlf : noLf rest = true := noLf_iff.2 fun hm => noLf_iff.1 h (List.mem_append_right _ hm)
    rw [classifyHs_ok hf]
    cases hv : trailingInt (txtOk ++ rest) with
    | some v => exact ⟨wf_hsOk.2 ⟨hlf, hf, v, hv⟩, rfl⟩
    | none => exact ⟨wf_hsOkNoint.2 ⟨hlf, hf, hv⟩, rfl⟩
  · have ho : fits ln = false ∨ startsOk ln = false := by
      rwa [not_and_or, Bool.not_eq_true, Bool.not_eq_true] at hc
    rw [classifyHs_other ho]
    exact ⟨wf_hsOther.2 ⟨h, ho⟩, rfl⟩

/-- R110, R113: a line of a response. -/
theorem classifyRsp_isEncoding {ln : List Byte} (h : noLf ln = true) :
    IsEncoding .rspLine (ln ++ [LF]) (classifyRsp ln) := by
  cases hp : parseCommand ln with
  | none =>
    rw [classifyRsp_invalid (.inr hp)]
    exact ⟨wf_rspInvalid.2 ⟨h, .inr hp⟩, rfl⟩
  | some c =>
    cases hf : fits ln with
    | false =>
      rw [classifyRsp_invalid (.inl hf)]
      exact ⟨wf_rspInvalid.2 ⟨h, .inl hf⟩, rfl⟩
    | true =>
      obtain ⟨idText, hid, rfl⟩ := parseCommand_some hp
      have hlf : noLf c.payload = true :=
        noLf_iff.2 fun hm => noLf_iff.1 h (List.mem_append_right _ hm)
      have hwf : (responseOf c.kind idText c.payload).wf = true := wf_responseOf.2 ⟨⟨c.id, hid⟩, hlf, hf⟩
      rw [classifyRsp_responseOf hwf]
      exact ⟨hwf, encode_responseOf ..⟩

/-- R101: what decoding a unit of the command stream in TEXT mode, in the handshake or during a SEND has found. -/
theorem decode_line_ok {p : Port} {bs : List Byte} {i : Instr} (hp : p = .cmdText ∨ p = .hsLine ∨ p = .rspLine)
    (h : decode p bs = .ok i) : ∃ ln, bs = ln ++ [LF] ∧ noLf ln = true := by
  rcases hl : lineOf bs with e | ln
  · rcases hp with rfl | rfl | rfl <;> simp [decode, hl] at h
  · exact ⟨ln, lineOf_ok hl⟩

/-- R91 to R111: what decoding answers on a stream is encoded by the unit that was decoded. -/
theorem decode_stream_isEncoding {p : Port} {bs : List Byte} {i : Instr}
    (hp : p = .serial .lengthPrefixed ∨ p = .cmdText ∨ p = .cmdBin ∨ p = .hsLine ∨ p = .rspLine)
    (h : decode p bs = .ok i) : IsEncoding p bs i := by
  rcases hp with rfl | rfl | rfl | rfl | rfl
  · exact decodeSerial_isEncoding h
  · obtain ⟨ln, rfl, hlf⟩ := decode_line_ok (.inl rfl) h
    rw [decode_cmdText hlf] at h
    exact decodeCmdText_isEncoding h
  · exact decodeCmdBin_isEncoding h
  · obtain ⟨ln, rfl, hlf⟩ := decode_line_ok (.inr (.inl rfl)) h
    rw [decode_hsLine hlf] at h
    cases h
    exact classifyHs_isEncoding hlf
  · obtain ⟨ln, rfl, hlf⟩ := decode_line_ok (.inr (.inr rfl)) h
    rw [decode_rspLine hlf] at h
    cases h
    exact classifyRsp_isEncoding hlf

/-- Settles O4, stream by stream. -/
theorem encodeOfDecode : Obligations.EncodeOfDecode := by
  intro p bs i hp h
  obtain ⟨-, henc⟩ := decode_stream_isEncoding hp h
  exact henc

/-- Where decoding rejects by either of two names, it answers nothing. -/
theorem rejects_both {c : Prop} [Decidable c] {e e' : Reject} {i : Instr} :
    (if c then Except.error e else Except.error e') ≠ .ok i := by
  split <;> exact nofun

/-- R236: a cycle in which the row `x` wins over the row `y` answers one of the two. -/
theorem cycle_answers {c v : Prop} [Decidable c] [Decidable v] {x y i : Instr} {e : Reject}
    (h : (if c then Except.ok x else if v then Except.ok y else Except.error e) = .ok i) : i = x ∨ i = y := by
  split at h
  · cases h
    exact .inl rfl
  · split at h
    · cases h
      exact .inr rfl
    · cases h

/-- R38: a cycle of the decoder's port is one of its three rows that take an event. -/
theorem decodeRx_ok {b : Byte} {i : Instr} (h : decodeRx b = .ok i) :
    i = .decRxerr ∨ i = .decLen ∨ i = .decPayload := by
  unfold decodeRx at h
  split at h
  · exact (cycle_answers h).imp_right .inl
  · split at h
    · exact (cycle_answers h).imp_right .inr
    · cases h

/-- R39: a cycle of the response port is one of its two rows. -/
theorem decodeRsp_ok {b : Byte} {i : Instr} (h : decodeRsp b = .ok i) : i = .escRsperr ∨ i = .escRspbyte :=
  cycle_answers h

/-- R39, R114: a cycle of the operation port is an INIT or a SEND. -/
theorem decodeOp_ok {bs : List Byte} {i : Instr} (h : decodeOp bs = .ok i) :
    (∃ thr tel, i = .send thr tel) ∨ ∃ pin rate mode, i = .init pin rate mode := by
  unfold decodeOp at h
  split at h
  · split at h
    · cases h
      exact .inl ⟨_, _, rfl⟩
    · cases h
      exact .inr ⟨_, _, _, rfl⟩
  · exact absurd h rejects_both

/-- R174: an action of SEND. -/
theorem decodeSendIn_ok {m : WireMode} {bs : List Byte} {i : Instr} (h : decodeSendIn m bs = .ok i) :
    ∃ thr tel, i = .sendText thr tel ∨ i = .sendBin16 thr tel := by
  unfold decodeSendIn at h
  split at h
  · split at h
    · cases h
      exact ⟨_, _, .inl rfl⟩
    · cases h
      exact ⟨_, _, .inr rfl⟩
  · exact absurd h rejects_both

/-- Log entry 6: an index that stands in a byte is below 256. -/
theorem byteIndex_lt (b : Byte) : decide (b.toNat < 256) = true := decide_eq_true b.isLt

/-- Settles O3: on a stream the unit is the encoding of the answer, an index at a port is a byte, and the other operands
at a port are bounded by their types. -/
theorem decodedIsWellFormed : Obligations.DecodedIsWellFormed := by
  intro p bs i h
  have hstream (hp) : i.wf = true := (decode_stream_isEncoding hp h).1
  cases p with
  | serial fr =>
    by_cases hfr : fr = .lengthPrefixed
    · exact hstream (by simp [hfr])
    · rw [decode_otherFraming hfr] at h
      cases h
  | rx =>
    simp only [decode] at h
    split at h
    · rcases decodeRx_ok h with rfl | rfl | rfl <;> rfl
    · exact absurd h rejects_both
  | deliver =>
    simp only [decode] at h
    split at h
    · cases h
      exact byteIndex_lt _
    · exact absurd h rejects_both
  | pub =>
    simp only [decode] at h
    split at h
    · cases h
    · split at h
      · cases h
        exact byteIndex_lt _
      · cases h
  | take =>
    simp only [decode] at h
    split at h
    · cases h
      simp only [Instr.wf, byteIndex_lt, Bool.and_self]
    · exact absurd h rejects_both
  | peek =>
    simp only [decode] at h
    split at h
    · cases h
      simp only [Instr.wf, byteIndex_lt, Bool.and_self]
    · exact absurd h rejects_both
  | op => rcases decodeOp_ok h with ⟨thr, tel, rfl⟩ | ⟨pin, rate, mode, rfl⟩ <;> rfl
  | sendIn m => obtain ⟨thr, tel, rfl | rfl⟩ := decodeSendIn_ok h <;> rfl
  | rsp =>
    simp only [decode] at h
    split at h
    · rcases decodeRsp_ok h with rfl | rfl <;> rfl
    · exact absurd h rejects_both
  | cmdText => exact hstream (by simp)
  | cmdBin => exact hstream (by simp)
  | hsLine => exact hstream (by simp)
  | rspLine => exact hstream (by simp)
  | servo =>
    simp only [decode] at h
    split at h
    · cases h
      rfl
    · exact absurd h rejects_both
  | escFn =>
    simp only [decode] at h
    split at h
    · cases h
      rfl
    · exact absurd h rejects_both

/-- Settles O5: the length byte and the header choose the class, and the channels of 28 data bytes are their pairs. -/
theorem serialFrameClasses : Obligations.SerialFrameClasses := by
  intro len bs hwhole
  refine ⟨?_, ?_, ?_⟩
  · rintro rfl
    obtain rfl : bs = [] := by simpa [frameLength] using hwhole
    rfl
  · rintro rfl
    obtain rfl : bs = [] := by simpa [frameLength] using hwhole
    rfl
  · rintro hdr rest hlen rfl
    have hrest : rest.length = len.toNat - 2 := by
      rw [frameLength_two hlen] at hwhole
      simp only [List.length_cons] at hwhole
      omega
    rw [decode_serial, decodeSerial_two hlen hrest]
    refine ⟨?_, ?_, ?_⟩
    · rintro rfl rfl
      obtain ⟨f, hf, -, hlist⟩ := frameOfBytes_of_length (bs := rest) hrest
      refine ⟨f, by rw [hf]; rfl, fun j hj => ?_⟩
      have hpair := bytesChans_get (bs := rest) (j := j) (by rw [hrest]; simp; omega)
      have hchan : f[j] = joinBytes (rest.getD (2 * j + 1) 0) (rest.getD (2 * j) 0) := by
        rw [← hlist] at hpair
        simpa [hj] using hpair
      rw [hchan, joinBytes_toNat]
    · intro hne hhdr
      exact (if_pos hhdr).trans (if_neg hne)
    · intro hhdr
      exact if_neg hhdr

/-- Settles O1: each word is short, and decoding it is a computation. -/
theorem specWordsDecode : Obligations.SpecWordsDecode :=
  ⟨rfl, rfl, rfl, rfl, rfl, rfl, rfl, rfl, rfl, rfl, rfl⟩

end Sys2Proof
end

section
/-! SUPPORT. The proofs of the statements on serial frames: a frame that an idle decoder skips, and the arrival of bytes
as one unit against the decoder's single steps. -/

namespace Sys2Proof.Machine

/-! ### Frames at a frame boundary -/

/-- R134: at a frame boundary no delivery is pending. -/
theorem DecIdle.none_pending {s : State} (h : DecIdle s) : true ∉ s.dec.dpub := by
  obtain ⟨-, hp, -⟩ := h
  simp [hp]

/-- R61: at a frame boundary the serial stream is empty. -/
theorem DecIdle.rxq_empty {s : State} (h : DecIdle s) : { s with rxq := [] } = s := by
  obtain ⟨-, -, hq⟩ := h
  rw [← hq]

/-- R115: bytes that arrive at a frame boundary are all that the decoder finds. -/
theorem serialArrive_idle {s : State} (h : DecIdle s) (bs : List Byte) :
    serialArrive bs s = decRun bs.length { s with rxq := bs.map StreamEv.byte } := by
  have hp := h.none_pending
  obtain ⟨-, -, hq⟩ := h
  simp only [serialArrive, hq, List.nil_append, List.length_map]
  rw [deliverAll_none (by exact hp)]

/-- R131: one byte that arrives at a frame boundary is taken as a length byte. -/
theorem serialArrive_lenByte {s : State} (h : DecIdle s) (b : Byte) : serialArrive [b] s = acceptLen b s := by
  have hp := h.none_pending
  have he := h.rxq_empty
  rw [serialArrive_idle h]
  obtain ⟨hs, -, -⟩ := h
  refine (decRun_len (s := { s with rxq := [.byte b] }) hs hp rfl 0).trans ?_
  exact congrArg (acceptLen b) he

/-- R131, R132, R133: a whole frame of two bytes or more that arrives at a frame boundary is taken and completed. -/
theorem serialArrive_frame {s : State} (h : DecIdle s) {len hdr : Byte} {rest : List Byte} (hlen : 2 ≤ len.toNat)
    (hrest : rest.length = len.toNat - 2) :
    serialArrive (len :: hdr :: rest) s = deliverAll (frameComplete hdr
      { s with dec := { s.dec with
          dstate := .payload, dlen := len, dcnt := len.toNat - 1, dhdr := hdr
          ch := if hdr = Config.hdrChdata then laneWrites s.dec.ch 1 rest else s.dec.ch } }) := by
  have hp := h.none_pending
  rw [serialArrive_idle h]
  obtain ⟨hs, -, hq⟩ := h
  rw [show (len :: hdr :: rest).length = 0 + (rest.length + 2) by simp,
    decRun_frame (s := { s with rxq := (len :: hdr :: rest).map StreamEv.byte }) (hdr := hdr) (q := [])
      hlen hrest hs hp (by simp) 0, ← hq]
  rfl

/-- R240: a skip in `D_LEN` is its event alone. -/
theorem skip_at_len {s : State} (h : s.dec.dstate = .len) (r : SkipReason) :
    raise (.decode r) s = { s with trace := s.trace ++ [.skip r] } := by
  simp only [raise, emit, ← h]

/-- R96, R131: a one-byte frame at a frame boundary, skipped as its length byte is accepted. -/
theorem exec_shortFrame {s : State} (h : DecIdle s) {i : Instr} {b : Byte} {r : SkipReason} (hi : isFrame i = true)
    (hb : encodeBytes i = [b])
    (hskip : acceptLen b s = raise (.decode r) { s with dec := { s.dec with dlen := b, dcnt := 0 } }) :
    exec i s = .next { s with dec := { s.dec with dlen := b, dcnt := 0 }, trace := s.trace ++ [.skip r] } := by
  rw [exec_frame hi, hb, serialArrive_lenByte h, hskip]
  obtain ⟨hs, -, -⟩ := h
  rw [skip_at_len (by exact hs)]

/-- Settles O13: each length byte is its frame, and is skipped as it is accepted. -/
theorem shortFramesSkipped : Obligations.ShortFramesSkipped := by
  intro s h
  exact ⟨exec_shortFrame h rfl rfl rfl, exec_shortFrame h rfl rfl rfl⟩

/-- Settles O14: the frame is taken whole and completed without a delivery. -/
theorem longFramesSkipped : Obligations.LongFramesSkipped := by
  intro s len rest h
  have hp := h.none_pending
  constructor
  · intro hwf
    obtain ⟨hlen, hne, hrest⟩ := wf_sframeBadlen.1 hwf
    rw [exec_frame rfl, encodeBytes, serialArrive_frame h hlen hrest, frameComplete_badLen (by exact hne),
      deliverAll_none (by exact hp), if_pos rfl]
    obtain ⟨hs, -, -⟩ := h
    rw [← hs]
    rfl
  · intro hdr hwf
    obtain ⟨hlen, hne, hrest⟩ := wf_sframeOther.1 hwf
    rw [exec_frame rfl, encodeBytes, serialArrive_frame h hlen hrest, frameComplete_header hne,
      deliverAll_none (by exact hp), if_neg hne]
    obtain ⟨hs, -, -⟩ := h
    rw [← hs]

/-! ### Bytes as a unit and one by one -/

/-- R14: a scheduled action that answers a next state, and the run after it. -/
theorem run_action {s t : State} {a : Act} {r : List Act} (hs : s.sched = a :: r)
    (ha : runAct a { s with sched := r } = .next t) (k : Nat) :
    Host.Core.run core (k + 1) s = Host.Core.run core k t := run_succ ((step_scheduled hs).trans ha) k

/-- A scheduled instruction is executed. -/
theorem runAct_schedule {i : Instr} (h : i.wf = true) (s : State) : runAct (schedule i) s = exec i s :=
  runUnit_of_decode (decodeOfEncode i h) s

/-- `s` with another serial stream and another schedule. -/
def placed (q : List StreamEv) (r : List Act) (s : State) : State := { s with rxq := q, sched := r }

/-- R131: accepting a length byte reads neither the serial stream nor the schedule. -/
theorem acceptLen_placed (b : Byte) (q : List StreamEv) (r : List Act) (s : State) :
    acceptLen b (placed q r s) = placed q r (acceptLen b s) := by
  simp only [acceptLen_eq]
  split
  · rfl
  · split <;> rfl

/-- R133: completing a frame reads neither. -/
theorem frameComplete_placed (h : Byte) (q : List StreamEv) (r : List Act) (s : State) :
    frameComplete h (placed q r s) = placed q r (frameComplete h s) := by
  by_cases hh : h = Config.hdrChdata
  · subst hh
    by_cases hl : s.dec.dlen = Config.lenChdata
    · rw [frameComplete_frame (s := placed q r s) hl, frameComplete_frame hl]
      rfl
    · rw [frameComplete_badLen (s := placed q r s) hl, frameComplete_badLen hl]
      rfl
  · rw [frameComplete_header hh, frameComplete_header hh]
    rfl

/-- R132: accepting a payload byte reads neither. -/
theorem acceptPayload_placed (b : Byte) (q : List StreamEv) (r : List Act) (s : State) :
    acceptPayload b (placed q r s) = placed q r (acceptPayload b s) := by
  by_cases h : s.dec.dcnt + 1 = s.dec.dlen.toNat - 1
  · rw [acceptPayload_last (s := placed q r s) h, acceptPayload_last h, ← frameComplete_placed]
    rfl
  · rw [acceptPayload_mid (s := placed q r s) h, acceptPayload_mid h]
    rfl

/-- R130: in `D_LEN` a byte is a length byte. -/
theorem acceptByte_len {s : State} (h : s.dec.dstate = .len) (b : Byte) :
    acceptEvent (.byte b) s = acceptLen b s := by
  simp only [acceptEvent, h]

/-- R130: in `D_PAYLOAD` a byte is a payload byte. -/
theorem acceptByte_payload {s : State} (h : s.dec.dstate = .payload) (b : Byte) :
    acceptEvent (.byte b) s = acceptPayload b s := by
  simp only [acceptEvent, h]

/-- R130: in `D_FATAL` a byte does nothing. -/
theorem acceptByte_fatal {s : State} (h : s.dec.dstate = .fatal) (b : Byte) : acceptEvent (.byte b) s = s := by
  simp only [acceptEvent, h]

/-- R130: the step on a byte reads neither. -/
theorem acceptByte_placed (b : Byte) (q : List StreamEv) (r : List Act) (s : State) :
    acceptEvent (.byte b) (placed q r s) = placed q r (acceptEvent (.byte b) s) := by
  cases hs : s.dec.dstate
  case len => rw [acceptByte_len (s := placed q r s) hs, acceptByte_len hs, acceptLen_placed]
  case payload => rw [acceptByte_payload (s := placed q r s) hs, acceptByte_payload hs, acceptPayload_placed]
  case fatal => rw [acceptByte_fatal (s := placed q r s) hs, acceptByte_fatal hs]

/-- R134: a delivery reads neither. -/
theorem deliver_placed (k : Nat) (q : List StreamEv) (r : List Act) (s : State) :
    deliver k (placed q r s) = placed q r (deliver k s) := by
  by_cases h : s.dec.dpub[k]? = some true
  · rw [deliver_of_pending (s := placed q r s) h, deliver_of_pending h]
    rfl
  · rw [deliver_none (s := placed q r s) h, deliver_none h]

/-- R134: the deliveries read neither. -/
theorem deliverUpTo_placed (n : Nat) (q : List StreamEv) (r : List Act) (s : State) :
    deliverUpTo n (placed q r s) = placed q r (deliverUpTo n s) := by
  induction n with
  | zero => rfl
  | succ n ih => rw [deliverUpTo, ih, deliver_placed, deliverUpTo]

/-- R131 to R134: a byte taken by the decoder, and the deliveries that then fall due. -/
def takeByte (b : Byte) (s : State) : State := deliverAll (acceptEvent (.byte b) s)

/-- R131 to R134: taking a byte reads neither the serial stream nor the schedule. -/
theorem takeByte_placed (b : Byte) (q : List StreamEv) (r : List Act) (s : State) :
    takeByte b (placed q r s) = placed q r (takeByte b s) := by
  rw [takeByte, acceptByte_placed]
  exact deliverUpTo_placed _ q r _

/-- R131 to R134: taking a byte leaves the serial stream alone. -/
theorem takeByte_rxq (b : Byte) (s : State) : (takeByte b s).rxq = s.rxq :=
  (congrArg State.rxq (takeByte_placed b s.rxq s.sched s) :)

/-- R133: completing a frame writes no slot, and makes every delivery pending or leaves the pending bits alone. -/
theorem frameComplete_pending (h : Byte) (s : State) :
    (frameComplete h s).slots = s.slots ∧
      ((frameComplete h s).dec.dpub = s.dec.dpub ∨
        (frameComplete h s).dec.dpub = List.replicate s.slots.length true) := by
  unfold frameComplete
  split
  · split
    · exact ⟨rfl, .inr rfl⟩
    · exact ⟨rfl, .inl rfl⟩
  · exact ⟨rfl, .inl rfl⟩

/-- R131 to R133: the step on a byte writes no slot, and makes every delivery pending or leaves the pending bits alone. -/
theorem acceptByte_pending (b : Byte) (s : State) :
    (acceptEvent (.byte b) s).slots = s.slots ∧
      ((acceptEvent (.byte b) s).dec.dpub = s.dec.dpub ∨
        (acceptEvent (.byte b) s).dec.dpub = List.replicate s.slots.length true) := by
  cases hs : s.dec.dstate
  case len =>
    rw [acceptByte_len hs, acceptLen_eq]
    split
    · exact ⟨rfl, .inl rfl⟩
    · split <;> exact ⟨rfl, .inl rfl⟩
  case payload =>
    rw [acceptByte_payload hs]
    by_cases h : s.dec.dcnt + 1 = s.dec.dlen.toNat - 1
    · rw [acceptPayload_last h, storePayload_frame]
      exact frameComplete_pending _ _
    · rw [acceptPayload_mid h, storePayload_frame]
      exact ⟨rfl, .inl rfl⟩
  case fatal =>
    rw [acceptByte_fatal hs]
    exact ⟨rfl, .inl rfl⟩

/-- R61: no delivery is pending, and the serial stream is empty, unless the decoder has stopped and takes nothing. -/
def SerialSettled (s : State) : Prop :=
  s.dec.dpub = List.replicate s.slots.length false ∧ (s.rxq = [] ∨ s.dec.dstate = .fatal)

/-- R61: then no delivery is pending. -/
theorem SerialSettled.none_pending {s : State} (h : SerialSettled s) : true ∉ s.dec.dpub := by
  obtain ⟨hp, -⟩ := h
  simp [hp]

/-- R134: the deliveries keep the number of slots. -/
theorem deliverUpTo_slots_length (n : Nat) (s : State) : (deliverUpTo n s).slots.length = s.slots.length := by
  induction n with
  | zero => rfl
  | succ n ih => rw [deliverUpTo, deliver_slots_length, ih]

/-- R134: a byte taken from a settled stream leaves no delivery pending, and as many slots as before. -/
theorem takeByte_settled {s : State} (h : SerialSettled s) (hq : s.rxq = []) (b : Byte) :
    SerialSettled (takeByte b s) ∧ (takeByte b s).slots.length = s.slots.length := by
  obtain ⟨hp, -⟩ := h
  have hrxq : (takeByte b s).rxq = [] := (takeByte_rxq b s).trans hq
  obtain ⟨hslots, hkept | hall⟩ := acceptByte_pending b s
  · have hnone : true ∉ (acceptEvent (.byte b) s).dec.dpub := by simp [hkept, hp]
    rw [takeByte, deliverAll_none hnone] at hrxq ⊢
    exact ⟨⟨by rw [hkept, hp, hslots], .inl hrxq⟩, by rw [hslots]⟩
  · rw [← hslots] at hall
    rw [takeByte, deliverAll_all hall] at hrxq ⊢
    exact ⟨⟨by simp, .inl hrxq⟩, by simp [hslots]⟩

/-- R115: no bytes that arrive at a settled decoder change nothing. -/
theorem serialArrive_nil {s : State} (h : SerialSettled s) : serialArrive [] s = s := by
  simp only [serialArrive, List.map_nil, List.append_nil]
  rw [deliverAll_none h.none_pending]
  obtain ⟨-, hq | hf⟩ := h
  · exact decRun_nil hq _
  · exact decRun_stop (decTakes_eq_false (.inr hf)) _

/-- R61: a stopped decoder leaves the bytes that arrive in the serial stream. -/
theorem serialArrive_fatal {s : State} (h : SerialSettled s) (hf : s.dec.dstate = .fatal) (bs : List Byte) :
    serialArrive bs s = placed (s.rxq ++ bs.map StreamEv.byte) s.sched s := by
  simp only [serialArrive]
  rw [deliverAll_none (by exact h.none_pending), decRun_stop (by exact decTakes_eq_false (.inr hf))]
  rfl

/-- R61: a settled decoder that has not stopped has nothing in its serial stream. -/
theorem SerialSettled.rxq_empty {s : State} (h : SerialSettled s) (hf : s.dec.dstate ≠ .fatal) : s.rxq = [] := by
  obtain ⟨-, hq⟩ := h
  exact hq.resolve_right hf

/-- R115: bytes that arrive at a settled decoder that has not stopped are all that it finds. -/
theorem serialArrive_live {s : State} (h : SerialSettled s) (hq : s.rxq = []) (bs : List Byte) :
    serialArrive bs s = decRun bs.length (placed (bs.map StreamEv.byte) s.sched s) := by
  simp only [serialArrive, hq, List.nil_append, List.length_map]
  rw [deliverAll_none (by exact h.none_pending)]
  rfl

/-- R130: a decoder that has not stopped takes the first of the bytes that arrive, then the others. -/
theorem serialArrive_take {s : State} (h : SerialSettled s) (hf : s.dec.dstate ≠ .fatal) (b : Byte) (bs : List Byte) :
    serialArrive (b :: bs) s = serialArrive bs (takeByte b s) := by
  have hq := h.rxq_empty hf
  have ht : decTakes s.dec = true := (decTakes_iff _).2 ⟨hf, h.none_pending⟩
  obtain ⟨hset, -⟩ := takeByte_settled h hq b
  have hsched : (takeByte b s).sched = s.sched := (congrArg State.sched (takeByte_placed b s.rxq s.sched s) :)
  calc serialArrive (b :: bs) s
      = decRun (bs.length + 1) (placed ((b :: bs).map StreamEv.byte) s.sched s) := serialArrive_live h hq _
    _ = decRun bs.length (takeByte b (placed (bs.map StreamEv.byte) s.sched s)) :=
        decRun_cons (s := placed ((b :: bs).map StreamEv.byte) s.sched s) ht rfl _
    _ = serialArrive bs (takeByte b s) := by
        rw [takeByte_placed, serialArrive_live hset ((takeByte_rxq b s).trans hq), hsched]

/-- R115: a decoder that has not stopped takes a byte that arrives alone. -/
theorem serialArrive_one {s : State} (h : SerialSettled s) (hf : s.dec.dstate ≠ .fatal) (b : Byte) :
    serialArrive [b] s = takeByte b s := by
  obtain ⟨hset, -⟩ := takeByte_settled h (h.rxq_empty hf) b
  rw [serialArrive_take h hf, serialArrive_nil hset]

/-- R115: a byte that arrives leaves the decoder settled. -/
theorem serialArrive_settled {s : State} (h : SerialSettled s) (b : Byte) : SerialSettled (serialArrive [b] s) := by
  by_cases hf : s.dec.dstate = .fatal
  · rw [serialArrive_fatal h hf]
    exact ⟨h.1, .inr hf⟩
  · rw [serialArrive_one h hf]
    exact (takeByte_settled h (h.rxq_empty hf) b).1

/-- R115: bytes that arrive as one unit, the first before the others. -/
theorem serialArrive_cons {s : State} (h : SerialSettled s) (b : Byte) (bs : List Byte) :
    serialArrive (b :: bs) s = serialArrive bs (serialArrive [b] s) := by
  by_cases hf : s.dec.dstate = .fatal
  · have hset := serialArrive_settled h b
    rw [serialArrive_fatal h hf [b]] at hset ⊢
    rw [serialArrive_fatal h hf, serialArrive_fatal hset hf]
    simp [placed]
  · rw [serialArrive_take h hf, serialArrive_one h hf]

/-! ### The single steps -/

/-- The deliveries to `n` slots, in rising order, as a schedule. -/
def deliveryRows (n : Nat) : List Act := (List.range n).map fun k => schedule (.decDeliver k)

/-- The schedule of one byte in `serialSteps`: SRC offers it, the two rows that may take it, and the deliveries. -/
def byteSteps (n : Nat) (b : Byte) : List Act :=
  [.rx true false b, schedule .decPayload, schedule .decLen] ++ deliveryRows n

/-- The schedule of some bytes, the first before the others. -/
theorem serialSteps_cons (n : Nat) (b : Byte) (bs : List Byte) :
    serialSteps n (b :: bs) = byteSteps n b ++ serialSteps n bs := rfl

/-- One delivery more comes last. -/
theorem deliveryRows_succ (n : Nat) (r : List Act) :
    deliveryRows (n + 1) ++ r = deliveryRows n ++ schedule (.decDeliver n) :: r := by
  simp [deliveryRows, List.range_succ]

/-- R134: the rows DEC.DELIVER to the first `n` slots, in rising order, are the deliveries to them. -/
theorem run_deliveries {n : Nat} {s : State} (hn : n ≤ s.slots.length) (hb : n ≤ 256) (q : List StreamEv)
    (r : List Act) :
    Host.Core.run core n (placed q (deliveryRows n ++ r) s) =
      .next (placed q r (deliverUpTo n s)) := by
  induction n generalizing r with
  | zero => rfl
  | succ n ih =>
    have hslot : n < (placed q r (deliverUpTo n s)).slots.length := (deliverUpTo_slots_length n s).symm ▸ hn
    have hrow : runAct (schedule (.decDeliver n)) (placed q r (deliverUpTo n s)) =
        .next (placed q r (deliverUpTo (n + 1) s)) := by
      rw [runAct_schedule (by simpa [Instr.wf] using hb)]
      exact exec_decDeliver_next.2 ⟨hslot, (deliver_placed n q r _).symm⟩
    rw [deliveryRows_succ, run_add (ih (by omega) (by omega) _)]
    exact run_action rfl hrow 0

/-- R131: DEC.LEN where it is enabled. -/
theorem exec_decLen_enabled {s : State} {b : Byte} {q : List StreamEv} (ht : decTakes s.dec = true)
    (hs : s.dec.dstate = .len) (hq : s.rxq = .byte b :: q) :
    exec .decLen s = .next (acceptLen b { s with rxq := q }) := by
  refine (if_pos ⟨ht, hs⟩ : execDecLen s = _).trans ?_
  rw [hq]

/-- R132: DEC.PAYLOAD where it is enabled. -/
theorem exec_decPayload_enabled {s : State} {b : Byte} {q : List StreamEv} (ht : decTakes s.dec = true)
    (hs : s.dec.dstate = .payload) (hq : s.rxq = .byte b :: q) :
    exec .decPayload s = .next (acceptPayload b { s with rxq := q }) := by
  refine (if_pos ⟨ht, hs⟩ : execDecPayload s = _).trans ?_
  rw [hq]

/-- R131, R132: of the two rows one takes the byte at the head of the serial stream and the other passes. -/
theorem run_takingRows {s : State} (ht : decTakes s.dec = true) (b : Byte) (r : List Act) :
    Host.Core.run core 2 (placed [.byte b] (schedule .decPayload :: schedule .decLen :: r) s) =
      .next (placed [] r (acceptEvent (.byte b) s)) := by
  cases hs : s.dec.dstate
  case len =>
    have hpass : runAct (schedule .decPayload) (placed [.byte b] (schedule .decLen :: r) s) =
        .next (placed [.byte b] (schedule .decLen :: r) s) := by
      rw [runAct_schedule rfl]
      exact decPayload_passes (by simp [rowEnabled, placed, hs])
    have htake : runAct (schedule .decLen) (placed [.byte b] r s) = .next (placed [] r (acceptEvent (.byte b) s)) := by
      rw [runAct_schedule rfl, acceptByte_len hs, ← acceptLen_placed]
      exact exec_decLen_enabled (s := placed [.byte b] r s) ht hs rfl
    exact (run_action rfl hpass 1).trans (run_action rfl htake 0)
  case payload =>
    have htake : runAct (schedule .decPayload) (placed [.byte b] (schedule .decLen :: r) s) =
        .next (placed [] (schedule .decLen :: r) (acceptEvent (.byte b) s)) := by
      rw [runAct_schedule rfl, acceptByte_payload hs, ← acceptPayload_placed]
      exact exec_decPayload_enabled (s := placed [.byte b] _ s) ht hs rfl
    have hpass : runAct (schedule .decLen) (placed [] r (acceptEvent (.byte b) s)) =
        .next (placed [] r (acceptEvent (.byte b) s)) := by
      obtain ⟨hoff, -, -⟩ := serialRows_disabled (s := placed [] r (acceptEvent (.byte b) s)) (.inl rfl)
      rw [runAct_schedule rfl]
      exact decLen_passes hoff
    exact (run_action rfl htake 1).trans (run_action rfl hpass 0)
  case fatal => simp [decTakes, hs] at ht

/-- R136: both rows pass where the decoder has stopped. -/
theorem run_passingRows {s : State} (hf : s.dec.dstate = .fatal) (q : List StreamEv) (r : List Act) :
    Host.Core.run core 2 (placed q (schedule .decPayload :: schedule .decLen :: r) s) = .next (placed q r s) := by
  have hoff (r' : List Act) := serialRows_disabled (s := placed q r' s) (.inr (.inr hf))
  have hpay : runAct (schedule .decPayload) (placed q (schedule .decLen :: r) s) =
      .next (placed q (schedule .decLen :: r) s) := by
    obtain ⟨-, hoff, -⟩ := hoff (schedule .decLen :: r)
    rw [runAct_schedule rfl]
    exact decPayload_passes hoff
  have hlen : runAct (schedule .decLen) (placed q r s) = .next (placed q r s) := by
    obtain ⟨hoff, -, -⟩ := hoff r
    rw [runAct_schedule rfl]
    exact decLen_passes hoff
  exact (run_action rfl hpay 1).trans (run_action rfl hlen 0)

/-- R134: the deliveries that fall due with a byte are those to every slot. -/
theorem takeByte_eq {s : State} (h : SerialSettled s) (b : Byte) :
    takeByte b s = deliverUpTo s.slots.length (acceptEvent (.byte b) s) := by
  obtain ⟨hp, -⟩ := h
  have hlen : (acceptEvent (.byte b) s).dec.dpub.length = s.slots.length := by
    obtain ⟨-, hkept | hall⟩ := acceptByte_pending b s
    · rw [hkept, hp, List.length_replicate]
    · rw [hall, List.length_replicate]
  rw [takeByte, deliverAll, hlen]

/-- R115, R130 to R134: the single steps of one byte do what its arrival as a unit does. -/
theorem run_byteSteps {s : State} (h : SerialSettled s) (hn : s.slots.length ≤ 256) (b : Byte) (r : List Act) :
    Host.Core.run core (3 + s.slots.length) { s with sched := byteSteps s.slots.length b ++ r } =
      .next { serialArrive [b] s with sched := r } := by
  have hoffer : Host.Core.run core 1 { s with sched := byteSteps s.slots.length b ++ r } =
      .next (placed (s.rxq ++ [.byte b])
        (schedule .decPayload :: schedule .decLen :: (deliveryRows s.slots.length ++ r)) s) := run_action rfl rfl 0
  rw [show 3 + s.slots.length = 1 + (2 + s.slots.length) by omega, run_add hoffer]
  by_cases hf : s.dec.dstate = .fatal
  · rw [run_add (run_passingRows hf _ _), run_deliveries (Nat.le_refl _) hn, deliverUpTo_none h.none_pending,
      serialArrive_fatal h hf]
    rfl
  · have hq := h.rxq_empty hf
    have ht : decTakes s.dec = true := (decTakes_iff _).2 ⟨hf, h.none_pending⟩
    obtain ⟨hslots, -⟩ := acceptByte_pending b s
    rw [hq, List.nil_append, run_add (run_takingRows ht b _), run_deliveries (by rw [hslots]) hn, ← takeByte_eq h,
      serialArrive_one h hf, ← (takeByte_rxq b s).trans hq]
    rfl

/-- R115: bytes that arrive keep the number of slots. -/
theorem serialArrive_slots_length (bs : List Byte) (s : State) : (serialArrive bs s).slots.length = s.slots.length := by
  obtain ⟨-, hn⟩ := serialArrive_only bs s
  exact hn

/-- R115, R130 to R134: the single steps of bytes do what their arrival as a unit does. -/
theorem run_serialSteps {s : State} (h : SerialSettled s) (hn : s.slots.length ≤ 256) (bs : List Byte) :
    Host.Core.run core (bs.length * (3 + s.slots.length)) { s with sched := serialSteps s.slots.length bs } =
      .next { serialArrive bs s with sched := [] } := by
  induction bs generalizing s with
  | nil =>
    rw [serialArrive_nil h]
    simp only [List.length_nil, Nat.zero_mul]
    rfl
  | cons b bs ih =>
    have hlen := serialArrive_slots_length [b] s
    have hrest := ih (serialArrive_settled h b) (hlen ▸ hn)
    rw [hlen] at hrest
    rw [List.length_cons, Nat.succ_mul, Nat.add_comm, serialSteps_cons, serialArrive_cons h, ← hrest]
    exact run_add (run_byteSteps h hn b _) _

/-- Settles O25: the arrival of a unit is its bytes' arrival one by one, each of which is a run of single steps. -/
theorem frameIsRunOfSteps : Obligations.FrameIsRunOfSteps := by
  intro s bs hq hsched hn hp
  obtain ⟨honly, -⟩ := serialArrive_only bs s
  have hkept : (serialArrive bs s).sched = [] := by rw [honly, hsched]
  rw [run_serialSteps ⟨hp, .inl hq⟩ hn, ← hkept]

end Sys2Proof.Machine
end

section
/-! SUPPORT. The proofs of the statements on the lines of the engine: the forms that pass where they are not enabled, a
whole line at the start of a line, and the arrival of bytes as one unit against the single steps of ESC.RSPBYTE. -/

namespace Sys2Proof.Machine

/-! ### The forms of a write that are not enabled -/

/-- Settles O42: each form is enabled by a conjunction of which one part fails. -/
theorem inactiveFormsPass : Obligations.InactiveFormsPass := by
  intro s pin r id thr tel
  refine ⟨fun h => if_neg h, fun h => ⟨if_neg ?_, if_neg ?_⟩, fun h => if_neg ?_, fun h => ⟨if_neg ?_, if_neg ?_⟩⟩
  · exact not_and_or.2 h
  · rintro ⟨hr, hm, -⟩
    exact h.elim (absurd hr) (absurd hm)
  · rintro ⟨-, -, hid⟩
    exact h hid
  · exact not_and_or.2 h
  · exact not_and_or.2 h

/-! ### The two line actions -/

/-- R172: a handshake answer with a trailing integer gives the endpoint its id. -/
theorem hsLine_answer {ln : List Byte} {v : U32} (hok : startsOk ln = true) (hv : trailingInt ln = some v) (s : State) :
    hsLine ln false s = { s with
      esc := { s.esc with eid := v, estate := .ready, rstatus := .ok, rid := v },
      rets := s.rets ++ [.init .ok (some v)] } := by
  simp only [hsLine, hok, hv, Bool.not_false, Bool.and_self, if_true]
  rfl

/-- R172, R242: one without is fatal. -/
theorem hsLine_noInt {ln : List Byte} (hok : startsOk ln = true) (hv : trailingInt ln = none) (s : State) :
    hsLine ln false s = { s with
      esc := { s.esc with llen := 0, lovf := false, estate := .fault, ecause := .protocol, rstatus := .fault },
      trace := s.trace ++ [.escFault .protocol], rets := s.rets ++ [.init .fault none] } := by
  simp only [hsLine, hok, hv, Bool.not_false, Bool.and_self, if_true]
  rfl

/-- R172: any other line of the handshake is logged. -/
theorem hsLine_ignored {ln : List Byte} {ov : Bool} (h : ov = true ∨ startsOk ln = false) (s : State) :
    hsLine ln ov s = { s with trace := s.trace ++ [.hsIgnored ln] } :=
  if_neg (by rcases h with h | h <;> simp [h])

/-- R178: a response is handed to the caller. -/
theorem rspLine_command {ln : List Byte} {c : EscCommand} (h : parseCommand ln = some c) (s : State) :
    rspLine ln false s = { s with
      esc := { s.esc with
        estate := .ready, rstatus := .ok, rkind := c.kind, rid := c.id, rplen := c.payload.length,
        rpay := overlay c.payload s.esc.rpay },
      rets := s.rets ++ [.send .ok (some c)] } := by
  simp only [rspLine, Bool.false_eq_true, if_false, h]
  rfl

/-- R178, R242: any other line during a SEND completes it with `ST_PROTOCOL`. -/
theorem rspLine_refused {ln : List Byte} {ov : Bool} (h : ov = true ∨ parseCommand ln = none) (s : State) :
    rspLine ln ov s = { s with
      esc := { s.esc with estate := .ready, rstatus := .protocol }, rets := s.rets ++ [.send .protocol none] } := by
  have hnone : (if ov then none else parseCommand ln) = none := by
    rcases h with h | h <;> simp [h]
  simp only [rspLine, hnone]
  rfl

/-! ### A whole line at the start of a line -/

/-- R32: the line buffer holds `ln`. -/
def heldLine (ln : List Byte) (s : State) : State :=
  { s with esc := { s.esc with lbuf := ln ++ s.esc.lbuf.drop ln.length } }

/-- R172, R180: a line that arrives in the handshake at the start of a line. -/
theorem responseArrive_handshake {s : State} (hs : s.esc.estate = .hsWait) (h : LineStart s) {ln : List Byte}
    (hlf : noLf ln = true) :
    responseArrive (ln ++ [LF]) s =
      hsLine (ln.take Config.lineMax) (!fits ln) (heldLine (ln.take Config.lineMax) s) := by
  obtain ⟨hbuf, hlen, hov, hq⟩ := h
  rw [responseArrive_line (noLf_iff.1 hlf) ((busy_iff _).2 (.inl hs)) hbuf hlen hov hq]
  simp only [hs, heldLine]

/-- R178, R180: a line that arrives during a SEND at the start of a line. -/
theorem responseArrive_response {s : State} (hs : s.esc.estate = .rspWait) (h : LineStart s) {ln : List Byte}
    (hlf : noLf ln = true) :
    responseArrive (ln ++ [LF]) s =
      rspLine (ln.take Config.lineMax) (!fits ln) (heldLine (ln.take Config.lineMax) s) := by
  obtain ⟨hbuf, hlen, hov, hq⟩ := h
  rw [responseArrive_line (noLf_iff.1 hlf) ((busy_iff _).2 (.inr hs)) hbuf hlen hov hq]
  simp only [hs, heldLine]

/-- R32: a line that fits is held whole. -/
theorem take_of_fits {ln : List Byte} (h : fits ln = true) : ln.take Config.lineMax = ln :=
  List.take_of_length_le (of_decide_eq_true h)

/-- R109: whether a line starts with "OK" shows in what is held of it. -/
theorem startsOk_take (ln : List Byte) : startsOk (ln.take Config.lineMax) = startsOk ln := by
  simp [startsOk, List.take_take, Config.lineMax]

/-- Settles O46: the line is held whole, and its trailing integer decides. -/
theorem handshakeAnswerDecides : Obligations.HandshakeAnswerDecides := by
  intro s rest hs h
  have hok : startsOk (txtOk ++ rest) = true := startsOk_iff.2 ⟨rest, rfl⟩
  constructor
  · intro hwf
    obtain ⟨hlf, hf, v, hv⟩ := wf_hsOk.1 hwf
    refine ⟨v, hv, ?_⟩
    rw [exec_line (.inl rfl), encodeBytes, responseArrive_handshake hs h (noLf_iff.2 (okLine_noLf hlf)),
      take_of_fits hf, hf, Bool.not_true, hsLine_answer hok hv]
    rfl
  · intro hwf
    obtain ⟨hlf, hf, hv⟩ := wf_hsOkNoint.1 hwf
    rw [exec_line (.inl rfl), encodeBytes, responseArrive_handshake hs h (noLf_iff.2 (okLine_noLf hlf)),
      take_of_fits hf, hf, Bool.not_true, hsLine_noInt hok hv]
    obtain ⟨-, hlen, hov, -⟩ := h
    rw [← hlen, ← hov]
    rfl

/-- Settles O47: the line is overlong or does not start with "OK", which shows in the 64 bytes held of it. -/
theorem otherHandshakeLineIgnored : Obligations.OtherHandshakeLineIgnored := by
  intro s ln hs h hwf
  obtain ⟨hlf, ho⟩ := wf_hsOther.1 hwf
  have hignored : (!fits ln) = true ∨ startsOk (ln.take Config.lineMax) = false := by
    rw [startsOk_take, Bool.not_eq_true']
    exact ho
  rw [exec_line (.inl rfl), encodeBytes, responseArrive_handshake hs h hlf, hsLine_ignored hignored]
  rfl

/-- Settles O48: the line of a response is held whole and parses to its fields. -/
theorem responseIsReturned : Obligations.ResponseIsReturned := by
  intro s idText payload i k hi hs h hwf
  obtain rfl : i = responseOf k idText payload := by
    rcases hi with ⟨rfl, rfl⟩ | ⟨rfl, rfl⟩ | ⟨rfl, rfl⟩ <;> rfl
  obtain ⟨⟨id, hid⟩, -, hf⟩ := wf_responseOf.1 hwf
  obtain ⟨hport, hbytes⟩ := Prod.mk.inj (encode_responseOf k idText payload)
  have hlf : noLf (rspText k idText payload) = true := noLf_iff.2 (rspText_noLf ((wf_responseOf_eq ..).symm.trans hwf))
  refine ⟨id, hid, ?_⟩
  rw [exec_line (.inr hport), hbytes, responseArrive_response hs h hlf, take_of_fits hf, hf, Bool.not_true,
    rspLine_command (parseCommand_rspText hid)]
  rfl

/-- Settles O49: the line is overlong, or held whole and no response. -/
theorem invalidResponseIsProtocolError : Obligations.InvalidResponseIsProtocolError := by
  intro s ln hs h hwf
  obtain ⟨hlf, hp⟩ := wf_rspInvalid.1 hwf
  have hrefused : (!fits ln) = true ∨ parseCommand (ln.take Config.lineMax) = none := by
    cases hf : fits ln with
    | false => exact .inl rfl
    | true =>
      rw [take_of_fits hf]
      exact .inr (hp.resolve_left (by simp [hf]))
  rw [exec_line (.inr rfl), encodeBytes, responseArrive_response hs h hlf, rspLine_refused hrefused]
  rfl

/-! ### A line as a unit and byte by byte -/

/-- `s` with another response stream and another schedule. -/
def replied (q : List StreamEv) (r : List Act) (s : State) : State := { s with rspq := q, sched := r }

/-- R172: the end of a line in the handshake reads neither the response stream nor the schedule. -/
theorem hsLine_replied (ln : List Byte) (ov : Bool) (q : List StreamEv) (r : List Act) (s : State) :
    hsLine ln ov (replied q r s) = replied q r (hsLine ln ov s) := by
  by_cases h : ov = true ∨ startsOk ln = false
  · rw [hsLine_ignored h, hsLine_ignored h]
    rfl
  · obtain ⟨rfl, hok⟩ : ov = false ∧ startsOk ln = true := by simpa using h
    cases hv : trailingInt ln with
    | none =>
      rw [hsLine_noInt hok hv, hsLine_noInt hok hv]
      rfl
    | some v =>
      rw [hsLine_answer hok hv, hsLine_answer hok hv]
      rfl

/-- R178: the end of a line during a SEND reads neither. -/
theorem rspLine_replied (ln : List Byte) (ov : Bool) (q : List StreamEv) (r : List Act) (s : State) :
    rspLine ln ov (replied q r s) = replied q r (rspLine ln ov s) := by
  by_cases h : ov = true ∨ parseCommand ln = none
  · rw [rspLine_refused h, rspLine_refused h]
    rfl
  · rw [not_or, Bool.not_eq_true] at h
    obtain ⟨rfl, hp⟩ := h
    obtain ⟨c, hc⟩ := Option.ne_none_iff_exists'.1 hp
    rw [rspLine_command hc, rspLine_command hc]
    rfl

/-- R180: a byte other than LF is stored. -/
theorem acceptRspByte_store {b : Byte} (hb : b ≠ LF) (s : State) :
    acceptRspByte b s = { s with esc := storeLineByte b s.esc } := if_neg hb

/-- R180: in the handshake an LF ends a handshake line. -/
theorem acceptRspByte_handshake {s : State} (hs : s.esc.estate = .hsWait) :
    acceptRspByte LF s = hsLine (s.esc.lbuf.take s.esc.llen) s.esc.lovf (dropLine s) := by
  simp only [acceptRspByte, if_true, dropLine_esc, hs]

/-- R180: in any other state an LF ends a response line. -/
theorem acceptRspByte_response {s : State} (hs : s.esc.estate ≠ .hsWait) :
    acceptRspByte LF s = rspLine (s.esc.lbuf.take s.esc.llen) s.esc.lovf (dropLine s) := by
  simp only [acceptRspByte, if_true, dropLine_esc]

/-- R180: the step on a byte reads neither. -/
theorem acceptRspByte_replied (b : Byte) (q : List StreamEv) (r : List Act) (s : State) :
    acceptRspByte b (replied q r s) = replied q r (acceptRspByte b s) := by
  by_cases hb : b = LF
  · subst hb
    by_cases hs : s.esc.estate = .hsWait
    · rw [acceptRspByte_handshake (s := replied q r s) hs, acceptRspByte_handshake hs, ← hsLine_replied]
      rfl
    · rw [acceptRspByte_response (s := replied q r s) hs, acceptRspByte_response hs, ← rspLine_replied]
      rfl
  · rw [acceptRspByte_store hb, acceptRspByte_store hb]
    rfl

/-- R180: the step on a byte leaves the response stream alone. -/
theorem acceptRspByte_rspq (b : Byte) (s : State) : (acceptRspByte b s).rspq = s.rspq :=
  (congrArg State.rspq (acceptRspByte_replied b s.rspq s.sched s) :)

/-- R64: the response stream is empty, unless the engine is idle and takes nothing. -/
def ResponseSettled (s : State) : Prop := s.rspq = [] ∨ busy s.esc = false

/-- R64: an idle engine leaves the bytes that arrive in the response stream. -/
theorem responseArrive_idle {s : State} (hi : busy s.esc = false) (bs : List Byte) :
    responseArrive bs s = replied (s.rspq ++ bs.map StreamEv.byte) s.sched s := by
  simp only [responseArrive]
  rw [escRun_idle (by exact hi)]
  rfl

/-- R115: no bytes that arrive at a settled engine change nothing. -/
theorem responseArrive_nil {s : State} (h : ResponseSettled s) : responseArrive [] s = s := by
  simp only [responseArrive, List.map_nil, List.append_nil]
  rcases h with hq | hi
  · exact escRun_nil hq _
  · exact escRun_idle hi _

/-- R181: a busy engine takes the first of the bytes that arrive, then the others. -/
theorem responseArrive_take {s : State} (hq : s.rspq = []) (hb : busy s.esc = true) (b : Byte) (bs : List Byte) :
    responseArrive (b :: bs) s = responseArrive bs (acceptRspByte b s) := by
  have hq' : (acceptRspByte b s).rspq = [] := (acceptRspByte_rspq b s).trans hq
  have hsched : (acceptRspByte b s).sched = s.sched :=
    (congrArg State.sched (acceptRspByte_replied b s.rspq s.sched s) :)
  calc responseArrive (b :: bs) s
      = escRun (bs.length + 1) (replied ((b :: bs).map StreamEv.byte) s.sched s) := by
        simp only [responseArrive, hq, List.nil_append, List.length_map]
        rfl
    _ = escRun bs.length (acceptRspByte b (replied (bs.map StreamEv.byte) s.sched s)) :=
        escRun_cons (s := replied ((b :: bs).map StreamEv.byte) s.sched s) hb rfl _
    _ = responseArrive bs (acceptRspByte b s) := by
        simp only [responseArrive, hq', List.nil_append, List.length_map]
        rw [acceptRspByte_replied, ← hsched]
        rfl

/-- R181: a busy engine takes a byte that arrives alone. -/
theorem responseArrive_one {s : State} (hq : s.rspq = []) (hb : busy s.esc = true) (b : Byte) :
    responseArrive [b] s = acceptRspByte b s := by
  rw [responseArrive_take hq hb, responseArrive_nil (.inl ((acceptRspByte_rspq b s).trans hq))]

/-- R64: where a settled engine is busy its response stream is empty. -/
theorem ResponseSettled.rspq_empty {s : State} (h : ResponseSettled s) (hb : busy s.esc = true) : s.rspq = [] :=
  h.resolve_right (by simp [hb])

/-- R115: a byte that arrives leaves the engine settled. -/
theorem responseArrive_settled {s : State} (h : ResponseSettled s) (b : Byte) :
    ResponseSettled (responseArrive [b] s) := by
  cases hb : busy s.esc with
  | true =>
    have hq := h.rspq_empty hb
    rw [responseArrive_one hq hb]
    exact .inl ((acceptRspByte_rspq b s).trans hq)
  | false =>
    rw [responseArrive_idle hb]
    exact .inr hb

/-- R115: bytes that arrive as one unit, the first before the others. -/
theorem responseArrive_cons {s : State} (h : ResponseSettled s) (b : Byte) (bs : List Byte) :
    responseArrive (b :: bs) s = responseArrive bs (responseArrive [b] s) := by
  cases hb : busy s.esc with
  | true =>
    have hq := h.rspq_empty hb
    rw [responseArrive_take hq hb, responseArrive_one hq hb]
  | false =>
    rw [responseArrive_idle hb, responseArrive_idle hb [b], responseArrive_idle (by exact hb)]
    simp [replied]

/-- R180: ESC.RSPBYTE where it is enabled. -/
theorem exec_escRspbyte_busy {s : State} (hb : busy s.esc = true) {b : Byte} {q : List StreamEv}
    (hq : s.rspq = .byte b :: q) : exec .escRspbyte s = .next (acceptRspByte b { s with rspq := q }) := by
  refine (if_pos hb : execEscRspbyte s = _).trans ?_
  rw [hq]

/-- R181: ESC.RSPBYTE passes where the engine is idle. -/
theorem exec_escRspbyte_idle {s : State} (hi : busy s.esc = false) : exec .escRspbyte s = .next s :=
  if_neg (by simp [hi])

/-- R115, R180: the single steps of one byte do what its arrival as a unit does. -/
theorem run_responseByte {s : State} (h : ResponseSettled s) (b : Byte) (r : List Act) :
    Host.Core.run core 2 { s with sched := .rsp true false b :: schedule .escRspbyte :: r } =
      .next { responseArrive [b] s with sched := r } := by
  have hwrite : Host.Core.run core 1 { s with sched := .rsp true false b :: schedule .escRspbyte :: r } =
      .next (replied (s.rspq ++ [.byte b]) (schedule .escRspbyte :: r) s) := run_action rfl rfl 0
  have hread : runAct (schedule .escRspbyte) (replied (s.rspq ++ [.byte b]) r s) =
      .next { responseArrive [b] s with sched := r } := by
    rw [runAct_schedule rfl]
    cases hb : busy s.esc with
    | true =>
      have hq := h.rspq_empty hb
      rw [hq, List.nil_append, responseArrive_one hq hb]
      refine (exec_escRspbyte_busy (s := replied [.byte b] r s) hb rfl).trans (congrArg _ ?_)
      refine (acceptRspByte_replied b [] r s).trans ?_
      rw [← (acceptRspByte_rspq b s).trans hq]
      rfl
    | false =>
      rw [responseArrive_idle hb]
      exact exec_escRspbyte_idle hb
  exact (run_add hwrite 1).trans (run_action rfl hread 0)

/-- R115, R180: the single steps of bytes do what their arrival as a unit does. -/
theorem run_responseSteps {s : State} (h : ResponseSettled s) (bs : List Byte) :
    Host.Core.run core (2 * bs.length) { s with sched := responseSteps bs } =
      .next { responseArrive bs s with sched := [] } := by
  induction bs generalizing s with
  | nil =>
    rw [responseArrive_nil h]
    rfl
  | cons b bs ih =>
    rw [List.length_cons, Nat.mul_succ, Nat.add_comm, responseArrive_cons h, ← ih (responseArrive_settled h b)]
    exact run_add (run_responseByte h b _) _

/-- Settles O51: the arrival of a unit is its bytes' arrival one by one, each of which is two single steps. -/
theorem lineIsRunOfSteps : Obligations.LineIsRunOfSteps := by
  intro s bs hq hsched
  have honly : EngineOnly s (responseArrive bs s) := responseArrive_only bs s
  have hkept : (responseArrive bs s).sched = [] := by rw [honly, hsched]
  rw [run_responseSteps (.inl hq), ← hkept]

end Sys2Proof.Machine
end

section
/-! SUPPORT. The proofs of the statements on whole frames and on the decoder's single steps: the round trip of a
channel-data frame, a run of frames, each of which brings the decoder back to a frame boundary, and each step where
it is enabled. -/

namespace Sys2Proof.Machine

/-! ### Whole frames -/

/-- Settles O15: the frame is taken whole, its bytes are the channels of `V`, and the completed frame goes to every
slot. -/
theorem channelFrameRoundTrip : Obligations.ChannelFrameRoundTrip := by
  intro s V h
  have hrest : (chanBytes V.toList).length = Config.lenChdata.toNat - 2 := by
    rw [chanBytes_length, Vector.length_toList]
    rfl
  rw [exec_frame rfl, encodeBytes, encodeFrame, serialArrive_frame h (by decide) hrest, if_pos rfl, laneWrites_frame,
    frameComplete_frame rfl, deliverAll_all (by rfl)]
  obtain ⟨hs, hp, -⟩ := h
  rw [← hs, ← hp]
  rfl

/-- R91, R92: how many bytes a frame of length byte `len` has. -/
theorem frameLength_eq_max (len : Byte) : frameLength len = max len.toNat 1 := by
  unfold frameLength
  split
  next h => simp [h]
  next h =>
    have hne : len.toNat ≠ 0 := fun h0 => h (BitVec.eq_of_toNat_eq h0)
    omega

/-- R92, R96: a serial frame is its length byte and as many bytes as that says. -/
theorem encodeBytes_frame {i : Instr} (hf : isFrame i = true) (hw : i.wf = true) :
    ∃ len r, encodeBytes i = len :: r ∧ (encodeBytes i).length = frameLength len := by
  cases i with
  | sframeZerolen => exact Laws.UnitShape.sframeZerolen hw
  | sframeEmpty => exact Laws.UnitShape.sframeEmpty hw
  | sframeChdata f => exact Laws.UnitShape.sframeChdata f hw
  | sframeBadlen len rest => exact Laws.UnitShape.sframeBadlen len rest hw
  | sframeOther len hdr rest => exact Laws.UnitShape.sframeOther len hdr rest hw
  | _ => cases hf

/-- R139: a frame that arrives at a frame boundary emits its one event and leaves the decoder at a frame boundary. -/
theorem exec_frame_idle {i : Instr} {s t : State} (h : DecIdle s) (hf : isFrame i = true) (hw : i.wf = true)
    (ht : exec i s = .next t) : t.trace = s.trace ++ (frameEvent i).toList ∧ DecIdle t := by
  cases i with
  | sframeZerolen =>
    obtain ⟨hskip, -⟩ := shortFramesSkipped s h
    cases hskip.symm.trans ht
    exact ⟨rfl, h⟩
  | sframeEmpty =>
    obtain ⟨-, hskip⟩ := shortFramesSkipped s h
    cases hskip.symm.trans ht
    exact ⟨rfl, h⟩
  | sframeChdata V =>
    cases (channelFrameRoundTrip s V h).symm.trans ht
    obtain ⟨hs, hp, hq⟩ := h
    exact ⟨rfl, hs, by simpa using hp, hq⟩
  | sframeBadlen len rest =>
    obtain ⟨hskip, -⟩ := longFramesSkipped s len rest h
    cases (hskip hw).symm.trans ht
    exact ⟨rfl, h⟩
  | sframeOther len hdr rest =>
    obtain ⟨-, hskip⟩ := longFramesSkipped s len rest h
    cases (hskip hdr hw).symm.trans ht
    exact ⟨rfl, h⟩
  | _ => cases hf

/-- R139: scheduled frames, one after another from a frame boundary, emit one event each, in their order. -/
theorem run_frames {fs : List Instr} (hfs : ∀ i ∈ fs, isFrame i = true ∧ i.wf = true) {s : State} (h : DecIdle s)
    (hsched : s.sched = fs.map schedule) :
    ∃ t, Host.Core.run core fs.length s = .next t ∧
      t.trace = s.trace ++ fs.filterMap frameEvent ∧ DecIdle t ∧ t.esc = s.esc ∧ t.rets = s.rets := by
  induction fs generalizing s with
  | nil => exact ⟨s, rfl, by simp, h, rfl, rfl⟩
  | cons i fs ih =>
    obtain ⟨⟨hf, hw⟩, hrest⟩ := List.forall_mem_cons.1 hfs
    have hidle : DecIdle { s with sched := fs.map schedule } := h
    have hact := exec_frame hf { s with sched := fs.map schedule }
    obtain ⟨honly, -⟩ := serialArrive_only (encodeBytes i) { s with sched := fs.map schedule }
    generalize serialArrive (encodeBytes i) { s with sched := fs.map schedule } = u at hact honly
    obtain ⟨htrace, hu⟩ := exec_frame_idle hidle hf hw hact
    obtain ⟨t, hrun, hevents, ht, hesc, hrets⟩ := ih hrest hu (by rw [honly])
    refine ⟨t, ?_, ?_, ht, hesc.trans (by rw [honly]), hrets.trans (by rw [honly])⟩
    · exact (run_action hsched ((runAct_schedule hw _).trans hact) fs.length).trans hrun
    · rw [hevents, htrace, List.append_assoc]
      cases hev : frameEvent i <;> simp [hev]

/-- Settles O24: the bytes of each frame are counted by its length byte, and the run of the frames is `run_frames`. -/
theorem oneEventPerFrame : Obligations.OneEventPerFrame := by
  intro s fs h hfs
  refine ⟨fun i hi => ?_, run_frames (s := { s with sched := fs.map schedule }) hfs h rfl⟩
  obtain ⟨hf, hw⟩ := hfs i hi
  obtain ⟨len, r, hbytes, hlen⟩ := encodeBytes_frame hf hw
  exact ⟨len, r, hbytes, hlen.trans (frameLength_eq_max len)⟩

/-! ### The single steps where they are enabled -/

/-- R132: payload byte 0 is the header. -/
theorem storePayload_header {d : Dec} (h : d.dcnt = 0) (b : Byte) : storePayload b d = { d with dhdr := b } := if_pos h

/-- R132: a later byte of a frame of header 0x40 goes to a lane. -/
theorem storePayload_lane {d : Dec} (h : d.dcnt ≠ 0) (hh : d.dhdr = Config.hdrChdata) (b : Byte) :
    storePayload b d = { d with ch := laneWrite d.ch d.dcnt b } := (if_neg h).trans (if_pos hh)

/-- R132: a later byte of a frame of another header goes nowhere. -/
theorem storePayload_nowhere {d : Dec} (h : d.dcnt ≠ 0) (hh : d.dhdr ≠ Config.hdrChdata) (b : Byte) :
    storePayload b d = d := (if_neg h).trans (if_neg hh)

/-- R132: the channel registers keep their values under the header byte, another header, and past the last lane. -/
theorem storePayload_ch {d : Dec} (h : d.dhdr ≠ Config.hdrChdata ∨ d.dcnt = 0 ∨ 29 ≤ d.dcnt) (b : Byte) :
    (storePayload b d).ch = d.ch := by
  by_cases h0 : d.dcnt = 0
  · rw [storePayload_header h0]
  by_cases hh : d.dhdr = Config.hdrChdata
  · rw [storePayload_lane h0 hh]
    exact laneWrite_none _ (h.resolve_left (absurd hh)) b
  · rw [storePayload_nowhere h0 hh]

/-- R132: only payload byte 0 writes the header latch. -/
theorem storePayload_dhdr {d : Dec} (h : d.dcnt ≠ 0) (b : Byte) : (storePayload b d).dhdr = d.dhdr := by
  by_cases hh : d.dhdr = Config.hdrChdata
  · rw [storePayload_lane h hh]
  · rw [storePayload_nowhere h hh]

/-- R132: after payload byte 0 the frame's header is the latched one. -/
theorem frameHeader_latched {d : Dec} (h : d.dcnt ≠ 0) (b : Byte) : frameHeader b d = d.dhdr := if_neg h

/-- Settles O17: such a byte only stores and counts, and what storing does is known by header and payload index. -/
theorem payloadByteStored : Obligations.PayloadByteStored := by
  intro s b r hs hp hq hmid
  have hstep : exec .decPayload s = .next { s with rxq := r, dec := { s.dec with
      dcnt := s.dec.dcnt + 1, dhdr := (storePayload b s.dec).dhdr, ch := (storePayload b s.dec).ch } } := by
    rw [exec_decPayload_enabled ((decTakes_iff _).2 ⟨by simp [hs], hp⟩) hs hq, acceptPayload_mid (by exact hmid),
      storePayload_frame]
  refine ⟨_, _, hstep, fun h0 => ?_, fun h0 => storePayload_dhdr h0 b,
    fun h => storePayload_ch (h.imp_right .inr) b, fun j hj hh hc => ?_, fun j hj hh hc => ?_⟩
  · rw [storePayload_header h0]
    exact ⟨rfl, rfl⟩
  · rw [storePayload_lane (by omega) hh, hc]
    exact laneWrite_odd _ hj b
  · rw [storePayload_lane (by omega) hh, hc]
    exact laneWrite_even _ hj b

/-- Settles O18: the last byte is stored and the frame completed, by its header and its length. -/
theorem lastPayloadByteCompletes : Obligations.LastPayloadByteCompletes := by
  intro s b r hs hp hq hlast
  rw [exec_decPayload_enabled ((decTakes_iff _).2 ⟨by simp [hs], hp⟩) hs hq, acceptPayload_last (by exact hlast)]
  refine ⟨fun hl hh => ?_, fun hl h0 hh => ?_, fun h0 => ?_, fun h0 hh => ?_⟩
  · have hc : s.dec.dcnt = 2 * 13 + 2 := by
      rw [hl] at hlast
      exact Nat.succ.inj hlast
    have h0 : s.dec.dcnt ≠ 0 := by omega
    rw [(frameHeader_latched h0 b).trans hh, storePayload_lane h0 hh, hc, laneWrite_even _ (by omega)]
    exact congrArg _ (frameComplete_frame hl)
  · rw [(frameHeader_latched h0 b).trans hh, storePayload_lane h0 hh]
    exact congrArg _ (frameComplete_badLen hl)
  · have hl : s.dec.dlen ≠ Config.lenChdata := by
      intro hl
      rw [hl, h0] at hlast
      exact absurd hlast (by decide)
    rw [storePayload_header h0, h0, frameHeader, if_pos h0]
    by_cases hh : b = 0x40
    · subst hh
      exact congrArg _ (frameComplete_badLen hl)
    · rw [if_neg hh]
      exact congrArg _ (frameComplete_header hh)
  · rw [frameHeader_latched h0, storePayload_nowhere h0 hh]
    exact congrArg _ (frameComplete_header hh)

/-- Settles O16: DEC.LEN is enabled and accepts its byte; `dstate` stays where the byte is the whole frame. -/
theorem lengthByteAccepted : Obligations.LengthByteAccepted := by
  intro s b r hs hp hq
  rw [exec_decLen_enabled ((decTakes_iff _).2 ⟨by simp [hs], hp⟩) hs hq, acceptLen_eq]
  simp only [hs]

/-- Settles O19: the slot exists, and a delivery is made where it is pending. -/
theorem deliveryPublishesFrame : Obligations.DeliveryPublishesFrame := by
  intro s k sl hslot
  obtain ⟨hk, -⟩ := List.getElem?_eq_some_iff.1 hslot
  exact ⟨fun h => exec_decDeliver_next.2 ⟨hk, (deliver_pending h hslot).symm⟩,
    fun h => exec_decDeliver_next.2 ⟨hk, (deliver_none h).symm⟩⟩

/-- R135: DEC.RXERR where it is enabled. -/
theorem exec_decRxerr_enabled {s : State} {q : List StreamEv} (ht : decTakes s.dec = true)
    (hq : s.rxq = .ioError :: q) :
    exec .decRxerr s = .next (raise .serialIo { s with rxq := q }) := by
  refine (if_pos ht : execDecRxerr s = _).trans ?_
  rw [hq]

/-- Settles O20: DEC.RXERR is enabled, and the error class it raises writes `dstate` and the trace alone. -/
theorem serialErrorIsFatal : Obligations.SerialErrorIsFatal := by
  intro s r hs hp hq
  exact exec_decRxerr_enabled ((decTakes_iff _).2 ⟨hs, hp⟩) hq

end Sys2Proof.Machine
end

section
/-! SUPPORT. The proof of the statement on the stopped decoder: the events that the engine's operations emit, and then
what every action but reset leaves alone in `D_FATAL`. -/

namespace Sys2Proof.Machine

/-! ### The events of the engine -/

/-- R18: an event that the engine emits. -/
def OfEngine (e : Event) : Prop := (∃ ln, e = .hsIgnored ln) ∨ ∃ c, e = .escFault c

/-- R18: from `s` to `t` the trace grew by events of the engine alone. -/
def EngineEmits (s t : State) : Prop := ∃ es, t.trace = s.trace ++ es ∧ ∀ e ∈ es, OfEngine e

/-- Where nothing is emitted. -/
theorem EngineEmits.of_eq {s t : State} (h : t.trace = s.trace) : EngineEmits s t := ⟨[], by simpa using h, by simp⟩

/-- Where one event or none is emitted. -/
theorem EngineEmits.of_event {s t : State} {o : Option Event} (h : t.trace = s.trace ++ o.toList)
    (ho : ∀ e ∈ o, OfEngine e) : EngineEmits s t := ⟨o.toList, h, by simpa using ho⟩

/-- One after the other. -/
theorem EngineEmits.trans {s t u : State} (h : EngineEmits s t) (k : EngineEmits t u) : EngineEmits s u := by
  obtain ⟨es, hes, he⟩ := h
  obtain ⟨fs, hfs, hf⟩ := k
  exact ⟨es ++ fs, by rw [hfs, hes, List.append_assoc], List.forall_mem_append.2 ⟨he, hf⟩⟩

/-- R240 to R243: the event of an error class. -/
def errorEvent : ErrorSite → Option Event
  | .decode r => some (.skip r)
  | .serialIo => some .decFatal
  | .engineIo _ => some (.escFault .streamIo)
  | .handshake => some (.escFault .protocol)
  | .response => none
  | .config => some (.escFault .config)

/-- R240 to R243: an error class emits its event. -/
theorem raise_trace (e : ErrorSite) (s : State) : (raise e s).trace = s.trace ++ (errorEvent e).toList := by
  cases e <;> simp [raise, errorEvent]

/-- R241: StreamIoError in the engine. -/
theorem raise_engineIo_emits (op : Op) (s : State) : EngineEmits s (raise (.engineIo op) s) :=
  .of_event (raise_trace _ s) (by simp [errorEvent, OfEngine])

/-- R62: a write emits nothing. -/
theorem txWrite_trace (bs : List Byte) (s : State) : (txWrite bs s).2.trace = s.trace := by
  rcases txWrite_cases bs s with h | ⟨k, -, h⟩ <;> rw [h]

/-- R171: INIT from the speed lookup on. -/
theorem sendAdd_emits (pin : Byte) (r : Rate) (s : State) : EngineEmits s (sendAdd pin r s) := by
  have h : EngineEmits s (txWrite (addLine pin r) { s with esc := { s.esc with espeed := speedOf r } }).2 :=
    .of_eq (txWrite_trace ..)
  simp only [sendAdd]
  split
  · exact h.trans (.of_eq rfl)
  · exact h.trans (raise_engineIo_emits _ _)

/-- R171: INIT. -/
theorem acceptInit_emits (pin : Byte) (rate : U16) (mode : WireMode) (s : State) :
    EngineEmits s (acceptInit pin rate mode s) := by
  unfold acceptInit
  cases s.esc.estate
  case uninit =>
    dsimp only
    cases rateOf rate
    · exact .of_event (raise_trace .config _) (by simp [errorEvent, OfEngine])
    · exact .trans (.of_eq rfl) (sendAdd_emits _ _ _)
  case hsWait => exact .of_eq rfl
  case ready => exact .of_eq (completeStatus_trace ..)
  case rspWait => exact .of_eq rfl
  case fault => exact .of_eq (completeStatus_trace ..)

/-- R176: SEND in TEXT mode. -/
theorem acceptSendText_emits (thr : U11) (tel : Bool) (s : State) : EngineEmits s (acceptSendText thr tel s) := by
  have h := EngineEmits.of_eq (txWrite_trace (throttleLine s.esc.eid thr tel) s)
  simp only [acceptSendText]
  split
  · exact h.trans (.of_eq rfl)
  · exact h.trans (raise_engineIo_emits _ _)

/-- R177: SEND in BIN16 mode. -/
theorem acceptSendBin16_emits (thr : U11) (tel : Bool) (s : State) : EngineEmits s (acceptSendBin16 thr tel s) := by
  have h := EngineEmits.of_eq (txWrite_trace (binBytes thr tel) s)
  simp only [acceptSendBin16]
  split
  · exact h.trans (.of_eq (completeStatus_trace ..))
  · exact h.trans (raise_engineIo_emits _ _)

/-- R174: SEND. -/
theorem acceptSend_emits (thr : U11) (tel : Bool) (s : State) : EngineEmits s (acceptSend thr tel s) := by
  unfold acceptSend
  cases s.esc.estate
  case uninit => exact .of_eq (completeStatus_trace ..)
  case hsWait => exact .of_eq rfl
  case ready =>
    dsimp only
    cases s.esc.emode
    case text => exact acceptSendText_emits thr tel s
    case bin16 => exact acceptSendBin16_emits thr tel s
  case rspWait => exact .of_eq rfl
  case fault => exact .of_eq (completeStatus_trace ..)

/-- R172: a line in the handshake. -/
theorem hsLine_emits (ln : List Byte) (ov : Bool) (s : State) : EngineEmits s (hsLine ln ov s) := by
  unfold hsLine
  split
  · split
    · exact .of_event (raise_trace .handshake s) (by simp [errorEvent, OfEngine])
    · exact .of_eq rfl
  · exact .of_event (o := some (.hsIgnored ln)) rfl (by simp [OfEngine])

/-- R178: a line during a SEND. -/
theorem rspLine_emits (ln : List Byte) (ov : Bool) (s : State) : EngineEmits s (rspLine ln ov s) := by
  unfold rspLine
  split
  · exact .of_event (raise_trace .response s) (by simp [errorEvent])
  · exact .of_eq rfl

/-- R180: RSPBYTE. -/
theorem acceptRspByte_emits (b : Byte) (s : State) : EngineEmits s (acceptRspByte b s) := by
  by_cases hb : b = LF
  · subst hb
    by_cases hs : s.esc.estate = .hsWait
    · rw [acceptRspByte_handshake hs]
      exact .trans (.of_eq rfl) (hsLine_emits _ _ (dropLine s))
    · rw [acceptRspByte_response hs]
      exact .trans (.of_eq rfl) (rspLine_emits _ _ (dropLine s))
  · rw [acceptRspByte_store hb]
    exact .of_eq rfl

/-- R180, R182: one event of the response stream. -/
theorem acceptRsp_emits (e : StreamEv) (s : State) : EngineEmits s (acceptRsp e s) := by
  cases e with
  | byte b => exact acceptRspByte_emits b s
  | ioError => exact raise_engineIo_emits s.esc.eop s

/-- R181: the run of the engine. -/
theorem escRun_emits (n : Nat) (s : State) : EngineEmits s (escRun n s) := by
  induction n generalizing s with
  | zero => exact .of_eq rfl
  | succ n ih =>
    unfold escRun
    split
    · split
      next => exact .of_eq rfl
      next e r _ =>
        have htake : EngineEmits s { s with rspq := r } := .of_eq rfl
        exact htake.trans ((acceptRsp_emits e _).trans (ih _))
    · exact .of_eq rfl

/-! ### What leaves the decoder alone -/

/-- R136: from `s` to `t` the decoder's registers stayed, nothing was taken from the serial stream, and no event of the
decoder was emitted. -/
structure DecoderRests (s t : State) : Prop where
  dec : t.dec = s.dec
  serial : ∃ q, t.rxq = s.rxq ++ q
  events : EngineEmits s t

/-- Where none of the three is touched. -/
theorem DecoderRests.of_eq {s t : State} (hd : t.dec = s.dec := by rfl) (hq : t.rxq = s.rxq := by rfl)
    (ht : t.trace = s.trace := by rfl) : DecoderRests s t := ⟨hd, ⟨[], by simpa using hq⟩, .of_eq ht⟩

/-- Where events arrive at the tail of the serial stream. -/
theorem DecoderRests.arrive (s : State) (q : List StreamEv) : DecoderRests s { s with rxq := s.rxq ++ q } :=
  ⟨rfl, ⟨q, rfl⟩, .of_eq rfl⟩

/-- One after the other. -/
theorem DecoderRests.trans {s t u : State} (h : DecoderRests s t) (k : DecoderRests t u) : DecoderRests s u := by
  obtain ⟨q, hq⟩ := h.serial
  obtain ⟨p, hp⟩ := k.serial
  exact ⟨k.dec.trans h.dec, ⟨q ++ p, by rw [hp, hq, List.append_assoc]⟩, h.events.trans k.events⟩

/-- A step of the engine. -/
theorem EngineOnly.rests {s t : State} (h : EngineOnly s t) (hs : EngineEmits s t) : DecoderRests s t :=
  ⟨by rw [h], ⟨[], by rw [h, List.append_nil]⟩, hs⟩

/-- A TAKE or a PEEK. -/
theorem SlotsOnly.rests {s t : State} (h : SlotsOnly s t) : DecoderRests s t := by
  obtain ⟨ht, -⟩ := h
  rw [ht]
  exact .of_eq

/-- R171: INIT. -/
theorem acceptInit_rests (pin : Byte) (rate : U16) (mode : WireMode) (s : State) :
    DecoderRests s (acceptInit pin rate mode s) :=
  (acceptInit_only pin rate mode s).rests (acceptInit_emits pin rate mode s)

/-- R174: SEND. -/
theorem acceptSend_rests (thr : U11) (tel : Bool) (s : State) : DecoderRests s (acceptSend thr tel s) :=
  (acceptSend_only thr tel s).rests (acceptSend_emits thr tel s)

/-- R176: SEND in TEXT mode. -/
theorem acceptSendText_rests (thr : U11) (tel : Bool) (s : State) : DecoderRests s (acceptSendText thr tel s) :=
  (acceptSendText_only thr tel s).rests (acceptSendText_emits thr tel s)

/-- R177: SEND in BIN16 mode. -/
theorem acceptSendBin16_rests (thr : U11) (tel : Bool) (s : State) : DecoderRests s (acceptSendBin16 thr tel s) :=
  (acceptSendBin16_only thr tel s).rests (acceptSendBin16_emits thr tel s)

/-- R180, R182: one event of the response stream. -/
theorem acceptRsp_rests (e : StreamEv) (s : State) : DecoderRests s (acceptRsp e s) :=
  (acceptRsp_only e s).rests (acceptRsp_emits e s)

/-- R115: bytes that arrive on the response stream. -/
theorem responseArrive_rests (bs : List Byte) (s : State) : DecoderRests s (responseArrive bs s) :=
  (responseArrive_only bs s).rests (.trans (.of_eq rfl) (escRun_emits _ _))

/-! ### Relations that hold wherever an operation answers -/

/-- Where `o` answers a next state, `s` stands in the relation `R` to it. -/
def Answers (R : State → State → Prop) (s : State) (o : Host.Outcome State Fault Refusal) : Prop :=
  ∀ t, o = .next t → R s t

/-- A step that is always enabled. -/
theorem Answers.next {R : State → State → Prop} {s t : State} (h : R s t) : Answers R s (.next t) := by
  intro u hu
  cases hu
  exact h

/-- Log entry 3: a step that passes where it is not enabled. -/
theorem Answers.guarded {R : State → State → Prop} {s t : State} {p : Prop} [Decidable p] (h : R s t) (hr : R s s) :
    Answers R s (if p then .next t else .next s) := by
  split
  · exact .next h
  · exact .next hr

/-- R14: an operation at a slot. -/
theorem Answers.atSlot {R : State → State → Prop} {f : State → State} {s : State} (h : R s (f s)) (k : Nat) :
    Answers R s (atSlot k s f) := by
  intro t ht
  obtain ⟨-, rfl⟩ := atSlot_next ht
  exact h

/-- R14: an operation at a consumer port. -/
theorem Answers.atPort {R : State → State → Prop} {f : State → State} {s : State} (h : R s (f s)) (k c : Nat) :
    Answers R s (atPort k c s f) := by
  intro t ht
  obtain ⟨-, -, -, rfl⟩ := atPort_next ht
  exact h

/-! ### The stopped decoder -/

/-- R24, R61: in `D_FATAL` no delivery is pending. -/
theorem DecInv.settled_of_fatal {s : State} (h : DecInv s) (hf : s.dec.dstate = .fatal) : SerialSettled s := by
  obtain ⟨hlen, -, hpend, -⟩ := h
  refine ⟨List.eq_replicate_iff.2 ⟨hlen, fun b hb => ?_⟩, .inr hf⟩
  cases b with
  | false => rfl
  | true => exact absurd (hpend hb) (by simp [hf])

/-- R154: the row PEEK. -/
theorem execPeek_rests (k c : Nat) (s : State) : Answers DecoderRests s (execPeek k c s) := by
  refine .atPort ?_ k c
  split
  · split
    · exact .of_eq
    · exact (slotPeek_only k c s).rests
  · exact .of_eq

/-- R180: the row ESC.RSPBYTE. -/
theorem execEscRspbyte_rests (s : State) : Answers DecoderRests s (execEscRspbyte s) := by
  unfold execEscRspbyte
  split
  · split
    next b r _ => exact .next (.trans .of_eq (acceptRsp_rests (.byte b) { s with rspq := r }))
    next => exact .next .of_eq
  · exact .next .of_eq

/-- R182: the row ESC.RSPERR. -/
theorem execEscRsperr_rests (s : State) : Answers DecoderRests s (execEscRsperr s) := by
  unfold execEscRsperr
  split
  · split
    next r _ => exact .next (.trans .of_eq (acceptRsp_rests .ioError { s with rspq := r }))
    next => exact .next .of_eq
  · exact .next .of_eq

/-- R136: a frame that arrives at a stopped decoder waits in the serial stream. -/
theorem exec_frame_rests {i : Instr} (hi : isFrame i = true) {s : State} (h : SerialSettled s)
    (hf : s.dec.dstate = .fatal) : Answers DecoderRests s (exec i s) := by
  rw [exec_frame hi, serialArrive_fatal h hf]
  exact .next (.arrive s _)

/-- R115: a line that arrives is the engine's. -/
theorem exec_line_rests {i : Instr} (hi : portOf i = .hsLine ∨ portOf i = .rspLine) (s : State) :
    Answers DecoderRests s (exec i s) := by
  rw [exec_line hi]
  exact .next (responseArrive_rests _ s)

/-- R136: no row moves a stopped decoder: its own rows are not enabled there, and the others are not its own. -/
theorem exec_rests (i : Instr) {s : State} (h : SerialSettled s) (hf : s.dec.dstate = .fatal) :
    Answers DecoderRests s (exec i s) := by
  obtain ⟨hlen, hpayload, hrxerr⟩ := serialRows_disabled (s := s) (.inr (.inr hf))
  cases i with
  | sframeZerolen => exact exec_frame_rests rfl h hf
  | sframeEmpty => exact exec_frame_rests rfl h hf
  | sframeChdata f => exact exec_frame_rests rfl h hf
  | sframeBadlen len rest => exact exec_frame_rests rfl h hf
  | sframeOther len hdr rest => exact exec_frame_rests rfl h hf
  | decLen => exact decLen_passes hlen ▸ .next .of_eq
  | decPayload => exact decPayload_passes hpayload ▸ .next .of_eq
  | decDeliver k =>
    refine .atSlot (f := deliver k) ?_ k
    rw [deliver_none fun hk => h.none_pending (List.mem_of_getElem? hk)]
    exact .of_eq
  | decRxerr => exact decRxerr_passes hrxerr ▸ .next .of_eq
  | publish k v => exact .atSlot (f := slotPublish k v) .of_eq k
  | take k c => exact .atPort (f := fun s => (slotTake k c s).2) (slotTake_only k c s).rests k c
  | peek k c => exact execPeek_rests k c s
  | init pin rate mode => exact .next (acceptInit_rests pin rate mode s)
  | send thr tel => exact .next (acceptSend_rests thr tel s)
  | sendText thr tel => exact .guarded (acceptSendText_rests thr tel s) .of_eq
  | sendBin16 thr tel => exact .guarded (acceptSendBin16_rests thr tel s) .of_eq
  | escRspbyte => exact execEscRspbyte_rests s
  | escRsperr => exact execEscRsperr_rests s
  | tlineAdd pin rate =>
    exact .guarded ((sendAdd_only pin rate _).of_esc.rests (.trans (.of_eq rfl) (sendAdd_emits pin rate _))) .of_eq
  | tlineThrottle id thr tel => exact .guarded (acceptSendText_rests thr tel s) .of_eq
  | hsOk rest => exact exec_line_rests (.inl rfl) s
  | hsOkNoint rest => exact exec_line_rests (.inl rfl) s
  | hsOther ln => exact exec_line_rests (.inl rfl) s
  | rspThrottle idText payload => exact exec_line_rests (.inr rfl) s
  | rspOk idText payload => exact exec_line_rests (.inr rfl) s
  | rspErr idText payload => exact exec_line_rests (.inr rfl) s
  | rspInvalid ln => exact exec_line_rests (.inr rfl) s
  | bin16Frame thr tel => exact .guarded (acceptSendBin16_rests thr tel s) .of_eq
  | servomap f => exact .next .of_eq
  | escmap f => exact .next .of_eq

/-- R210: a turn of the servo loop. -/
theorem servoTurn_rests (s : State) : DecoderRests s (servoTurn s) := by
  unfold servoTurn
  split
  · have h := (loopRead_only s.params.readServo 0 s).rests
    dsimp only
    split
    · exact h.trans .of_eq
    · exact h
  · exact .of_eq

/-- R210, R211: a turn of the ESC loop. -/
theorem escTurn_rests (s : State) : DecoderRests s (escTurn s) := by
  unfold escTurn
  cases s.escLoop with
  | boot =>
    dsimp only
    split
    · exact .of_eq
    · exact (acceptInit_rests s.params.pin s.params.rate s.params.wireMode s).trans .of_eq
  | waitInit =>
    dsimp only
    split <;> exact .of_eq
  | get =>
    have h := (loopRead_only s.params.readEsc 1 s).rests
    dsimp only
    split
    · exact h.trans .of_eq
    · exact h
  | issue thr tel =>
    dsimp only
    split
    · exact .of_eq
    · exact (acceptSend_rests thr tel s).trans .of_eq
  | waitSend =>
    dsimp only
    split <;> exact .of_eq
  | stopped => exact .of_eq
  | _ =>
    -- the phase that holds a frame value
    dsimp only
    split <;> exact .of_eq

/-- An operation as its unit stands at its port. -/
theorem runUnit_rests (p : Port) (bs : List Byte) {s : State} (h : SerialSettled s) (hf : s.dec.dstate = .fatal) :
    Answers DecoderRests s (runUnit p bs s) := by
  cases hd : decode p bs with
  | ok i =>
    rw [runUnit_of_decode hd]
    exact exec_rests i h hf
  | error e =>
    intro t ht
    rw [runUnit_of_reject hd] at ht
    cases ht

/-- R136: every action but reset leaves a stopped decoder alone. -/
theorem runAct_rests {a : Act} (ha : a ≠ .rst) {s : State} (h : SerialSettled s) (hf : s.dec.dstate = .fatal) :
    Answers DecoderRests s (runAct a s) := by
  cases a with
  | rx valid err data =>
    rw [runAct, srcCycle_eq]
    exact .next (.arrive s _)
  | rsp valid err data =>
    rw [runAct, svcCycle_eq]
    exact .next .of_eq
  | svcRead n => exact .next .of_eq
  | cmdFail c => exact .next .of_eq
  | rst => exact absurd rfl ha
  | servoLoop => exact .atPort (servoTurn_rests s) 0 0
  | escLoop => exact .atPort (escTurn_rests s) 1 0
  | unit p bs => exact runUnit_rests p bs h hf

/-- Settles O22: the invariant rules out a pending delivery, and then every action but reset leaves the decoder
alone. -/
theorem fatalDecoderStaysStopped : Obligations.FatalDecoderStaysStopped := by
  intro s t a r hinv hf ha ht
  obtain ⟨hdecOk, -⟩ := hinv
  rw [step_of_scheduled] at ht
  have hsettled : SerialSettled { s with sched := r } := DecInv.settled_of_fatal hdecOk hf
  obtain ⟨hdec, hserial, hevents⟩ := runAct_rests ha hsettled hf t ht
  exact ⟨hdec, by simp [hdec, rxReady, hf], hserial, hevents⟩

end Sys2Proof.Machine
end

section
/-! SUPPORT. The proofs of the statements on the operations of the latest-value slots: PUBLISH, TAKE and PEEK at a port
of the block, and a run of publishes with a TAKE after it. -/

namespace Sys2Proof.Machine

/-! ### The slot operations -/

/-- The meaning of PUBLISH's row. -/
theorem exec_publish (k : Nat) (v : Value) (s : State) : exec (.publish k v) s = execPublish k v s := rfl

/-- R151: PUBLISH at a slot of the block. -/
theorem exec_publish_at {s : State} {k : Nat} {sl : Slot} (h : s.slots[k]? = some sl) (v : Value) :
    exec (.publish k v) s = .next { s with slots := s.slots.set k (sl.published v) } := by
  obtain ⟨hk, -⟩ := List.getElem?_eq_some_iff.mp h
  rw [exec_publish, execPublish, atSlot_at hk, slotPublish_at h]
  rfl

/-- R152, R153: TAKE at a consumer port of the block. -/
theorem exec_take_at {s : State} {k c : Nat} {sl : Slot} (h : s.slots[k]? = some sl) (hc : c < sl.wait.length) :
    exec (.take k c) s = .next (slotTake k c s).2 := by
  rw [exec_take, execTake, atPort_at h hc]

/-- R154: PEEK at a consumer port of the block. -/
theorem exec_peek_at {s : State} {k c : Nat} {sl : Slot} (h : s.slots[k]? = some sl) (hc : c < sl.wait.length) :
    exec (.peek k c) s = .next (if waiting sl c then s else (slotPeek k c s).2) := by
  rw [exec_peek, execPeek, atPort_at h hc]
  simp only [h]

/-- Settles O26: PUBLISH writes the slot it names. -/
theorem publishOverwrites : Obligations.PublishOverwrites := by
  intro s k v sl h
  exact exec_publish_at h v

/-- Settles O27: TAKE finds the flag set. -/
theorem takeReturnsPending : Obligations.TakeReturnsPending := by
  intro s k c sl h hc hfull
  rw [exec_take_at h hc, slotTake_full h hfull]

/-- Settles O28: TAKE finds the flag clear. -/
theorem takeWaits : Obligations.TakeWaits := by
  intro s k c sl h hc hempty
  rw [exec_take_at h hc, slotTake_empty h hempty]

/-- Settles O29: a PEEK that may be issued hits or misses by the flag, and a hit writes the flag's own value back unless
`PEEK_CLEARS` is on; a consumer in a TAKE issues none. -/
theorem peekWritesNothing : Obligations.PeekWritesNothing := by
  intro s k c sl h hc
  rw [exec_peek_at h hc]
  constructor
  · intro hidle
    rw [if_neg (by simp [waiting, hidle])]
    refine ⟨fun hfull hkeep => ?_, fun hfull hclear => ?_, fun hempty => ?_⟩
    · have hsame : ({ sl with full := true } : Slot) = sl := by rw [← hfull]
      rw [slotPeek_full h hfull, hkeep, Bool.not_false, hsame, set_self h]
    · rw [slotPeek_full h hfull, hclear, Bool.not_true]
    · rw [slotPeek_empty h hempty]
  · intro hbusy
    rw [if_pos (by simp [waiting, hbusy])]

/-! ### Runs of publishes -/

/-- R151: the later of two publishes decides. -/
@[simp] theorem Slot.published_published (v w : Value) (sl : Slot) :
    (sl.published v).published w = sl.published w := rfl

/-- R14: a scheduled row that answers a next state, and the run after it. -/
theorem run_row {i : Instr} (hi : i.wf = true) {s t : State} {r : List Act}
    (h : exec i { s with sched := r } = .next t) (n : Nat) :
    Host.Core.run core (n + 1) { s with sched := schedule i :: r } = Host.Core.run core n t :=
  run_action (s := { s with sched := schedule i :: r }) rfl ((runAct_schedule hi _).trans h) n

/-- R159: a run of publishes to slot `k`, the last one of `v`, leaves what that one alone leaves. -/
theorem run_publishes {k : Nat} (hk : k < 256) (vs : List Value) (v : Value) {s : State} {sl : Slot}
    (h : s.slots[k]? = some sl) (r : List Act) (n : Nat) :
    Host.Core.run core (n + 1 + vs.length)
        { s with sched := (vs ++ [v]).map (fun w => schedule (.publish k w)) ++ r } =
      Host.Core.run core n { s with slots := s.slots.set k (sl.published v), sched := r } := by
  have hwf (w : Value) : (Instr.publish k w).wf = true := decide_eq_true hk
  obtain ⟨hlt, -⟩ := List.getElem?_eq_some_iff.mp h
  induction vs generalizing s sl with
  | nil => exact run_row (hwf v) (exec_publish_at (s := { s with sched := r }) h v) n
  | cons w vs ih =>
    have hfirst := run_row (hwf w) (exec_publish_at
      (s := { s with sched := (vs ++ [v]).map (fun w => schedule (.publish k w)) ++ r }) h w) (n + 1 + vs.length)
    have hrest := ih (s := { s with slots := s.slots.set k (sl.published w) }) (sl := sl.published w) (by simp [hlt])
      (by simpa using hlt)
    simp only [List.set_set, Slot.published_published] at hrest
    exact hfirst.trans hrest

/-- Settles O31: the run of publishes leaves the last value pending, and the TAKE gets it. -/
theorem lastWriteWins : Obligations.LastWriteWins := by
  intro s k c sl vs v h hc hk hc256
  obtain ⟨hlt, -⟩ := List.getElem?_eq_some_iff.mp h
  have hwf : (Instr.take k c).wf = true := by simp [Instr.wf, hk, hc256]
  have htake := takeReturnsPending { s with slots := s.slots.set k (sl.published v), sched := [] } k c (sl.published v)
    (by simp [hlt]) hc rfl
  have hrun := run_publishes hk vs v h [schedule (.take k c)] 1
  have hlast := run_row (s := { s with slots := s.slots.set k (sl.published v) }) hwf htake 0
  rw [Nat.add_comm] at hrun
  exact ⟨_, hrun.trans hlast, rfl, List.set_set _⟩

end Sys2Proof.Machine
end

section
/-! SUPPORT. The proofs of the statements on what becomes of a slot along a schedule. First what returns no value to a TAKE,
then what at most publishes, then all that an action but reset can make of a slot; on that stand the fall of a flag, the
value that is taken once, and the TAKE that is owed a value in a fair execution. -/

namespace Sys2Proof.Machine

/-! ### What answers no TAKE on a slot -/

/-- R157: from `s` to `t` values may have been returned, but none to a TAKE on slot `k`. -/
def AnswersNoTake (k : Nat) (s t : State) : Prop := ∃ rs, t.rets = s.rets ++ rs ∧ ∀ c v, Ret.take k c v ∉ rs

/-- Where nothing is returned. -/
theorem AnswersNoTake.of_eq {k : Nat} {s t : State} (h : t.rets = s.rets) : AnswersNoTake k s t :=
  ⟨[], by simpa using h, by simp⟩

/-- Where one value is returned, and to no TAKE on the slot. -/
theorem AnswersNoTake.of_ret {k : Nat} {s t : State} {r : Ret} (h : t.rets = s.rets ++ [r])
    (hr : ∀ c v, Ret.take k c v ≠ r) : AnswersNoTake k s t := ⟨[r], h, by simpa using hr⟩

/-- One after the other. -/
theorem AnswersNoTake.trans {k : Nat} {s t u : State} (h : AnswersNoTake k s t) (h' : AnswersNoTake k t u) :
    AnswersNoTake k s u := by
  obtain ⟨rs, hrs, hnone⟩ := h
  obtain ⟨rs', hrs', hnone'⟩ := h'
  refine ⟨rs ++ rs', by rw [hrs', hrs, List.append_assoc], fun c v hm => ?_⟩
  exact (List.mem_append.1 hm).elim (hnone c v) (hnone' c v)

section
variable {k : Nat}

/-- R170: the completion of an operation of the engine. -/
theorem completeStatus_noTake (op : Op) (st : Status) (s : State) : AnswersNoTake k s (completeStatus op st s) := by
  refine .of_ret (completeStatus_rets op st s) fun c v => ?_
  cases op <;> exact Ret.noConfusion

/-- R240 to R243: the error classes. -/
theorem raise_noTake (e : ErrorSite) (s : State) : AnswersNoTake k s (raise e s) := by
  cases e with
  | decode r => exact .of_eq rfl
  | serialIo => exact .of_eq rfl
  | engineIo op => exact .trans (.of_eq rfl) (completeStatus_noTake op .fault (escStop .streamIo (dropLine s)))
  | handshake => exact .trans (.of_eq rfl) (completeStatus_noTake .init .fault (escStop .protocol (dropLine s)))
  | response =>
    exact .trans (.of_eq rfl) (completeStatus_noTake .send .protocol { s with esc := { s.esc with estate := .ready } })
  | config => exact .trans (.of_eq rfl) (completeStatus_noTake .init .fault (escStop .config s))

/-- R62: a write returns nothing. -/
theorem txWrite_noTake (bs : List Byte) (s : State) : AnswersNoTake k s (txWrite bs s).2 := by
  refine .of_eq ?_
  rcases txWrite_cases bs s with h | ⟨n, -, h⟩ <;> rw [h]

/-- R171: INIT from the speed lookup on. -/
theorem sendAdd_noTake (pin : Byte) (r : Rate) (s : State) : AnswersNoTake k s (sendAdd pin r s) := by
  have h := txWrite_noTake (k := k) (addLine pin r) { s with esc := { s.esc with espeed := speedOf r } }
  simp only [sendAdd]
  split
  · exact h.trans (.of_eq rfl)
  · exact h.trans (raise_noTake _ _)

/-- R171: INIT. -/
theorem acceptInit_noTake (pin : Byte) (rate : U16) (mode : WireMode) (s : State) :
    AnswersNoTake k s (acceptInit pin rate mode s) := by
  unfold acceptInit
  cases s.esc.estate with
  | uninit =>
    dsimp only
    cases rateOf rate
    · exact .trans (.of_eq rfl) (raise_noTake .config _)
    · exact .trans (.of_eq rfl) (sendAdd_noTake _ _ _)
  | hsWait => exact .of_eq rfl
  | ready => exact completeStatus_noTake _ _ s
  | rspWait => exact .of_eq rfl
  | fault => exact completeStatus_noTake _ _ s

/-- R176: SEND in TEXT mode. -/
theorem acceptSendText_noTake (thr : U11) (tel : Bool) (s : State) : AnswersNoTake k s (acceptSendText thr tel s) := by
  have h := txWrite_noTake (k := k) (throttleLine s.esc.eid thr tel) s
  simp only [acceptSendText]
  split
  · exact h.trans (.of_eq rfl)
  · exact h.trans (raise_noTake _ _)

/-- R177: SEND in BIN16 mode. -/
theorem acceptSendBin16_noTake (thr : U11) (tel : Bool) (s : State) :
    AnswersNoTake k s (acceptSendBin16 thr tel s) := by
  have h := txWrite_noTake (k := k) (binBytes thr tel) s
  simp only [acceptSendBin16]
  split
  · exact h.trans (completeStatus_noTake _ _ _)
  · exact h.trans (raise_noTake _ _)

/-- R174: SEND. -/
theorem acceptSend_noTake (thr : U11) (tel : Bool) (s : State) : AnswersNoTake k s (acceptSend thr tel s) := by
  unfold acceptSend
  cases s.esc.estate with
  | uninit => exact completeStatus_noTake _ _ s
  | hsWait => exact .of_eq rfl
  | ready =>
    dsimp only
    cases s.esc.emode with
    | text => exact acceptSendText_noTake thr tel s
    | bin16 => exact acceptSendBin16_noTake thr tel s
  | rspWait => exact .of_eq rfl
  | fault => exact completeStatus_noTake _ _ s

/-- R172: a line in the handshake. -/
theorem hsLine_noTake (ln : List Byte) (ov : Bool) (s : State) : AnswersNoTake k s (hsLine ln ov s) := by
  unfold hsLine
  split
  · split
    · exact raise_noTake .handshake s
    · exact .of_ret rfl fun _ _ => Ret.noConfusion
  · exact .of_eq rfl

/-- R178: a line during a SEND. -/
theorem rspLine_noTake (ln : List Byte) (ov : Bool) (s : State) : AnswersNoTake k s (rspLine ln ov s) := by
  unfold rspLine
  split
  · exact raise_noTake .response s
  · exact .of_ret rfl fun _ _ => Ret.noConfusion

/-- R180: RSPBYTE. -/
theorem acceptRspByte_noTake (b : Byte) (s : State) : AnswersNoTake k s (acceptRspByte b s) := by
  by_cases hb : b = LF
  · subst hb
    by_cases hs : s.esc.estate = .hsWait
    · rw [acceptRspByte_handshake hs]
      exact .trans (.of_eq rfl) (hsLine_noTake _ _ (dropLine s))
    · rw [acceptRspByte_response hs]
      exact .trans (.of_eq rfl) (rspLine_noTake _ _ (dropLine s))
  · rw [acceptRspByte_store hb]
    exact .of_eq rfl

/-- R180, R182: one event of the response stream. -/
theorem acceptRsp_noTake (e : StreamEv) (s : State) : AnswersNoTake k s (acceptRsp e s) := by
  cases e with
  | byte b => exact acceptRspByte_noTake b s
  | ioError => exact raise_noTake (.engineIo s.esc.eop) s

/-- R181: the run of the engine. -/
theorem escRun_noTake (n : Nat) (s : State) : AnswersNoTake k s (escRun n s) := by
  induction n generalizing s with
  | zero => exact .of_eq rfl
  | succ n ih =>
    unfold escRun
    split
    · split
      next => exact .of_eq rfl
      next e r _ =>
        have htake : AnswersNoTake k s (acceptRsp e { s with rspq := r }) := acceptRsp_noTake e _
        exact htake.trans (ih _)
    · exact .of_eq rfl

end

/-! ### What only publishes -/

/-- R151: from `s` to `t` slot `k` was at most published to, and only where the action `a` may, and no TAKE on it returned
a value. -/
structure Publishes (k : Nat) (a : Act) (s t : State) : Prop where
  sched : t.sched = s.sched
  slot {x : Slot} : s.slots[k]? = some x →
    ∃ y, t.slots[k]? = some y ∧ (y = x ∨ mayPublish k a = true ∧ ∃ v, y = x.published v)
  rets : AnswersNoTake k s t

section
variable {k : Nat} {a : Act}

/-- Where no slot is touched. -/
theorem Publishes.of_rets {s t : State} (hr : AnswersNoTake k s t) (hs : t.slots = s.slots := by rfl)
    (hq : t.sched = s.sched := by rfl) : Publishes k a s t := ⟨hq, fun {x} h => ⟨x, by rw [hs, h], .inl rfl⟩, hr⟩

/-- Where neither the slots nor the returned values are touched. -/
theorem Publishes.of_eq {s t : State} (hr : t.rets = s.rets := by rfl) (hs : t.slots = s.slots := by rfl)
    (hq : t.sched = s.sched := by rfl) : Publishes k a s t := .of_rets (.of_eq hr) hs hq

/-- One after the other. -/
theorem Publishes.trans {s t u : State} (h : Publishes k a s t) (h' : Publishes k a t u) : Publishes k a s u := by
  refine ⟨h'.sched.trans h.sched, fun {x} hx => ?_, h.rets.trans h'.rets⟩
  obtain ⟨y, hy, hxy⟩ := h.slot hx
  obtain ⟨z, hz, rfl | ⟨ha, w, rfl⟩⟩ := h'.slot hy
  · exact ⟨_, hz, hxy⟩
  · obtain rfl | ⟨-, v, rfl⟩ := hxy <;> exact ⟨_, hz, .inr ⟨ha, w, rfl⟩⟩

/-- R246: a step of the engine. -/
theorem EngineOnly.publishes {s t : State} (h : EngineOnly s t) (hr : AnswersNoTake k s t) : Publishes k a s t :=
  .of_rets hr (by rw [h]) (by rw [h])

/-- R246: a step of the decoder that writes no slot. -/
theorem DecoderOnly.publishes {s t : State} (h : DecoderOnly s t) (hs : t.slots = s.slots) : Publishes k a s t := by
  obtain ⟨ht, -⟩ := h
  exact .of_eq (by rw [ht]) hs (by rw [ht])

/-- R151: PUBLISH. -/
theorem slotPublish_publishes {j : Nat} (ha : j = k → mayPublish k a = true) (v : Value) (s : State) :
    Publishes k a s (slotPublish j v s) := by
  refine ⟨rfl, fun {x} hx => ?_, .of_eq rfl⟩
  by_cases hj : j = k
  · exact ⟨x.published v, by simp [hj, hx, Slot.published], .inr ⟨ha hj, v, rfl⟩⟩
  · exact ⟨x, by simp [hj, hx], .inl rfl⟩

/-- R134: DEC.DELIVER. -/
theorem deliver_publishes {j : Nat} (ha : j = k → mayPublish k a = true) (s : State) :
    Publishes k a s (deliver j s) := by
  unfold deliver
  split
  · exact (slotPublish_publishes ha _ s).trans .of_eq
  · exact .of_eq

/-- R134: the deliveries. -/
theorem deliverUpTo_publishes (ha : mayPublish k a = true) (n : Nat) (s : State) :
    Publishes k a s (deliverUpTo n s) := by
  induction n with
  | zero => exact .of_eq
  | succ n ih => exact ih.trans (deliver_publishes (fun _ => ha) _)

/-- R131: accepting a length byte writes no slot. -/
theorem acceptLen_publishes (b : Byte) (s : State) : Publishes k a s (acceptLen b s) := by
  refine (acceptLen_only b s).publishes ?_
  rw [acceptLen_eq]
  split
  · rfl
  · split <;> rfl

/-- R132, R133: accepting a payload byte writes no slot. -/
theorem acceptPayload_publishes (b : Byte) (s : State) : Publishes k a s (acceptPayload b s) := by
  refine (acceptPayload_only b s).publishes ?_
  by_cases h : s.dec.dcnt + 1 = s.dec.dlen.toNat - 1
  · obtain ⟨hs, -⟩ := frameComplete_pending (frameHeader b s.dec)
      { s with dec := { storePayload b s.dec with dcnt := s.dec.dcnt + 1 } }
    rw [acceptPayload_last h, hs]
  · rw [acceptPayload_mid h]

/-- R130: one event of the serial stream writes no slot. -/
theorem acceptEvent_publishes (e : StreamEv) (s : State) : Publishes k a s (acceptEvent e s) := by
  cases e with
  | ioError => exact .of_eq
  | byte b =>
    cases hs : s.dec.dstate with
    | len =>
      rw [acceptByte_len hs]
      exact acceptLen_publishes b s
    | payload =>
      rw [acceptByte_payload hs]
      exact acceptPayload_publishes b s
    | fatal =>
      rw [acceptByte_fatal hs]
      exact .of_eq

/-- R130: the run of the decoder. -/
theorem decRun_publishes (ha : mayPublish k a = true) (n : Nat) (s : State) : Publishes k a s (decRun n s) := by
  induction n generalizing s with
  | zero => exact .of_eq
  | succ n ih =>
    unfold decRun
    split
    · split
      next => exact .of_eq
      next e r _ =>
        have hevent : Publishes k a s (acceptEvent e { s with rxq := r }) := .trans .of_eq (acceptEvent_publishes e _)
        exact hevent.trans ((deliverUpTo_publishes ha _ _).trans (ih _))
    · exact .of_eq

/-- R115: bytes that arrive on the serial stream. -/
theorem serialArrive_publishes (ha : mayPublish k a = true) (bs : List Byte) (s : State) :
    Publishes k a s (serialArrive bs s) :=
  .trans (.trans .of_eq (deliverUpTo_publishes ha _ { s with rxq := s.rxq ++ bs.map StreamEv.byte }))
    (decRun_publishes ha _ _)

/-- R171: INIT. -/
theorem acceptInit_publishes (pin : Byte) (rate : U16) (mode : WireMode) (s : State) :
    Publishes k a s (acceptInit pin rate mode s) :=
  (acceptInit_only pin rate mode s).publishes (acceptInit_noTake pin rate mode s)

/-- R174: SEND. -/
theorem acceptSend_publishes (thr : U11) (tel : Bool) (s : State) : Publishes k a s (acceptSend thr tel s) :=
  (acceptSend_only thr tel s).publishes (acceptSend_noTake thr tel s)

/-- R176: SEND in TEXT mode. -/
theorem acceptSendText_publishes (thr : U11) (tel : Bool) (s : State) :
    Publishes k a s (acceptSendText thr tel s) :=
  (acceptSendText_only thr tel s).publishes (acceptSendText_noTake thr tel s)

/-- R177: SEND in BIN16 mode. -/
theorem acceptSendBin16_publishes (thr : U11) (tel : Bool) (s : State) :
    Publishes k a s (acceptSendBin16 thr tel s) :=
  (acceptSendBin16_only thr tel s).publishes (acceptSendBin16_noTake thr tel s)

/-- R180, R182: one event of the response stream. -/
theorem acceptRsp_publishes (e : StreamEv) (s : State) : Publishes k a s (acceptRsp e s) :=
  (acceptRsp_only e s).publishes (acceptRsp_noTake e s)

/-- R115: bytes that arrive on the response stream. -/
theorem responseArrive_publishes (bs : List Byte) (s : State) : Publishes k a s (responseArrive bs s) :=
  (responseArrive_only bs s).publishes (.trans (.of_eq rfl) (escRun_noTake _ _))

end

/-! ### What can become of a slot -/

/-- R151 to R155, R161: all that an action `a` other than reset, leading from `s` to `t`, can make of slot `k`, which holds
`x` in `s`; and what the TAKEs on it return in that step. -/
inductive SlotChange (k : Nat) (a : Act) (s t : State) (x : Slot) : Slot → Prop
  /-- It stays. -/
  | kept (hr : AnswersNoTake k s t) : SlotChange k a s t x x
  /-- R151: it is published to. -/
  | published (ha : mayPublish k a = true) (v : Value) (hr : AnswersNoTake k s t) : SlotChange k a s t x (x.published v)
  /-- R152: a TAKE gets its pending value. -/
  | taken (c : Nat) (hc : c < x.wait.length) (hf : x.full = true) (hr : t.rets = s.rets ++ [.take k c x.val])
      (hs : t.slots = s.slots.set k { x with full := false, wait := x.wait.set c false }) :
      SlotChange k a s t x { x with full := false, wait := x.wait.set c false }
  /-- R153: a TAKE finds no pending value and waits. -/
  | waits (c : Nat) (hf : x.full = false) (hr : t.rets = s.rets) :
      SlotChange k a s t x { x with wait := x.wait.set c true }
  /-- U3: a PEEK clears its flag, with `PEEK_CLEARS` on. -/
  | cleared (hp : s.params.peekClears = true) (hr : AnswersNoTake k s t) : SlotChange k a s t x { x with full := false }

/-- From `s` to `t` one of these happened to slot `k`, and the schedule stayed. -/
structure ChangesSlot (k : Nat) (a : Act) (s t : State) : Prop where
  sched : t.sched = s.sched
  slot {x : Slot} : s.slots[k]? = some x → ∃ y, t.slots[k]? = some y ∧ SlotChange k a s t x y

section
variable {k : Nat} {a : Act}

/-- What only publishes. -/
theorem Publishes.changes {s t : State} (h : Publishes k a s t) : ChangesSlot k a s t := by
  refine ⟨h.sched, fun {x} hx => ?_⟩
  obtain ⟨y, hy, rfl | ⟨ha, v, rfl⟩⟩ := h.slot hx
  · exact ⟨_, hy, .kept h.rets⟩
  · exact ⟨_, hy, .published ha v h.rets⟩

/-- Where neither the slots nor the returned values are touched. -/
theorem ChangesSlot.of_eq {s t : State} (hr : t.rets = s.rets := by rfl) (hs : t.slots = s.slots := by rfl)
    (hq : t.sched = s.sched := by rfl) : ChangesSlot k a s t := (Publishes.of_eq hr hs hq).changes

/-- Where neither the slots nor the returned values are touched after it. -/
theorem ChangesSlot.congr {s t u : State} (h : ChangesSlot k a s t) (hs : u.slots = t.slots := by rfl)
    (hr : u.rets = t.rets := by rfl) (hq : u.sched = t.sched := by rfl) : ChangesSlot k a s u := by
  have hnone (h : AnswersNoTake k s t) : AnswersNoTake k s u := h.trans (.of_eq hr)
  refine ⟨hq.trans h.sched, fun {x} hx => ?_⟩
  obtain ⟨y, hy, hxy⟩ := h.slot hx
  refine ⟨y, by rw [hs, hy], ?_⟩
  cases hxy with
  | kept ht => exact .kept (hnone ht)
  | published ha v ht => exact .published ha v (hnone ht)
  | taken c hc hf ht hset => exact .taken c hc hf (hr.trans ht) (hs.trans hset)
  | waits c hf ht => exact .waits c hf (hr.trans ht)
  | cleared hp ht => exact .cleared hp (hnone ht)

/-- A slot other than the one that is written stays. -/
theorem ChangesSlot.of_other {j : Nat} (hj : j ≠ k) {s t : State} {y : Slot} (hs : t.slots = s.slots.set j y)
    (hr : AnswersNoTake k s t) (hq : t.sched = s.sched := by rfl) : ChangesSlot k a s t :=
  ⟨hq, fun {x} hx => ⟨x, by rw [hs, List.getElem?_set_ne hj, hx], .kept hr⟩⟩

/-- What becomes of the slot that is written. -/
theorem ChangesSlot.of_written {s t : State} {x y : Slot} (hx : s.slots[k]? = some x) (hs : t.slots = s.slots.set k y)
    (h : SlotChange k a s t x y) (hq : t.sched = s.sched := by rfl) : ChangesSlot k a s t := by
  obtain ⟨hk, -⟩ := List.getElem?_eq_some_iff.mp hx
  refine ⟨hq, fun {z} hz => ⟨y, by simp [hs, hk], ?_⟩⟩
  obtain rfl : x = z := Option.some.inj (hx.symm.trans hz)
  exact h

/-- R152, R153: TAKE at a port of the block. -/
theorem slotTake_changes {j c : Nat} {s : State} {sl : Slot} (h : s.slots[j]? = some sl) (hc : c < sl.wait.length) :
    ChangesSlot k a s (slotTake j c s).2 := by
  cases hf : sl.full with
  | true =>
    rw [slotTake_full h hf]
    by_cases hj : j = k
    · subst hj
      exact .of_written h rfl (.taken c hc hf rfl rfl)
    · exact .of_other hj rfl (.of_ret rfl fun _ _ => by simp [Ne.symm hj])
  | false =>
    rw [slotTake_empty h hf]
    by_cases hj : j = k
    · subst hj
      exact .of_written h rfl (.waits c hf rfl)
    · exact .of_other hj rfl (.of_eq rfl)

/-- R154: PEEK at a slot of the block. -/
theorem slotPeek_changes {j c : Nat} {s : State} {sl : Slot} (h : s.slots[j]? = some sl) :
    ChangesSlot k a s (slotPeek j c s).2 := by
  have hpeek {o : Option Value} {t : State} (ht : t.rets = s.rets ++ [.peek j c o]) : AnswersNoTake k s t :=
    .of_ret ht fun _ _ => Ret.noConfusion
  cases hf : sl.full with
  | true =>
    rw [slotPeek_full h hf]
    by_cases hj : j = k
    · subst hj
      refine .of_written h rfl ?_
      cases hp : s.params.peekClears with
      | true => exact .cleared hp (hpeek rfl)
      | false =>
        have hsame : ({ sl with full := !false } : Slot) = sl := by rw [Bool.not_false, ← hf]
        rw [hsame]
        exact .kept (hpeek rfl)
    · exact .of_other hj rfl (hpeek rfl)
  | false =>
    rw [slotPeek_empty h hf]
    exact (Publishes.of_rets (hpeek rfl)).changes

/-- R210 (1): a loop's reading turn, at its port. -/
theorem loopRead_changes {j : Nat} {s : State} {sl : Slot} (h : s.slots[j]? = some sl) (hc : 0 < sl.wait.length)
    (m : ReadMode) : ChangesSlot k a s (loopRead m j s).2 := by
  cases m with
  | take => exact slotTake_changes h hc
  | peek =>
    rw [loopRead_peek h]
    split
    · exact .of_eq
    · exact slotPeek_changes h

/-! ### The rows -/

/-- Log entry 3: a row that passes where it is not enabled. -/
theorem Publishes.guarded {s t : State} {p : Prop} [Decidable p] (h : Publishes k a s t) :
    Answers (ChangesSlot k a) s (if p then .next t else .next s) := .guarded h.changes .of_eq

/-- R131: the row DEC.LEN. -/
theorem execDecLen_changes (s : State) : Answers (ChangesSlot k a) s (execDecLen s) := by
  unfold execDecLen
  split
  · split
    next b r _ => exact .next (Publishes.trans .of_eq (acceptLen_publishes b { s with rxq := r })).changes
    next => exact .next .of_eq
  · exact .next .of_eq

/-- R132: the row DEC.PAYLOAD. -/
theorem execDecPayload_changes (s : State) : Answers (ChangesSlot k a) s (execDecPayload s) := by
  unfold execDecPayload
  split
  · split
    next b r _ => exact .next (Publishes.trans .of_eq (acceptPayload_publishes b { s with rxq := r })).changes
    next => exact .next .of_eq
  · exact .next .of_eq

/-- R135: the row DEC.RXERR. -/
theorem execDecRxerr_changes (s : State) : Answers (ChangesSlot k a) s (execDecRxerr s) := by
  unfold execDecRxerr
  split
  · split <;> exact .next .of_eq
  · exact .next .of_eq

/-- R180: the row ESC.RSPBYTE. -/
theorem execEscRspbyte_changes (s : State) : Answers (ChangesSlot k a) s (execEscRspbyte s) := by
  unfold execEscRspbyte
  split
  · split
    next b r _ => exact .next (Publishes.trans .of_eq (acceptRsp_publishes (.byte b) { s with rspq := r })).changes
    next => exact .next .of_eq
  · exact .next .of_eq

/-- R182: the row ESC.RSPERR. -/
theorem execEscRsperr_changes (s : State) : Answers (ChangesSlot k a) s (execEscRsperr s) := by
  unfold execEscRsperr
  split
  · split
    next r _ => exact .next (Publishes.trans .of_eq (acceptRsp_publishes .ioError { s with rspq := r })).changes
    next => exact .next .of_eq
  · exact .next .of_eq

/-- R152, R153: the row TAKE. -/
theorem execTake_changes (j c : Nat) (s : State) : Answers (ChangesSlot k a) s (execTake j c s) := by
  intro t ht
  obtain ⟨sl, h, hc, rfl⟩ := atPort_next ht
  exact slotTake_changes h hc

/-- R154: the row PEEK. -/
theorem execPeek_changes (j c : Nat) (s : State) : Answers (ChangesSlot k a) s (execPeek j c s) := by
  intro t ht
  obtain ⟨sl, h, hc, rfl⟩ := atPort_next ht
  simp only [h]
  split
  · exact .of_eq
  · exact slotPeek_changes h

/-- R115, R134: a frame that comes in may publish to every slot. -/
theorem mayPublish_of_frame {i : Instr} (hi : isFrame i = true) (ha : actInstr a = some i) : mayPublish k a = true := by
  unfold mayPublish
  rw [ha]
  cases i with
  | publish j v => cases hi
  | decDeliver j => cases hi
  | _ => exact hi

/-- R115, R134: a frame that comes in. -/
theorem exec_frame_changes {i : Instr} (hi : isFrame i = true) (ha : actInstr a = some i) (s : State) :
    Answers (ChangesSlot k a) s (exec i s) := by
  rw [exec_frame hi]
  exact .next (serialArrive_publishes (mayPublish_of_frame hi ha) _ s).changes

/-- R115: a line that comes in is the engine's. -/
theorem exec_line_changes {i : Instr} (hi : portOf i = .hsLine ∨ portOf i = .rspLine) (s : State) :
    Answers (ChangesSlot k a) s (exec i s) := by
  rw [exec_line hi]
  exact .next (responseArrive_publishes _ s).changes

/-- R161: what every row can make of a slot. -/
theorem exec_changes {i : Instr} (ha : actInstr a = some i) (s : State) :
    Answers (ChangesSlot k a) s (exec i s) := by
  cases i with
  | sframeZerolen => exact exec_frame_changes rfl ha s
  | sframeEmpty => exact exec_frame_changes rfl ha s
  | sframeChdata f => exact exec_frame_changes rfl ha s
  | sframeBadlen len rest => exact exec_frame_changes rfl ha s
  | sframeOther len hdr rest => exact exec_frame_changes rfl ha s
  | decLen => exact execDecLen_changes s
  | decPayload => exact execDecPayload_changes s
  | decDeliver j => exact .atSlot (deliver_publishes (fun hj => by simp [mayPublish, ha, hj]) s).changes j
  | decRxerr => exact execDecRxerr_changes s
  | publish j v => exact .atSlot (slotPublish_publishes (fun hj => by simp [mayPublish, ha, hj]) v s).changes j
  | take j c => exact execTake_changes j c s
  | peek j c => exact execPeek_changes j c s
  | init pin rate mode => exact .next (acceptInit_publishes pin rate mode s).changes
  | send thr tel => exact .next (acceptSend_publishes thr tel s).changes
  | sendText thr tel => exact (acceptSendText_publishes thr tel s).guarded
  | sendBin16 thr tel => exact (acceptSendBin16_publishes thr tel s).guarded
  | escRspbyte => exact execEscRspbyte_changes s
  | escRsperr => exact execEscRsperr_changes s
  | tlineAdd pin rate =>
    exact Publishes.guarded
      ((sendAdd_only pin rate _).of_esc.publishes (.trans (.of_eq rfl) (sendAdd_noTake pin rate _)))
  | tlineThrottle id thr tel => exact (acceptSendText_publishes thr tel s).guarded
  | hsOk rest => exact exec_line_changes (.inl rfl) s
  | hsOkNoint rest => exact exec_line_changes (.inl rfl) s
  | hsOther ln => exact exec_line_changes (.inl rfl) s
  | rspThrottle idText payload => exact exec_line_changes (.inr rfl) s
  | rspOk idText payload => exact exec_line_changes (.inr rfl) s
  | rspErr idText payload => exact exec_line_changes (.inr rfl) s
  | rspInvalid ln => exact exec_line_changes (.inr rfl) s
  | bin16Frame thr tel => exact (acceptSendBin16_publishes thr tel s).guarded
  | servomap f => exact .next .of_eq
  | escmap f => exact .next .of_eq

/-! ### The actions -/

/-- R210: a turn of the servo loop, at its port. -/
theorem servoTurn_changes {s : State} {sl : Slot} (h : s.slots[0]? = some sl) (hc : 0 < sl.wait.length) :
    ChangesSlot k a s (servoTurn s) := by
  unfold servoTurn
  split
  · have hread := loopRead_changes (k := k) (a := a) h hc s.params.readServo
    dsimp only
    split
    · exact hread.congr
    · exact hread
  · exact .of_eq

/-- R210, R211: a turn of the ESC loop, at its port. -/
theorem escTurn_changes {s : State} {sl : Slot} (h : s.slots[1]? = some sl) (hc : 0 < sl.wait.length) :
    ChangesSlot k a s (escTurn s) := by
  unfold escTurn
  cases s.escLoop with
  | boot =>
    dsimp only
    split
    · exact .of_eq
    · exact ((acceptInit_publishes s.params.pin s.params.rate s.params.wireMode s).trans .of_eq).changes
  | waitInit =>
    dsimp only
    split <;> exact .of_eq
  | get =>
    have hread := loopRead_changes (k := k) (a := a) h hc s.params.readEsc
    dsimp only
    split
    · exact hread.congr
    · exact hread
  | issue thr tel =>
    dsimp only
    split
    · exact .of_eq
    · exact ((acceptSend_publishes thr tel s).trans .of_eq).changes
  | waitSend =>
    dsimp only
    split <;> exact .of_eq
  | stopped => exact .of_eq
  | _ =>
    -- the phase that holds a frame value
    dsimp only
    split <;> exact .of_eq

/-- R161: what every action but reset can make of a slot. -/
theorem runAct_changes (ha : a ≠ .rst) (s : State) : Answers (ChangesSlot k a) s (runAct a s) := by
  intro t ht
  cases a with
  | rx valid err data =>
    rw [runAct, srcCycle_eq] at ht
    cases ht
    exact .of_eq
  | rsp valid err data =>
    rw [runAct, svcCycle_eq] at ht
    cases ht
    exact .of_eq
  | svcRead n =>
    cases ht
    exact .of_eq
  | cmdFail c =>
    cases ht
    exact .of_eq
  | rst => exact absurd rfl ha
  | servoLoop =>
    obtain ⟨sl, h, hc, rfl⟩ := atPort_next ht
    exact servoTurn_changes h hc
  | escLoop =>
    obtain ⟨sl, h, hc, rfl⟩ := atPort_next ht
    exact escTurn_changes h hc
  | unit p bs =>
    cases hd : decode p bs with
    | ok i =>
      rw [runAct, runUnit_of_decode hd] at ht
      exact exec_changes (by simp [actInstr, hd]) s t ht
    | error e =>
      rw [runAct, runUnit_of_reject hd] at ht
      cases ht

end

/-- Settles O32: of all that can become of a full slot, only a TAKE empties it while `PEEK_CLEARS` is off. -/
theorem flagFallsOnlyByTake : Obligations.FlagFallsOnlyByTake := by
  intro s t a r k x y hkeeps ha ht hx hy hfull hempty
  rw [step_of_scheduled] at ht
  obtain ⟨y', hy', hchange⟩ := (runAct_changes (k := k) ha _ t ht).slot hx
  obtain rfl : y = y' := Option.some.inj (hy.symm.trans hy')
  cases hchange with
  | kept => simp [hfull] at hempty
  | published => cases hempty
  | taken c _ _ hret => exact ⟨rfl, c, hret⟩
  | waits => simp [hfull] at hempty
  | cleared hclears => simp [hkeeps] at hclears

/-! ### A value that has been taken -/

/-- R157: slot `k`, of `n` consumer ports, holds no unread value. -/
def Spent (k n : Nat) (s : State) : Prop := ∃ x, s.slots[k]? = some x ∧ x.full = false ∧ x.wait.length = n

/-- R157: an action that may not publish to a spent slot leaves it spent, and returns nothing to a TAKE on it. -/
theorem Spent.runAct {k n : Nat} {a : Act} {s t : State} (h : Spent k n s) (ha : mayPublish k a = false)
    (ht : runAct a s = .next t) : Spent k n t ∧ AnswersNoTake k s t ∧ t.sched = s.sched := by
  obtain ⟨x, hx, hempty, hn⟩ := h
  by_cases hrst : a = .rst
  · subst hrst
    cases ht
    exact ⟨⟨Slot.reset x.wait.length, by simp [resetBlock, hx], rfl, by simp [Slot.reset, hn]⟩, .of_eq rfl, rfl⟩
  · obtain ⟨hsched, hslot⟩ := runAct_changes (k := k) hrst s t ht
    obtain ⟨y, hy, hchange⟩ := hslot hx
    have hkept : y.full = false ∧ y.wait.length = n ∧ AnswersNoTake k s t := by
      cases hchange with
      | kept hr => exact ⟨hempty, hn, hr⟩
      | published hmay => simp [ha] at hmay
      | taken _ _ hfull => simp [hempty] at hfull
      | waits c _ hr => exact ⟨hempty, by simpa using hn, .of_eq hr⟩
      | cleared _ hr => exact ⟨rfl, hn, hr⟩
    obtain ⟨hempty', hn', hnone⟩ := hkept
    exact ⟨⟨y, hy, hempty', hn'⟩, hnone, hsched⟩

/-- The first step of a run that answers a next state. -/
theorem run_succ_next {s t : State} {n : Nat} (h : Host.Core.run core (n + 1) s = .next t) :
    ∃ u, step s = .next u ∧ Host.Core.run core n u = .next t := by
  simp only [Host.Core.run] at h
  split at h
  · exact ⟨_, ‹_›, h⟩
  · cases h
  · cases h

/-- R157: a schedule that publishes nothing to a spent slot leaves it spent, and returns nothing to a TAKE on it. -/
theorem Spent.run {k n : Nat} {acts : List Act} (ha : ∀ a ∈ acts, mayPublish k a = false) {s t : State}
    (h : Spent k n s) (hs : s.sched = acts) (ht : Host.Core.run core acts.length s = .next t) :
    Spent k n t ∧ AnswersNoTake k s t := by
  induction acts generalizing s with
  | nil =>
    cases ht
    exact ⟨h, .of_eq rfl⟩
  | cons a acts ih =>
    obtain ⟨hhead, htail⟩ := List.forall_mem_cons.1 ha
    obtain ⟨u, hu, hrest⟩ := run_succ_next ht
    rw [step_scheduled hs] at hu
    obtain ⟨hspent, hfirst, hsched⟩ := Spent.runAct (s := { s with sched := acts }) h hhead hu
    obtain ⟨hspent', hlater⟩ := ih htail hspent hsched hrest
    exact ⟨hspent', .trans hfirst hlater⟩

/-- Settles O33: the TAKE leaves the slot spent, and what is scheduled after it keeps it so. -/
theorem oneTakePerPublish : Obligations.OneTakePerPublish := by
  intro s k c v sl h hc
  obtain ⟨hk, -⟩ := List.getElem?_eq_some_iff.mp h
  refine ⟨_, _, publishOverwrites s k v sl h,
    takeReturnsPending _ k c { sl with val := v, full := true } (by simp [hk]) hc rfl, rfl, List.set_set _, ?_⟩
  intro acts t ha ht
  obtain ⟨⟨sl', hsl', hempty, hn⟩, hrets⟩ := Spent.run (n := sl.wait.length) ha
    ⟨{ val := v, full := false, wait := sl.wait.set c false }, by simp [hk], rfl, by simp⟩ rfl ht
  exact ⟨hrets, sl', hsl', hn, fun d hd => takeWaits t k d sl' hsl' (by rwa [hn]) hempty⟩

/-! ### A TAKE that is owed a value -/

/-- R158: the one consumer of slot `k` has a TAKE outstanding and a value is pending, with `PEEK_CLEARS` off. -/
def Owed (k : Nat) (s : State) : Prop :=
  s.params.peekClears = false ∧ ∃ x, s.slots[k]? = some x ∧ x.full = true ∧ x.wait = [true]

/-- R152: from `s` to `t` the one consumer of slot `k` gets the value pending in `s`. -/
def Served (k : Nat) (s t : State) : Prop :=
  ∃ x, s.slots[k]? = some x ∧ t.rets = s.rets ++ [.take k 0 x.val] ∧
    t.slots = s.slots.set k { x with full := false, wait := [false] }

/-- R158: the TAKE's completing step is enabled. -/
theorem Owed.takeEnabled {k : Nat} {s : State} (h : Owed k s) : takeEnabled k 0 s = true := by
  obtain ⟨-, x, hx, hfull, hwait⟩ := h
  exact takeEnabled_iff.2 ⟨x, hx, hfull, by simp [hwait]⟩

/-- R158: a step other than reset serves the TAKE or leaves it owed: a PUBLISH in between overwrites the value and keeps the
flag and the waiter. -/
theorem Owed.runAct {k : Nat} {a : Act} {s t : State} (h : Owed k s) (ha : a ≠ .rst) (ht : runAct a s = .next t) :
    Owed k t ∨ Served k s t := by
  obtain ⟨hkeeps, x, hx, hfull, hwait⟩ := h
  have hparams : t.params.peekClears = false := by rw [(runAct_advances ha s t ht).params, hkeeps]
  obtain ⟨y, hy, hchange⟩ := (runAct_changes (k := k) ha s t ht).slot hx
  cases hchange with
  | kept => exact .inl ⟨hparams, x, hy, hfull, hwait⟩
  | published _ v => exact .inl ⟨hparams, x.published v, hy, rfl, hwait⟩
  | taken c hc _ hr hs =>
    obtain rfl : c = 0 := by simpa [hwait] using hc
    exact .inr ⟨x, hx, hr, by simpa [hwait] using hs⟩
  | waits _ hempty => simp [hfull] at hempty
  | cleared hclears => simp [hkeeps] at hclears

/-- R152: TAKE on a slot that owes its one consumer a value serves it. -/
theorem Owed.slotTake {k : Nat} {s : State} (h : Owed k s) : Served k s (slotTake k 0 s).2 := by
  obtain ⟨-, x, hx, hfull, hwait⟩ := h
  rw [slotTake_full hx hfull]
  exact ⟨x, hx, rfl, by simp [hwait]⟩

/-- R210 (1): a loop's turn that performs a TAKE does to the slots and the returned values what the TAKE does. -/
theorem loopTake_turn {k c : Nat} {a : Act} {s t : State} (h : loopTake s a = some (.take k c))
    (ht : runAct a s = .next t) : t.slots = (slotTake k c s).2.slots ∧ t.rets = (slotTake k c s).2.rets := by
  unfold loopTake at h
  split at h
  next =>
    split at h <;> cases h
    rename_i hloop
    obtain ⟨-, -, -, rfl⟩ := atPort_next ht
    obtain ⟨hget, hread⟩ := hloop
    simp only [servoTurn, hget, hread, loopRead_take]
    split <;> exact ⟨rfl, rfl⟩
  next =>
    split at h <;> cases h
    rename_i hloop
    obtain ⟨-, -, -, rfl⟩ := atPort_next ht
    obtain ⟨hget, hread⟩ := hloop
    simp only [escTurn, hget, hread, loopRead_take]
    split <;> exact ⟨rfl, rfl⟩
  next => cases h

/-- R14: an action that is a unit of the instruction `i` executes it. -/
theorem runAct_of_actInstr {a : Act} {i : Instr} (h : actInstr a = some i) (s : State) : runAct a s = exec i s := by
  cases a with
  | unit p bs =>
    simp only [actInstr] at h
    split at h <;> cases h
    exact runUnit_of_decode ‹_› s
  | _ => cases h

/-- R158: the completing step of the TAKE, whoever performs it, serves it. -/
theorem Owed.takenBy {k : Nat} {a : Act} {s t : State} (h : Owed k s) (hg : (AgentStep.row (.take k 0)).takenBy s a)
    (ht : Machine.runAct a s = .next t) : Served k s t := by
  have hserved := h.slotTake
  obtain ⟨-, x, hx, -, hwait⟩ := h
  obtain hrow | hloop := hg
  · rw [runAct_of_actInstr hrow, exec_take_at hx (by simp [hwait])] at ht
    cases ht
    exact hserved
  · obtain ⟨hslots, hrets⟩ := loopTake_turn hloop ht
    obtain ⟨y, hy, hr, hs⟩ := hserved
    exact ⟨y, hy, hrets.trans hr, hslots.trans hs⟩

/-! ### Weak fairness -/

/-- R158: in an execution without reset the TAKE stays owed for as long as it is not served. -/
theorem owed_until_served {e : Nat → State} {a : Nat → Act} (he : Executes e a) {k n : Nat}
    (ha : ∀ m, n ≤ m → a m ≠ .rst) (h : Owed k (e n)) {d : Nat}
    (hd : ∀ i < d, ¬ Served k (e (n + i)) (e (n + i + 1))) : Owed k (e (n + d)) := by
  induction d with
  | zero => exact h
  | succ d ih =>
    have howed := ih fun i hi => hd i (by omega)
    have hstep := Owed.runAct (s := { e (n + d) with sched := [] }) howed (ha (n + d) (by omega)) (he.runAct (n + d))
    exact hstep.resolve_right (hd d (by omega))

/-- R158: in a weakly fair execution without reset the TAKE is served in the end: it would be enabled for ever. -/
theorem served_of_weaklyFair {e : Nat → State} {a : Nat → Act} (he : Executes e a) (hf : WeaklyFair e a) {k n : Nat}
    (ha : ∀ m, n ≤ m → a m ≠ .rst) (h : Owed k (e n)) : ∃ d, Served k (e (n + d)) (e (n + d + 1)) := by
  by_contra hnever
  push Not at hnever
  have howed (d : Nat) : Owed k (e (n + d)) := owed_until_served he ha h fun i _ => hnever i
  obtain ⟨m, hm, htaken⟩ := hf (.row (.take k 0)) n fun m hm => by
    obtain ⟨d, rfl⟩ := Nat.exists_eq_add_of_le hm
    exact (howed d).takeEnabled
  obtain ⟨d, rfl⟩ := Nat.exists_eq_add_of_le hm
  exact hnever d (Owed.takenBy (s := { e (n + d) with sched := [] }) (howed d) htaken (he.runAct (n + d)))

/-- Settles O34: the TAKE is served in the end, and stays owed, hence enabled, up to the first step that serves it. -/
theorem fairTakeCompletes : Obligations.FairTakeCompletes := by
  classical
  intro e a k n sl he hf ha hkeeps hsl hone hen
  have howed : Owed k (e n) := by
    obtain ⟨x, hx, hfull, hwait⟩ := takeEnabled_iff.1 hen
    obtain rfl : sl = x := Option.some.inj (hsl.symm.trans hx)
    obtain ⟨b, hb⟩ := List.length_eq_one_iff.1 hone
    exact ⟨hkeeps, sl, hsl, hfull, by simpa [hb] using hwait⟩
  have hserved := served_of_weaklyFair he hf ha howed
  refine ⟨n + Nat.find hserved, by omega, fun j hnj hj => ?_, Nat.find_spec hserved⟩
  obtain ⟨d, rfl⟩ := Nat.exists_eq_add_of_le hnj
  exact (owed_until_served he ha howed fun i hi => Nat.find_min hserved (by omega)).takeEnabled

end Sys2Proof.Machine
end

section
/-! SUPPORT. The proofs of the statements on the engine's operations: INIT and SEND form by form, the two reading steps,
and the checksum of the 16-bit frame. -/

namespace Sys2Proof.Machine

/-! ### INIT and SEND -/

/-- Settles O36: both forms write the ADD line, INIT with its mode latched and the line with the mode that is held. -/
theorem initSendsAdd : Obligations.InitSendsAdd := by
  intro s pin r mode hu hw
  constructor
  · rw [exec_init_uninit hu, sendAdd_ok (by exact hw)]
    rfl
  · rw [exec_tlineAdd_uninit hu, sendAdd_ok (by exact hw)]
    rfl

/-- R171, R234: a rate that is no key of the speed table. -/
theorem rateOf_unsupported {rate : U16} (h150 : rate ≠ 150) (h300 : rate ≠ 300) (h600 : rate ≠ 600)
    (h1200 : rate ≠ 1200) : rateOf rate = none := by
  rw [rateOf, if_neg h150, if_neg h300, if_neg h600, if_neg h1200]

/-- R171, R243: INIT with such a rate latches its operands and raises the ConfigError. -/
theorem acceptInit_unsupported {s : State} (h : s.esc.estate = .uninit) {rate : U16} (hr : rateOf rate = none)
    (pin : Byte) (mode : WireMode) :
    acceptInit pin rate mode s =
      raise .config { s with esc := { s.esc with emode := mode, epin := pin, erate := rate } } := by
  simp only [acceptInit, h, hr]

/-- Settles O37: the table has no such rate, and the ConfigError is raised before any write. -/
theorem unsupportedRateIsConfigError : Obligations.UnsupportedRateIsConfigError := by
  intro s pin rate mode hu h150 h300 h600 h1200
  exact congrArg Host.Outcome.next (acceptInit_unsupported hu (rateOf_unsupported h150 h300 h600 h1200) pin mode)

/-- R170, R171: what INIT of an engine with an endpoint, a stopped or a busy one does. -/
theorem acceptInit_wrongState (pin : Byte) (rate : U16) (mode : WireMode) (s : State) :
    (s.esc.estate = .fault → acceptInit pin rate mode s = completeStatus .init .fault s) ∧
    (s.esc.estate = .ready → acceptInit pin rate mode s = completeStatus .init .badState s) ∧
    (busy s.esc = true → acceptInit pin rate mode s = s) := by
  refine ⟨fun h => ?_, fun h => ?_, fun h => ?_⟩
  · simp only [acceptInit, h]
  · simp only [acceptInit, h]
  · rcases (busy_iff _).1 h with h | h <;> simp only [acceptInit, h]

/-- R170, R174: what SEND of an engine without an endpoint, a stopped or a busy one does. -/
theorem acceptSend_wrongState (thr : U11) (tel : Bool) (s : State) :
    (s.esc.estate = .fault → acceptSend thr tel s = completeStatus .send .fault s) ∧
    (s.esc.estate = .uninit → acceptSend thr tel s = completeStatus .send .badState s) ∧
    (busy s.esc = true → acceptSend thr tel s = s) := by
  refine ⟨fun h => ?_, fun h => ?_, fun h => ?_⟩
  · simp only [acceptSend, h]
  · simp only [acceptSend, h]
  · rcases (busy_iff _).1 h with h | h <;> simp only [acceptSend, h]

/-- Settles O39: a wrong state completes the operation with its status alone, and a busy engine accepts none. -/
theorem operationsInWrongState : Obligations.OperationsInWrongState := by
  intro s pin rate mode thr tel
  obtain ⟨hinitFault, hinitReady, hinitBusy⟩ := acceptInit_wrongState pin rate mode s
  obtain ⟨hsendFault, hsendUninit, hsendBusy⟩ := acceptSend_wrongState thr tel s
  exact ⟨fun h => ⟨congrArg Host.Outcome.next (hinitFault h), congrArg Host.Outcome.next (hsendFault h)⟩,
    fun h => congrArg Host.Outcome.next (hinitReady h), fun h => congrArg Host.Outcome.next (hsendUninit h),
    fun h => ⟨congrArg Host.Outcome.next (hinitBusy h), congrArg Host.Outcome.next (hsendBusy h)⟩⟩

/-- Settles O40: the three forms perform the one write of the THROTTLE line. -/
theorem sendTextWritesThrottle : Obligations.SendTextWritesThrottle := by
  intro s thr tel i hi hr hm hw
  rw [exec_textForm hi hr hm, acceptSendText_ok hw]
  rfl

/-- Settles O41: the three forms perform the one write of the frame, after which SEND completes. -/
theorem sendBin16WritesFrame : Obligations.SendBin16WritesFrame := by
  intro s thr tel i hi hr hm hw
  rw [exec_bin16Form hi hr hm, acceptSendBin16_ok hw]
  rfl

/-! ### The two reading steps -/

/-- R180: ESC.RSPBYTE passes where it is not enabled. -/
theorem escRspbyte_passes {s : State} (h : rowEnabled .escRspbyte s = false) : exec .escRspbyte s = .next s := by
  change execEscRspbyte s = .next s
  unfold execEscRspbyte
  split
  next hb =>
    split
    next hq => simp [rowEnabled, hb, hq, headByte] at h
    next => rfl
  next => rfl

/-- R182: ESC.RSPERR passes where it is not enabled. -/
theorem escRsperr_passes {s : State} (h : rowEnabled .escRsperr s = false) : exec .escRsperr s = .next s := by
  change execEscRsperr s = .next s
  unfold execEscRsperr
  split
  next hb =>
    split
    next hq => simp [rowEnabled, hb, hq, headError] at h
    next => rfl
  next => rfl

/-- R182: ESC.RSPERR where it is enabled. -/
theorem exec_escRsperr_busy {s : State} (hb : busy s.esc = true) {q : List StreamEv} (hq : s.rspq = .ioError :: q) :
    exec .escRsperr s = .next (raise (.engineIo s.esc.eop) { s with rspq := q }) := by
  refine (if_pos hb : execEscRsperr s = _).trans ?_
  rw [hq]

/-- Settles O43: the byte is stored where the buffer has room, and marks the line overlong where it has none. -/
theorem responseByteStored : Obligations.ResponseByteStored := by
  intro s b r hb hq hne
  rw [exec_escRspbyte_busy hb hq, acceptRspByte_store hne]
  refine ⟨fun h => ?_, fun h => ?_⟩
  · rw [storeLineByte, if_pos (by exact h)]
  · rw [storeLineByte, if_neg (by exact Nat.not_lt.2 h)]

/-- R180: ESC.RSPBYTE on an LF in the handshake. -/
theorem exec_escRspbyte_handshake {s : State} (hs : s.esc.estate = .hsWait) {q : List StreamEv}
    (hq : s.rspq = .byte LF :: q) :
    exec .escRspbyte s = .next (hsLine (s.esc.lbuf.take s.esc.llen) s.esc.lovf (dropLine { s with rspq := q })) := by
  rw [exec_escRspbyte_busy ((busy_iff _).2 (.inl hs)) hq, acceptRspByte_handshake (by exact hs)]

/-- R180: ESC.RSPBYTE on an LF during a SEND. -/
theorem exec_escRspbyte_response {s : State} (hs : s.esc.estate = .rspWait) {q : List StreamEv}
    (hq : s.rspq = .byte LF :: q) :
    exec .escRspbyte s = .next (rspLine (s.esc.lbuf.take s.esc.llen) s.esc.lovf (dropLine { s with rspq := q })) := by
  rw [exec_escRspbyte_busy ((busy_iff _).2 (.inr hs)) hq, acceptRspByte_response (by simp [hs])]

/-- Settles O44: the LF hands the held line to the handshake or to the SEND, and each line action decides by the line. -/
theorem lineFeedEndsLine : Obligations.LineFeedEndsLine := by
  rintro s r ln hq rfl
  refine ⟨fun hs ho hok => ⟨fun v hv => ?_, fun hv => ?_⟩, fun hs h => ?_, fun hs h => ?_, fun c hs ho hc => ?_⟩
  · rw [exec_escRspbyte_handshake hs hq, ho, hsLine_answer hok hv]
    rfl
  · rw [exec_escRspbyte_handshake hs hq, ho, hsLine_noInt hok hv]
    rfl
  · rw [exec_escRspbyte_handshake hs hq, hsLine_ignored h]
    rfl
  · rw [exec_escRspbyte_response hs hq, rspLine_refused h]
    rfl
  · rw [exec_escRspbyte_response hs hq, ho, rspLine_command hc]
    rfl

/-- Settles O45: the step raises the engine's stream error for the operation in progress. -/
theorem responseErrorFaults : Obligations.ResponseErrorFaults := by
  intro s r hb hq
  rw [exec_escRsperr_busy hb hq, raise_engineIo]
  cases s.esc.eop <;> rfl

/-- Settles O50: each ground disables the reading step, and an idle engine's run over what arrives takes nothing. -/
theorem idleEngineReadsNothing : Obligations.IdleEngineReadsNothing := by
  intro s
  refine ⟨fun hi => ⟨hi, escRspbyte_passes ?_, escRsperr_passes ?_, responseArrive_idle hi⟩,
    fun hq => ⟨escRspbyte_passes ?_, escRsperr_passes ?_⟩, fun r hq => escRspbyte_passes ?_,
    fun b r hq => escRsperr_passes ?_⟩
  all_goals simp [rowEnabled, headByte, headError, *]

/-! ### The checksum of the 16-bit frame -/

/-- R190: the nibbles of a frame below its checksum are those of its field. -/
theorem binFrame_fieldNibble (thr : U11) (tel : Bool) {k : Nat} (hk : k ≤ 8) :
    (binFrame thr tel).extractLsb' k 4 = (binField thr tel).extractLsb' k 4 := by
  apply BitVec.eq_of_getLsbD_eq
  intro i hi
  simp only [BitVec.getLsbD_extractLsb']
  rw [binFrame_bit thr tel (by omega), if_pos (by omega)]

/-- R190: the checksum nibble of a frame is the complement of the exclusive or of its field's three. -/
theorem binFrame_checksumNibble (thr : U11) (tel : Bool) :
    (binFrame thr tel).extractLsb' 12 4 =
      ~~~((binField thr tel).extractLsb' 0 4 ^^^ (binField thr tel).extractLsb' 4 4 ^^^
        (binField thr tel).extractLsb' 8 4) := by
  apply BitVec.eq_of_getLsbD_eq
  intro i hi
  have hbit : (binFrame thr tel).getLsbD (12 + i) = (checksum (binField thr tel)).getLsbD i := by
    rw [← BitVec.getLsbD_ushiftRight, binFrame_nibble]
  have hmask : (0x000F : U16).getLsbD i = true := by rw [nibbleMask_bit (by omega), decide_eq_true hi]
  rw [BitVec.getLsbD_extractLsb', hbit, checksum, BitVec.getLsbD_and, hmask]
  simp [hi, show i < 16 by omega]

/-- R191: four nibbles, the last the complement of the exclusive or of the others. -/
theorem xor_complement (x y z : BitVec 4) : x ^^^ y ^^^ z ^^^ ~~~(x ^^^ y ^^^ z) = 0xF#4 := by
  rw [← BitVec.not_xor_right, BitVec.xor_self]
  rfl

/-- Settles O55: field and checksum are read back from the frame's bits, and its nibbles are those of the field and the
complement of their exclusive or. -/
theorem checksumReverifies : Obligations.ChecksumReverifies := by
  intro thr tel
  have hverify := verifyFrame_binFrame thr tel
  refine ⟨hverify, frameThr_binFrame thr tel, frameTel_binFrame thr tel, binFrame_of_verifyFrame hverify,
    binFrame_checksumNibble thr tel, ?_⟩
  rw [binFrame_checksumNibble, binFrame_fieldNibble thr tel (by omega), binFrame_fieldNibble thr tel (by omega),
    binFrame_fieldNibble thr tel (by omega)]
  exact xor_complement _ _ _

end Sys2Proof.Machine
end

section
/-! SUPPORT. The proof of the statement on the engine's state graph: every move of the engine's registers follows it, and
a run of several moves ends at the first edge it takes. -/

namespace Sys2Proof.Machine

/-! ### The moves and the run of the engine -/

/-- R192: the sequencer stays, or moves along one edge of the engine's state graph. -/
def GraphStep (x y : EState) : Prop :=
  y = x ∨
  (x = .uninit ∧ (y = .hsWait ∨ y = .fault)) ∨
  (x = .hsWait ∧ (y = .ready ∨ y = .fault)) ∨
  (x = .ready ∧ (y = .rspWait ∨ y = .fault)) ∨
  (x = .rspWait ∧ (y = .ready ∨ y = .fault))

/-- R192: every move of the engine's registers follows the graph. -/
theorem EscMove.graphStep {e e' : Esc} (hm : EscMove e e') : GraphStep e.estate e'.estate := by
  cases hm with
  | completed st h => exact .inl rfl
  | rateRefused mode pin rate h => simp [GraphStep, h]
  | addSent mode pin r h => simp [GraphStep, h]
  | addFailed mode pin r h => simp [GraphStep, h]
  | textSent h hm => simp [GraphStep, h]
  | stopped c hc h => rcases h with h | h | h <;> simp [GraphStep, h]
  | byteStored b hb h =>
    rw [storeLineByte_frame]
    exact .inl rfl
  | lineIgnored h => exact .inl rfl
  | idGiven v h => simp [GraphStep, h]
  | responseRefused h => simp [GraphStep, h]
  | responseParsed c h hc => simp [GraphStep, h]

/-- R192: no edge joins the two waiting states, so an engine busy at both ends has stayed. -/
theorem GraphStep.stays_of_busy {e e' : Esc} (h : GraphStep e.estate e'.estate) (hb : busy e = true)
    (hb' : busy e' = true) : e'.estate = e.estate := by
  rcases (busy_iff e).1 hb with he | he <;> rcases (busy_iff e').1 hb' with he' | he' <;>
    simp [GraphStep, he, he'] at h ⊢

/-- R192: from `s` to `t` the engine followed the graph. -/
def FollowsGraph (s t : State) : Prop := GraphStep s.esc.estate t.esc.estate

/-- Where the engine's registers are not touched. -/
theorem FollowsGraph.of_esc {s t : State} (h : t.esc = s.esc := by rfl) : FollowsGraph s t := .inl (by rw [h])

/-- R192: a step of the decoder. -/
theorem DecoderOnly.followsGraph {s t : State} (h : DecoderOnly s t) : FollowsGraph s t := by
  obtain ⟨ht, -⟩ := h
  exact .of_esc (by rw [ht])

/-- R192: a TAKE or a PEEK. -/
theorem SlotsOnly.followsGraph {s t : State} (h : SlotsOnly s t) : FollowsGraph s t := by
  obtain ⟨ht, -⟩ := h
  exact .of_esc (by rw [ht])

/-- R171: INIT. Only without an endpoint does it move. -/
theorem acceptInit_followsGraph (pin : Byte) (rate : U16) (mode : WireMode) (s : State) :
    FollowsGraph s (acceptInit pin rate mode s) := by
  obtain ⟨hfault, hready, hbusy⟩ := acceptInit_wrongState pin rate mode s
  cases h : s.esc.estate with
  | uninit =>
    cases hr : rateOf rate with
    | none =>
      rw [acceptInit_unsupported h hr]
      exact (EscMove.rateRefused mode pin rate h).graphStep
    | some r =>
      obtain rfl := rateKbit_of_rateOf hr
      have hsent := Host.Outcome.next.inj (exec_init_uninit h pin r mode)
      rw [hsent]
      exact (sendAdd_move h mode pin r).graphStep
  | hsWait => exact .of_esc (by rw [hbusy ((busy_iff _).2 (.inl h))])
  | ready => exact .inl (by rw [hready h, completeStatus_esc])
  | rspWait => exact .of_esc (by rw [hbusy ((busy_iff _).2 (.inr h))])
  | fault => exact .inl (by rw [hfault h, completeStatus_esc])

/-- R174: SEND. Only with an endpoint does it move. -/
theorem acceptSend_followsGraph (thr : U11) (tel : Bool) (s : State) : FollowsGraph s (acceptSend thr tel s) := by
  obtain ⟨hfault, huninit, hbusy⟩ := acceptSend_wrongState thr tel s
  cases h : s.esc.estate with
  | uninit => exact .inl (by rw [huninit h, completeStatus_esc])
  | hsWait => exact .of_esc (by rw [hbusy ((busy_iff _).2 (.inl h))])
  | ready =>
    simp only [acceptSend, h]
    cases hm : s.esc.emode with
    | text => exact (acceptSendText_move h hm thr tel).graphStep
    | bin16 => exact (acceptSendBin16_move h thr tel).graphStep
  | rspWait => exact .of_esc (by rw [hbusy ((busy_iff _).2 (.inr h))])
  | fault => exact .inl (by rw [hfault h, completeStatus_esc])

/-- R180, R182: one event of the response stream, taken by a busy engine. -/
theorem acceptRsp_followsGraph {s : State} (hb : busy s.esc = true) (e : StreamEv) (r : List StreamEv) :
    FollowsGraph s (acceptRsp e { s with rspq := r }) :=
  (acceptRsp_move (s := { s with rspq := r }) hb e).graphStep

/-- R181, R192: the run of the engine ends at the first edge it takes, because no edge leads from a waiting state to
another. -/
theorem escRun_followsGraph (n : Nat) (s : State) : FollowsGraph s (escRun n s) := by
  induction n generalizing s with
  | zero => exact .of_esc
  | succ n ih =>
    cases hb : busy s.esc with
    | false =>
      rw [escRun_idle hb]
      exact .of_esc
    | true =>
      cases hq : s.rspq with
      | nil =>
        rw [escRun_nil hq]
        exact .of_esc
      | cons e r =>
        rw [escRun_cons hb hq]
        have hstep : FollowsGraph s (acceptRsp e { s with rspq := r }) := acceptRsp_followsGraph hb e r
        cases hb' : busy (acceptRsp e { s with rspq := r }).esc with
        | false =>
          rw [escRun_idle hb']
          exact hstep
        | true =>
          rw [FollowsGraph, ← hstep.stays_of_busy hb hb']
          exact ih _

/-- R115: bytes that arrive on the response stream. -/
theorem responseArrive_followsGraph (bs : List Byte) (s : State) : FollowsGraph s (responseArrive bs s) :=
  escRun_followsGraph _ { s with rspq := s.rspq ++ bs.map StreamEv.byte }

/-! ### The rows along the graph -/

/-- Log entry 3: a step that passes where it is not enabled. -/
theorem FollowsGraph.guarded {s t : State} {p : Prop} [Decidable p] (h : p → FollowsGraph s t) :
    Answers FollowsGraph s (if p then .next t else .next s) := by
  split
  next hp => exact .next (h hp)
  next => exact .next .of_esc

/-- R131: the row DEC.LEN. -/
theorem execDecLen_followsGraph (s : State) : Answers FollowsGraph s (execDecLen s) := by
  unfold execDecLen
  split
  · split
    next b r _ => exact .next (acceptLen_only b { s with rxq := r }).of_rxq.followsGraph
    next => exact .next .of_esc
  · exact .next .of_esc

/-- R132: the row DEC.PAYLOAD. -/
theorem execDecPayload_followsGraph (s : State) : Answers FollowsGraph s (execDecPayload s) := by
  unfold execDecPayload
  split
  · split
    next b r _ => exact .next (acceptPayload_only b { s with rxq := r }).of_rxq.followsGraph
    next => exact .next .of_esc
  · exact .next .of_esc

/-- R135: the row DEC.RXERR. -/
theorem execDecRxerr_followsGraph (s : State) : Answers FollowsGraph s (execDecRxerr s) := by
  unfold execDecRxerr
  split
  · split <;> exact .next .of_esc
  · exact .next .of_esc

/-- R154: the row PEEK. -/
theorem execPeek_followsGraph (k c : Nat) (s : State) : Answers FollowsGraph s (execPeek k c s) := by
  refine .atPort ?_ k c
  split
  · split
    · exact .of_esc
    · exact (slotPeek_only k c s).followsGraph
  · exact .of_esc

/-- R180: the row ESC.RSPBYTE. -/
theorem execEscRspbyte_followsGraph (s : State) : Answers FollowsGraph s (execEscRspbyte s) := by
  unfold execEscRspbyte
  split
  next hb =>
    split
    next b r _ => exact .next (acceptRsp_followsGraph hb (.byte b) r)
    next => exact .next .of_esc
  next => exact .next .of_esc

/-- R182: the row ESC.RSPERR. -/
theorem execEscRsperr_followsGraph (s : State) : Answers FollowsGraph s (execEscRsperr s) := by
  unfold execEscRsperr
  split
  next hb =>
    split
    next r _ => exact .next (acceptRsp_followsGraph hb .ioError r)
    next => exact .next .of_esc
  next => exact .next .of_esc

/-- R115: a frame that comes in is the decoder's. -/
theorem exec_frame_followsGraph {i : Instr} (hi : isFrame i = true) (s : State) :
    Answers FollowsGraph s (exec i s) := by
  rw [exec_frame hi]
  exact .next (serialArrive_only _ s).followsGraph

/-- R115: a line that comes in. -/
theorem exec_line_followsGraph {i : Instr} (hi : portOf i = .hsLine ∨ portOf i = .rspLine) (s : State) :
    Answers FollowsGraph s (exec i s) := by
  rw [exec_line hi]
  exact .next (responseArrive_followsGraph _ s)

/-- R192: every row. -/
theorem exec_followsGraph (i : Instr) (s : State) : Answers FollowsGraph s (exec i s) := by
  cases i with
  | sframeZerolen => exact exec_frame_followsGraph rfl s
  | sframeEmpty => exact exec_frame_followsGraph rfl s
  | sframeChdata f => exact exec_frame_followsGraph rfl s
  | sframeBadlen len rest => exact exec_frame_followsGraph rfl s
  | sframeOther len hdr rest => exact exec_frame_followsGraph rfl s
  | decLen => exact execDecLen_followsGraph s
  | decPayload => exact execDecPayload_followsGraph s
  | decDeliver k => exact .atSlot (deliver_only k s).followsGraph k
  | decRxerr => exact execDecRxerr_followsGraph s
  | publish k v => exact .atSlot (f := slotPublish k v) .of_esc k
  | take k c => exact .atPort (f := fun s => (slotTake k c s).2) (slotTake_only k c s).followsGraph k c
  | peek k c => exact execPeek_followsGraph k c s
  | init pin rate mode => exact .next (acceptInit_followsGraph pin rate mode s)
  | send thr tel => exact .next (acceptSend_followsGraph thr tel s)
  | sendText thr tel => exact FollowsGraph.guarded fun ⟨h, hm⟩ => (acceptSendText_move h hm thr tel).graphStep
  | sendBin16 thr tel => exact FollowsGraph.guarded fun ⟨h, _⟩ => (acceptSendBin16_move h thr tel).graphStep
  | escRspbyte => exact execEscRspbyte_followsGraph s
  | escRsperr => exact execEscRsperr_followsGraph s
  | tlineAdd pin rate => exact FollowsGraph.guarded fun h => (sendAdd_move h s.esc.emode pin rate).graphStep
  | tlineThrottle id thr tel =>
    exact FollowsGraph.guarded fun ⟨h, hm, _⟩ => (acceptSendText_move h hm thr tel).graphStep
  | hsOk rest => exact exec_line_followsGraph (.inl rfl) s
  | hsOkNoint rest => exact exec_line_followsGraph (.inl rfl) s
  | hsOther ln => exact exec_line_followsGraph (.inl rfl) s
  | rspThrottle idText payload => exact exec_line_followsGraph (.inr rfl) s
  | rspOk idText payload => exact exec_line_followsGraph (.inr rfl) s
  | rspErr idText payload => exact exec_line_followsGraph (.inr rfl) s
  | rspInvalid ln => exact exec_line_followsGraph (.inr rfl) s
  | bin16Frame thr tel => exact FollowsGraph.guarded fun ⟨h, _⟩ => (acceptSendBin16_move h thr tel).graphStep
  | servomap f => exact .next .of_esc
  | escmap f => exact .next .of_esc

/-! ### The actions along the graph -/

/-- R210: a turn of the servo loop. -/
theorem servoTurn_followsGraph (s : State) : FollowsGraph s (servoTurn s) := by
  unfold servoTurn
  split
  · have hread := (loopRead_only s.params.readServo 0 s).followsGraph
    dsimp only
    split <;> exact hread
  · exact .of_esc

/-- R210, R211: a turn of the ESC loop. -/
theorem escTurn_followsGraph (s : State) : FollowsGraph s (escTurn s) := by
  unfold escTurn
  cases s.escLoop with
  | boot =>
    dsimp only
    split
    · exact .of_esc
    · exact acceptInit_followsGraph s.params.pin s.params.rate s.params.wireMode s
  | waitInit =>
    dsimp only
    split <;> exact .of_esc
  | get =>
    have hread := (loopRead_only s.params.readEsc 1 s).followsGraph
    dsimp only
    split <;> exact hread
  | issue thr tel =>
    dsimp only
    split
    · exact .of_esc
    · exact acceptSend_followsGraph thr tel s
  | waitSend =>
    dsimp only
    split <;> exact .of_esc
  | stopped => exact .of_esc
  | _ =>
    -- the phase that holds a frame value
    dsimp only
    split <;> exact .of_esc

/-- R192: every action but reset. -/
theorem runAct_followsGraph {a : Act} (ha : a ≠ .rst) (s : State) : Answers FollowsGraph s (runAct a s) := by
  cases a with
  | rx valid err data =>
    rw [runAct, srcCycle_eq]
    exact .next .of_esc
  | rsp valid err data =>
    rw [runAct, svcCycle_eq]
    exact .next .of_esc
  | svcRead n => exact .next .of_esc
  | cmdFail c => exact .next .of_esc
  | rst => exact absurd rfl ha
  | servoLoop => exact .atPort (servoTurn_followsGraph s) 0 0
  | escLoop => exact .atPort (escTurn_followsGraph s) 1 0
  | unit p bs =>
    rw [runAct]
    cases hd : decode p bs with
    | ok i =>
      rw [runUnit_of_decode hd]
      exact exec_followsGraph i s
    | error e =>
      rw [runUnit_of_reject hd]
      exact fun _ => nofun

/-- Settles O54: an action's moves follow the graph one by one, and a run of several ends at its first edge. -/
theorem engineStateGraph : Obligations.EngineStateGraph := by
  intro s t a r ha ht
  rw [step_of_scheduled] at ht
  have hfollows : FollowsGraph { s with sched := r } t := runAct_followsGraph ha _ t ht
  exact hfollows

end Sys2Proof.Machine
end

section
/-! SUPPORT. The proofs of the statements on the two mapping functions: SERVOMAP's angle, the throttle range guard and the
cases of ESCMAP. -/

namespace Sys2Proof.Machine

/-! ### SERVOMAP -/

/-- The meaning of SERVOMAP's row. -/
theorem exec_servomap (f : ChannelFrame) (s : State) :
    exec (.servomap f) s =
      .next { s with servoRes := servoMap s.params.servoK s.params.servoLo s.params.servoHi f } := rfl

/-- Settles O57: the witness is the clamped angle of R212. (The obligation's own name is the model's `servoAngle`.) -/
theorem servoAngle_clamped : Obligations.ServoAngle := by
  intro s f
  exact ⟨clamp s.params.servoLo s.params.servoHi (servoAngle f[s.params.servoK]), rfl, exec_servomap f s⟩

/-! ### The throttle range guard -/

/-- R214: a value in the throttle range passes the guard as it is. -/
theorem guardThrottle_natCast {n : Nat} (h : n ≤ 2047) (tel : Bool) :
    guardThrottle n tel = some (BitVec.ofNat 11 n, tel) :=
  if_pos ⟨Int.natCast_nonneg n, by omega⟩

/-- R214: the guard gives no command exactly outside the throttle range. -/
theorem guardThrottle_eq_none {t : Int} {tel : Bool} : guardThrottle t tel = none ↔ t < 0 ∨ 2047 < t := by
  unfold guardThrottle
  split
  · simp only [reduceCtorEq, false_iff]
    omega
  · simp only [true_iff]
    omega

/-! ### The cases of ESCMAP -/

/-- The meaning of ESCMAP's row. -/
theorem exec_escmap (f : ChannelFrame) (s : State) : exec (.escmap f) s = .next { s with escRes := escMap f } := rfl

/-- R213: the cases in the document's order, with its numbers. -/
theorem escMap_eq (f : ChannelFrame) :
    escMap f =
      if f[9] = 1000 then some (0, true)
      else if f[8] = 2000 then guardThrottle ((f[2].toNat : Int) - 1000) false
      else if f[8] = 1000 then guardThrottle ((f[2].toNat : Int) - 1000 + 1024) false
      else if f[8] = 1500 then some (0, false)
      else none := rfl

section
variable {f : ChannelFrame}

/-- R213, first case: the disarm and telemetry probe, which wins over every direction. -/
theorem escMap_telemetry (h9 : f[9] = 1000) : escMap f = some (0, true) := by
  rw [escMap_eq, if_pos h9]

/-- R213, second case: forward. -/
theorem escMap_forward (h9 : f[9] ≠ 1000) (h8 : f[8] = 2000) :
    escMap f = guardThrottle ((f[2].toNat : Int) - 1000) false := by
  rw [escMap_eq, if_neg h9, if_pos h8]

/-- R213, third case: reverse. -/
theorem escMap_reverse (h9 : f[9] ≠ 1000) (h8 : f[8] = 1000) :
    escMap f = guardThrottle ((f[2].toNat : Int) - 1000 + 1024) false := by
  have hmax : ¬ f[8] = 2000 := by rw [h8]; decide
  rw [escMap_eq, if_neg h9, if_neg hmax, if_pos h8]

/-- R213, fourth case: neutral. -/
theorem escMap_neutral (h9 : f[9] ≠ 1000) (h8 : f[8] = 1500) : escMap f = some (0, false) := by
  have hmax : ¬ f[8] = 2000 := by rw [h8]; decide
  have hmin : ¬ f[8] = 1000 := by rw [h8]; decide
  rw [escMap_eq, if_neg h9, if_neg hmax, if_neg hmin, if_pos h8]

/-- R213, last case: any other position of the direction channel gives no command. -/
theorem escMap_otherwise (h9 : f[9] ≠ 1000) (hmax : f[8] ≠ 2000) (hmin : f[8] ≠ 1000) (hmid : f[8] ≠ 1500) :
    escMap f = none := by
  rw [escMap_eq, if_neg h9, if_neg hmax, if_neg hmin, if_neg hmid]

/-- R213, R214: forward, the throttle is what the channel holds above 1000. -/
theorem escMap_forward_throttle (h9 : f[9] ≠ 1000) (h8 : f[8] = 2000) {n : Nat} (hn : n ≤ 2047)
    (h2 : f[2].toNat = 1000 + n) : escMap f = some (BitVec.ofNat 11 n, false) := by
  have ht : (f[2].toNat : Int) - 1000 = n := by omega
  rw [escMap_forward h9 h8, ht, guardThrottle_natCast hn]

/-- R213, R214: forward, no command exactly where the throttle channel is out of range. -/
theorem escMap_forward_eq_none (h9 : f[9] ≠ 1000) (h8 : f[8] = 2000) :
    escMap f = none ↔ f[2].toNat < 1000 ∨ 3047 < f[2].toNat := by
  rw [escMap_forward h9 h8, guardThrottle_eq_none]
  omega

/-- R213, R214: in reverse, the throttle is what the channel holds, 24 higher. -/
theorem escMap_reverse_throttle (h9 : f[9] ≠ 1000) (h8 : f[8] = 1000) {n : Nat} (hn : n ≤ 2047)
    (h2 : f[2].toNat + 24 = n) : escMap f = some (BitVec.ofNat 11 n, false) := by
  have ht : (f[2].toNat : Int) - 1000 + 1024 = n := by omega
  rw [escMap_reverse h9 h8, ht, guardThrottle_natCast hn]

/-- R213, R214: in reverse, no command exactly where the throttle channel is out of range. -/
theorem escMap_reverse_eq_none (h9 : f[9] ≠ 1000) (h8 : f[8] = 1000) : escMap f = none ↔ 2023 < f[2].toNat := by
  rw [escMap_reverse h9 h8, guardThrottle_eq_none]
  omega

/-- R214: at a position of the direction channel that has a command, the guard never fires on a conventional throttle
channel. -/
theorem escMap_conventional (h8 : f[8] = 2000 ∨ f[8] = 1000 ∨ f[8] = 1500) (hlo : 1000 ≤ f[2].toNat)
    (hhi : f[2].toNat ≤ 2000) : escMap f ≠ none := by
  by_cases h9 : f[9] = 1000
  · simp [escMap_telemetry h9]
  · obtain h8 | h8 | h8 := h8
    · rw [Ne, escMap_forward_eq_none h9 h8]
      omega
    · rw [Ne, escMap_reverse_eq_none h9 h8]
      omega
    · simp [escMap_neutral h9 h8]

end

/-- Settles O58: the result is `escMap f`, case by case. -/
theorem escCommandCases : Obligations.EscCommandCases := by
  intro s f
  refine ⟨escMap f, exec_escmap f s, escMap_telemetry, fun h9 h8 => ⟨?_, ?_⟩, fun h9 h8 => ⟨?_, ?_⟩, escMap_neutral,
    escMap_otherwise, escMap_conventional⟩
  · exact fun _ => escMap_forward_throttle h9 h8
  · exact (escMap_forward_eq_none h9 h8).2
  · exact fun _ => escMap_reverse_throttle h9 h8
  · exact (escMap_reverse_eq_none h9 h8).2

end Sys2Proof.Machine
end

section
/-! SUPPORT. The proof of the statement on the turns of the control loops: what a loop's reading answers in each read mode,
then one equation per phase of each loop. -/

namespace Sys2Proof.Machine

/-! ### A loop's reading -/

section
variable {s : State} {k : Nat} {sl : Slot} (h : s.slots[k]? = some sl)
include h

/-- R153, log entry 3: a loop issues no PEEK while its port has a TAKE outstanding. -/
theorem loopRead_peek_waiting (hw : waiting sl 0 = true) : loopRead .peek k s = (none, s) := by
  rw [loopRead_peek h, if_pos hw]

/-- R154: a loop's PEEK otherwise. -/
theorem loopRead_peek_idle (hw : waiting sl 0 = false) : loopRead .peek k s = slotPeek k 0 s := by
  rw [loopRead_peek h, hw]
  rfl

end

/-! ### The phases of the servo loop -/

section
variable {s t : State}

/-- R210: a reading that answers a frame value is followed by its mapping. -/
theorem servoTurn_got {m : ReadMode} {v : Value} (hr : loopRead m 0 s = (some v, t)) (hp : s.servoLoop = .get)
    (hm : s.params.readServo = m) : servoTurn s = { t with servoLoop := .have v } := by
  simp only [servoTurn, hp, hm, hr]

/-- R210: a reading that answers none is taken again. -/
theorem servoTurn_missed {m : ReadMode} (hr : loopRead m 0 s = (none, t)) (hp : s.servoLoop = .get)
    (hm : s.params.readServo = m) : servoTurn s = t := by
  simp only [servoTurn, hp, hm, hr]

/-- R210: the angle the mapping gives, if any, is issued. -/
theorem servoTurn_have {v : Value} (hp : s.servoLoop = .have v) :
    servoTurn s = { s with
      servoRes := servoMap s.params.servoK s.params.servoLo s.params.servoHi (unpack v),
      servoOut := s.servoOut ++ (servoMap s.params.servoK s.params.servoLo s.params.servoHi (unpack v)).toList,
      servoLoop := .get } := by
  simp only [servoTurn, hp]

/-! ### The phases of the ESC loop -/

/-- R210: a reading that answers a frame value is followed by its mapping. -/
theorem escTurn_got {m : ReadMode} {v : Value} (hr : loopRead m 1 s = (some v, t)) (hp : s.escLoop = .get)
    (hm : s.params.readEsc = m) : escTurn s = { t with escLoop := .have v } := by
  simp only [escTurn, hp, hm, hr]

/-- R210: a reading that answers none is taken again. -/
theorem escTurn_missed {m : ReadMode} (hr : loopRead m 1 s = (none, t)) (hp : s.escLoop = .get)
    (hm : s.params.readEsc = m) : escTurn s = t := by
  simp only [escTurn, hp, hm, hr]

/-- R210: the mapping's command, if any, is issued next; without one the loop reads again. -/
theorem escTurn_have {v : Value} (hp : s.escLoop = .have v) :
    escTurn s = { s with
      escRes := escMap (unpack v),
      escLoop := match escMap (unpack v) with | some (thr, tel) => .issue thr tel | none => .get } := by
  simp only [escTurn, hp]
  cases escMap (unpack v) <;> rfl

/-- R210, R264: the ESC loop begins with INIT. -/
theorem escTurn_boot (hp : s.escLoop = .boot) (hb : busy s.esc = false) :
    escTurn s = { acceptInit s.params.pin s.params.rate s.params.wireMode s with escLoop := .waitInit } := by
  simp [escTurn, hp, hb]

/-- R264: the ESC loop goes on from INIT only on `ST_OK`. -/
theorem escTurn_waitInit (hp : s.escLoop = .waitInit) (hb : busy s.esc = false) :
    escTurn s = { s with escLoop := if s.esc.rstatus = .ok then .get else .stopped } := by
  simp [escTurn, hp, hb]

/-- R210: a command is issued as that SEND. -/
theorem escTurn_issue {thr : U11} {tel : Bool} (hp : s.escLoop = .issue thr tel) (hb : busy s.esc = false) :
    escTurn s = { acceptSend thr tel s with escLoop := .waitSend } := by
  simp [escTurn, hp, hb]

/-- R211: the status of the completed SEND says where the ESC loop goes on. -/
theorem escTurn_waitSend {p : EscPhase} (hp : s.escLoop = .waitSend) (hb : busy s.esc = false)
    (ha : afterSend s.esc.rstatus = p) : escTurn s = { s with escLoop := p } := by
  simp [escTurn, hp, hb, ha]

/-- R210: in each phase that needs an idle engine the ESC loop waits for it. -/
theorem escTurn_busy
    (hp : s.escLoop = .boot ∨ s.escLoop = .waitInit ∨ (∃ thr tel, s.escLoop = .issue thr tel) ∨
      s.escLoop = .waitSend)
    (hb : busy s.esc = true) : escTurn s = s := by
  obtain hp | hp | ⟨thr, tel, hp⟩ | hp := hp <;> simp [escTurn, hp, hb]

/-- R211: the stopped ESC loop does nothing more. -/
theorem escTurn_stopped (hp : s.escLoop = .stopped) : escTurn s = s := by
  simp only [escTurn, hp]

/-- R211: the ESC loop carries on after `ST_OK` and `ST_PROTOCOL`. -/
theorem afterSend_get {st : Status} (h : st = .ok ∨ st = .protocol) : afterSend st = .get := by
  obtain rfl | rfl := h <;> rfl

/-- R211, log entry 15: the ESC loop stops after `ST_FAULT` and `ST_BADSTATE`. -/
theorem afterSend_stopped {st : Status} (h : st = .fault ∨ st = .badState) : afterSend st = .stopped := by
  obtain rfl | rfl := h <;> rfl

end

/-! ### The loops' turns as steps -/

/-- R14: the servo loop's turn, its port existing. -/
theorem step_servoLoop {s t : State} {r : List Act} {sl : Slot} (h : s.slots[0]? = some sl) (hc : 0 < sl.wait.length)
    (ht : servoTurn { s with sched := r } = t) : step (s.scheduled .servoLoop r) = .next t := by
  rw [step_of_scheduled, ← ht]
  exact atPort_at h hc

/-- R14: the ESC loop's turn, its port existing. -/
theorem step_escLoop {s t : State} {r : List Act} {sl : Slot} (h : s.slots[1]? = some sl) (hc : 0 < sl.wait.length)
    (ht : escTurn { s with sched := r } = t) : step (s.scheduled .escLoop r) = .next t := by
  rw [step_of_scheduled, ← ht]
  exact atPort_at h hc

/-- Settles O60: each clause is the step at the loop's port with the equation of the loop's phase. -/
theorem controlLoopTurns : Obligations.ControlLoopTurns := by
  intro s r sl0 sl1 h0 hc0 h1 hc1
  refine ⟨fun hp hm => ⟨fun hf => ?_, fun hf => ?_⟩, fun hp hm => ⟨fun hw => ?_, fun hw hf => ?_, fun hw hf => ?_⟩,
    fun hp hm => ⟨fun hf => ?_, fun hf => ?_⟩, fun hp hm => ⟨fun hw => ?_, fun hw hf => ?_, fun hw hf => ?_⟩,
    fun v hp => ?_, fun t hp hb ht => ?_, fun hp hb => ?_, fun v hp => ?_, fun thr tel t hp hb ht => ?_,
    fun hp hb hst => ?_, fun hp hb hst => ?_, fun hp hb => ?_, fun hp => ?_⟩
  -- the servo loop reads by TAKE
  · exact step_servoLoop h0 hc0 (servoTurn_got
      ((loopRead_take _ { s with sched := r }).trans (slotTake_full h0 hf)) hp hm)
  · exact step_servoLoop h0 hc0 (servoTurn_missed
      ((loopRead_take _ { s with sched := r }).trans (slotTake_empty h0 hf)) hp hm)
  -- the servo loop reads by PEEK
  · exact step_servoLoop h0 hc0 (servoTurn_missed (loopRead_peek_waiting (s := { s with sched := r }) h0 hw) hp hm)
  · exact step_servoLoop h0 hc0 (servoTurn_got
      ((loopRead_peek_idle (s := { s with sched := r }) h0 hw).trans (slotPeek_full h0 hf)) hp hm)
  · exact step_servoLoop h0 hc0 (servoTurn_missed
      ((loopRead_peek_idle (s := { s with sched := r }) h0 hw).trans (slotPeek_empty h0 hf)) hp hm)
  -- the ESC loop reads by TAKE
  · exact step_escLoop h1 hc1 (escTurn_got
      ((loopRead_take _ { s with sched := r }).trans (slotTake_full h1 hf)) hp hm)
  · exact step_escLoop h1 hc1 (escTurn_missed
      ((loopRead_take _ { s with sched := r }).trans (slotTake_empty h1 hf)) hp hm)
  -- the ESC loop reads by PEEK
  · exact step_escLoop h1 hc1 (escTurn_missed (loopRead_peek_waiting (s := { s with sched := r }) h1 hw) hp hm)
  · exact step_escLoop h1 hc1 (escTurn_got
      ((loopRead_peek_idle (s := { s with sched := r }) h1 hw).trans (slotPeek_full h1 hf)) hp hm)
  · exact step_escLoop h1 hc1 (escTurn_missed
      ((loopRead_peek_idle (s := { s with sched := r }) h1 hw).trans (slotPeek_empty h1 hf)) hp hm)
  -- the servo loop maps
  · exact step_servoLoop h0 hc0 (servoTurn_have hp)
  -- INIT and its answer
  · cases ht
    exact step_escLoop h1 hc1 (escTurn_boot hp hb)
  · exact step_escLoop h1 hc1 (escTurn_waitInit hp hb)
  -- the ESC loop maps
  · exact step_escLoop h1 hc1 (escTurn_have hp)
  -- SEND and its answer
  · cases ht
    exact step_escLoop h1 hc1 (escTurn_issue hp hb)
  · exact step_escLoop h1 hc1 (escTurn_waitSend hp hb (afterSend_get hst))
  · exact step_escLoop h1 hc1 (escTurn_waitSend hp hb (afterSend_stopped hst))
  -- the ESC loop waits, and stands still once stopped
  · exact step_escLoop h1 hc1 (escTurn_busy hp hb)
  · exact step_escLoop h1 hc1 (escTurn_stopped hp)

end Sys2Proof.Machine
end

section
/-! SUPPORT. The proofs of the statements on the separation of the sub-blocks and on the stopped engine. First the rows of
each sub-block with all they can touch, and of the decoder's rows also all they can make of a slot; on that stands what
leaves a stopped engine alone. -/

namespace Sys2Proof.Machine

/-! ### The rows of each sub-block -/

/-- R246: the rows of the engine. -/
def IsEngineRow (i : Instr) : Prop :=
  portOf i = .op ∨ (∃ m, portOf i = .sendIn m) ∨ portOf i = .rsp ∨ portOf i = .cmdText ∨ portOf i = .cmdBin ∨
    portOf i = .hsLine ∨ portOf i = .rspLine

/-- R246: the rows of the decoder. -/
def IsDecoderRow (i : Instr) : Prop := isFrame i = true ∨ portOf i = .rx ∨ portOf i = .deliver

/-- R246: the rows of a slot. -/
def IsSlotRow (i : Instr) : Prop := portOf i = .pub ∨ portOf i = .take ∨ portOf i = .peek

/-- R246: the rows of the mapping functions. -/
def IsMappingRow (i : Instr) : Prop := portOf i = .servo ∨ portOf i = .escFn

/-- R246: every row belongs to a sub-block or is a mapping function. -/
theorem subBlock_cases (i : Instr) : IsEngineRow i ∨ IsDecoderRow i ∨ IsSlotRow i ∨ IsMappingRow i := by
  unfold IsEngineRow IsDecoderRow IsSlotRow IsMappingRow
  cases i <;> simp [portOf, isFrame]

/-! ### What a row of the engine can touch -/

/-- R180, R182: a row that reads the response stream passes, or takes the event at its head. -/
theorem exec_rsp_only {i : Instr} (hi : portOf i = .rsp) (s : State) : Answers EngineOnly s (exec i s) := by
  cases i with
  | escRspbyte =>
    change Answers EngineOnly s (execEscRspbyte s)
    unfold execEscRspbyte
    split
    · split
      next b r _ => exact .next (acceptRsp_only (.byte b) { s with rspq := r }).of_rspq
      next => exact .next (.refl s)
    · exact .next (.refl s)
  | escRsperr =>
    change Answers EngineOnly s (execEscRsperr s)
    unfold execEscRsperr
    split
    · split
      next r _ => exact .next (acceptRsp_only .ioError { s with rspq := r }).of_rspq
      next => exact .next (.refl s)
    · exact .next (.refl s)
  | _ => simp [portOf] at hi

/-- R115: a line that comes in. -/
theorem exec_line_only {i : Instr} (hi : portOf i = .hsLine ∨ portOf i = .rspLine) (s : State) :
    Answers EngineOnly s (exec i s) := by
  rw [exec_line hi]
  exact .next (responseArrive_only _ s)

/-- R246: the rows of the engine. -/
theorem exec_engineRow_only {i : Instr} (hi : IsEngineRow i) (s : State) : Answers EngineOnly s (exec i s) := by
  cases i with
  | init pin rate mode => exact .next (acceptInit_only pin rate mode s)
  | send thr tel => exact .next (acceptSend_only thr tel s)
  | sendText thr tel => exact .guarded (acceptSendText_only thr tel s) (.refl s)
  | sendBin16 thr tel => exact .guarded (acceptSendBin16_only thr tel s) (.refl s)
  | escRspbyte => exact exec_rsp_only rfl s
  | escRsperr => exact exec_rsp_only rfl s
  | tlineAdd pin rate => exact .guarded (sendAdd_only pin rate _).of_esc (.refl s)
  | tlineThrottle id thr tel => exact .guarded (acceptSendText_only thr tel s) (.refl s)
  | hsOk rest => exact exec_line_only (.inl rfl) s
  | hsOkNoint rest => exact exec_line_only (.inl rfl) s
  | hsOther ln => exact exec_line_only (.inl rfl) s
  | rspThrottle idText payload => exact exec_line_only (.inr rfl) s
  | rspOk idText payload => exact exec_line_only (.inr rfl) s
  | rspErr idText payload => exact exec_line_only (.inr rfl) s
  | rspInvalid ln => exact exec_line_only (.inr rfl) s
  | bin16Frame thr tel => exact .guarded (acceptSendBin16_only thr tel s) (.refl s)
  | _ => simp [IsEngineRow, portOf] at hi

/-! ### What a row of the decoder can touch -/

/-- R130: the decoder passes, or takes the event at the head of the serial stream. -/
def TakesSerial (s t : State) : Prop := t = s ∨ ∃ e r, s.rxq = e :: r ∧ t = acceptEvent e { s with rxq := r }

/-- R131, R132, R135: the rows that read the serial stream. -/
theorem exec_rx_takesSerial {i : Instr} (hi : portOf i = .rx) (s : State) : Answers TakesSerial s (exec i s) := by
  cases i with
  | decLen =>
    change Answers TakesSerial s (execDecLen s)
    unfold execDecLen
    split
    next h =>
      obtain ⟨-, hs⟩ := h
      split
      next b r hq => exact .next (.inr ⟨.byte b, r, hq, (acceptByte_len (by exact hs) b).symm⟩)
      next => exact .next (.inl rfl)
    next => exact .next (.inl rfl)
  | decPayload =>
    change Answers TakesSerial s (execDecPayload s)
    unfold execDecPayload
    split
    next h =>
      obtain ⟨-, hs⟩ := h
      split
      next b r hq => exact .next (.inr ⟨.byte b, r, hq, (acceptByte_payload (by exact hs) b).symm⟩)
      next => exact .next (.inl rfl)
    next => exact .next (.inl rfl)
  | decRxerr =>
    change Answers TakesSerial s (execDecRxerr s)
    unfold execDecRxerr
    split
    · split
      next r hq => exact .next (.inr ⟨.ioError, r, hq, rfl⟩)
      next => exact .next (.inl rfl)
    · exact .next (.inl rfl)
  | _ => simp [portOf] at hi

/-- R134, R246: from `s` to `t` only the decoder's pieces and the slots were touched, and a slot was at most published to, as
by any action that may publish there. -/
structure DecoderActs (s t : State) : Prop where
  only : DecoderOnly s t
  publishes {k : Nat} {a : Act} : mayPublish k a = true → Publishes k a s t

/-- R130: one event at most. -/
theorem TakesSerial.decoderActs {s t : State} (h : TakesSerial s t) : DecoderActs s t := by
  obtain rfl | ⟨e, r, -, rfl⟩ := h
  · exact ⟨.refl t, fun _ => .of_eq⟩
  · exact ⟨(acceptEvent_only e _).of_rxq, fun _ => .trans .of_eq (acceptEvent_publishes e { s with rxq := r })⟩

/-- R115: bytes that arrive on the serial stream. -/
theorem serialArrive_decoderActs (bs : List Byte) (s : State) : DecoderActs s (serialArrive bs s) :=
  ⟨serialArrive_only bs s, fun ha => serialArrive_publishes ha bs s⟩

/-- R134: DEC.DELIVER. -/
theorem deliver_decoderActs (k : Nat) (s : State) : DecoderActs s (deliver k s) :=
  ⟨deliver_only k s, fun ha => deliver_publishes (fun _ => ha) s⟩

/-- R246: the rows of the decoder. -/
theorem exec_decoderRow_acts {i : Instr} (hi : IsDecoderRow i) (s : State) : Answers DecoderActs s (exec i s) := by
  obtain hi | hi | hi := hi
  · rw [exec_frame hi]
    exact .next (serialArrive_decoderActs _ s)
  · exact fun t ht => (exec_rx_takesSerial hi s t ht).decoderActs
  · cases i with
    | decDeliver k => exact .atSlot (deliver_decoderActs k s) k
    | _ => simp [portOf] at hi

/-- R134, R248: a slot that the decoder changes holds a full value, and its waiters are the same. -/
theorem DecoderActs.slot {s t : State} (h : DecoderActs s t) {k : Nat} {x y : Slot} (hx : s.slots[k]? = some x)
    (hy : t.slots[k]? = some y) : y = x ∨ (y.full = true ∧ y.wait = x.wait) := by
  -- a frame that comes in may publish to every slot
  have ha : mayPublish k (schedule .sframeZerolen) = true := mayPublish_of_frame (i := .sframeZerolen) rfl rfl
  obtain ⟨z, hz, hxz⟩ := (h.publishes ha).slot hx
  obtain rfl : y = z := Option.some.inj (hy.symm.trans hz)
  obtain rfl | ⟨-, v, rfl⟩ := hxz
  · exact .inl rfl
  · exact .inr ⟨rfl, rfl⟩

/-! ### What a row of a slot and a mapping function can touch -/

/-- R151 to R154: the rows of a slot. -/
theorem exec_slotRow_only {i : Instr} (hi : IsSlotRow i) (s : State) : Answers SlotsOnly s (exec i s) := by
  cases i with
  | publish k v => exact .atSlot (f := slotPublish k v) ⟨rfl, by simp⟩ k
  | take k c => exact .atPort (f := fun s => (slotTake k c s).2) (slotTake_only k c s) k c
  | peek k c =>
    rw [exec_peek, execPeek]
    intro t ht
    obtain ⟨sl, h, -, rfl⟩ := atPort_next ht
    simp only [h]
    split
    · exact ⟨rfl, rfl⟩
    · exact slotPeek_only k c s
  | _ => simp [IsSlotRow, portOf] at hi

/-- R215: what a mapping function can touch. -/
def ResultsOnly (s t : State) : Prop := t = { s with servoRes := t.servoRes, escRes := t.escRes }

/-- R212 to R215: the mapping functions. -/
theorem exec_mappingRow_only {i : Instr} (hi : IsMappingRow i) (s : State) : Answers ResultsOnly s (exec i s) := by
  cases i with
  | servomap f => exact .next rfl
  | escmap f => exact .next rfl
  | _ => simp [IsMappingRow, portOf] at hi

/-- Settles O59: each clause names pieces of the state that the rows of its sub-block cannot touch. -/
theorem subBlocksAreIndependent : Obligations.SubBlocksAreIndependent := by
  intro i s t ht
  refine ⟨fun hi => ?_, fun hi => ?_, fun hi => ?_, fun hi => ?_⟩
  · have honly := exec_engineRow_only hi s t ht
    rw [honly]
    exact ⟨rfl, rfl, rfl⟩
  · have hacts := exec_decoderRow_acts hi s t ht
    obtain ⟨honly, hlen⟩ := hacts.only
    refine ⟨?_, ?_, ?_, ?_, ?_, hlen, fun k x y => hacts.slot⟩ <;> rw [honly]
  · obtain ⟨honly, -⟩ := exec_slotRow_only hi s t ht
    rw [honly]
    exact ⟨rfl, rfl, rfl, rfl, rfl, rfl, rfl⟩
  · have honly := exec_mappingRow_only hi s t ht
    rw [honly]
    exact ⟨rfl, rfl, rfl, rfl, rfl, rfl, rfl, rfl, rfl⟩

/-! ### What leaves the engine alone -/

/-- R245: from `s` to `t` the engine's state and first cause stayed, nothing was taken from the response stream, and nothing
was put into the command stream. -/
structure EngineRests (s t : State) : Prop where
  state : t.esc.estate = s.esc.estate
  cause : t.esc.ecause = s.esc.ecause
  response : ∃ q, t.rspq = s.rspq ++ q
  command : t.cmdRead ++ t.cmdq = s.cmdRead ++ s.cmdq

/-- Where none of these is touched. -/
theorem EngineRests.of_eq {s t : State} (hs : t.esc.estate = s.esc.estate := by rfl)
    (hc : t.esc.ecause = s.esc.ecause := by rfl) (hq : t.rspq = s.rspq := by rfl)
    (hw : t.cmdRead ++ t.cmdq = s.cmdRead ++ s.cmdq := by rfl) : EngineRests s t :=
  ⟨hs, hc, ⟨[], by simpa using hq⟩, hw⟩

/-- Where events arrive at the tail of the response stream. -/
theorem EngineRests.arrive (s : State) (q : List StreamEv) : EngineRests s { s with rspq := s.rspq ++ q } :=
  ⟨rfl, rfl, ⟨q, rfl⟩, rfl⟩

/-- One after the other. -/
theorem EngineRests.trans {s t u : State} (h : EngineRests s t) (k : EngineRests t u) : EngineRests s u := by
  obtain ⟨q, hq⟩ := h.response
  obtain ⟨p, hp⟩ := k.response
  exact ⟨k.state.trans h.state, k.cause.trans h.cause, ⟨q ++ p, by rw [hp, hq, List.append_assoc]⟩,
    k.command.trans h.command⟩

/-- R246: a step of the decoder. -/
theorem DecoderOnly.engineRests {s t : State} (h : DecoderOnly s t) : EngineRests s t := by
  obtain ⟨ht, -⟩ := h
  rw [ht]
  exact .of_eq

/-- R246: a step of a slot. -/
theorem SlotsOnly.engineRests {s t : State} (h : SlotsOnly s t) : EngineRests s t := by
  obtain ⟨ht, -⟩ := h
  rw [ht]
  exact .of_eq

/-- R215: a mapping function. -/
theorem ResultsOnly.engineRests {s t : State} (h : ResultsOnly s t) : EngineRests s t := by
  rw [h]
  exact .of_eq

/-- R170: the completion of an operation with a status alone. -/
theorem completeStatus_engineRests (op : Op) (st : Status) (s : State) : EngineRests s (completeStatus op st s) :=
  .of_eq (by simp) (by simp) (by simp) (by simp)

/-- Log entry 3: a row that is not enabled. -/
theorem EngineRests.disabled {s t : State} {p : Prop} [Decidable p] (hp : ¬ p) :
    Answers EngineRests s (if p then .next t else .next s) := by
  rw [if_neg hp]
  exact .next .of_eq

/-! ### The stopped engine -/

section
variable {s : State} (hf : s.esc.estate = .fault)
include hf

/-- R30: a stopped engine waits for no line. -/
theorem not_busy_of_fault : busy s.esc = false := by simp [busy, hf]

/-- R171: INIT of a stopped engine answers with its status alone. -/
theorem acceptInit_engineRests (pin : Byte) (rate : U16) (mode : WireMode) :
    EngineRests s (acceptInit pin rate mode s) := by
  obtain ⟨hfault, -⟩ := acceptInit_wrongState pin rate mode s
  rw [hfault hf]
  exact completeStatus_engineRests _ _ s

/-- R174: SEND of a stopped engine answers with its status alone. -/
theorem acceptSend_engineRests (thr : U11) (tel : Bool) : EngineRests s (acceptSend thr tel s) := by
  obtain ⟨hfault, -⟩ := acceptSend_wrongState thr tel s
  rw [hfault hf]
  exact completeStatus_engineRests _ _ s

/-- R181: a line that comes in waits in the response stream of a stopped engine. -/
theorem exec_line_engineRests {i : Instr} (hi : portOf i = .hsLine ∨ portOf i = .rspLine) :
    Answers EngineRests s (exec i s) := by
  rw [exec_line hi, responseArrive_idle (not_busy_of_fault hf)]
  exact .next (.arrive s _)

/-- R245: the engine's own rows are not enabled in `E_FAULT`, or answer with a status alone. -/
theorem exec_engineRow_rests {i : Instr} (hi : IsEngineRow i) : Answers EngineRests s (exec i s) := by
  have hready : s.esc.estate ≠ .ready := by simp [hf]
  obtain ⟨-, hbyte, herr, -⟩ := (idleEngineReadsNothing s).1 (not_busy_of_fault hf)
  cases i with
  | init pin rate mode => exact .next (acceptInit_engineRests hf pin rate mode)
  | send thr tel => exact .next (acceptSend_engineRests hf thr tel)
  | sendText thr tel => exact EngineRests.disabled fun ⟨h, _⟩ => hready h
  | sendBin16 thr tel => exact EngineRests.disabled fun ⟨h, _⟩ => hready h
  | escRspbyte => exact hbyte ▸ .next .of_eq
  | escRsperr => exact herr ▸ .next .of_eq
  | tlineAdd pin rate => exact EngineRests.disabled (by simp [hf])
  | tlineThrottle id thr tel => exact EngineRests.disabled fun ⟨h, _⟩ => hready h
  | hsOk rest => exact exec_line_engineRests hf (.inl rfl)
  | hsOkNoint rest => exact exec_line_engineRests hf (.inl rfl)
  | hsOther ln => exact exec_line_engineRests hf (.inl rfl)
  | rspThrottle idText payload => exact exec_line_engineRests hf (.inr rfl)
  | rspOk idText payload => exact exec_line_engineRests hf (.inr rfl)
  | rspErr idText payload => exact exec_line_engineRests hf (.inr rfl)
  | rspInvalid ln => exact exec_line_engineRests hf (.inr rfl)
  | bin16Frame thr tel => exact EngineRests.disabled fun ⟨h, _⟩ => hready h
  | _ => simp [IsEngineRow, portOf] at hi

/-- R245: no row moves a stopped engine; the rows of the others are not its own. -/
theorem exec_engineRests (i : Instr) : Answers EngineRests s (exec i s) := by
  intro t ht
  obtain hi | hi | hi | hi := subBlock_cases i
  · exact exec_engineRow_rests hf hi t ht
  · exact (exec_decoderRow_acts hi s t ht).only.engineRests
  · exact (exec_slotRow_only hi s t ht).engineRests
  · exact (exec_mappingRow_only hi s t ht).engineRests

/-- R210, R211: a turn of the ESC loop, whose operations a stopped engine answers with a status alone. -/
theorem escTurn_engineRests : EngineRests s (escTurn s) := by
  have hb := not_busy_of_fault hf
  cases hp : s.escLoop with
  | boot =>
    rw [escTurn_boot hp hb]
    exact (acceptInit_engineRests hf _ _ _).trans .of_eq
  | waitInit =>
    rw [escTurn_waitInit hp hb]
    exact .of_eq
  | get =>
    have hread := (loopRead_only s.params.readEsc 1 s).engineRests
    rcases hr : loopRead s.params.readEsc 1 s with ⟨_ | v, t⟩
    · rw [escTurn_missed hr hp rfl]
      simpa [hr] using hread
    · rw [escTurn_got hr hp rfl]
      exact .trans (by simpa [hr] using hread) .of_eq
  | issue thr tel =>
    rw [escTurn_issue hp hb]
    exact (acceptSend_engineRests hf thr tel).trans .of_eq
  | waitSend =>
    rw [escTurn_waitSend hp hb rfl]
    exact .of_eq
  | stopped =>
    rw [escTurn_stopped hp]
    exact .of_eq
  | _ =>
    -- the phase that holds a frame value
    rw [escTurn_have hp]
    exact .of_eq

end

/-- R210: a turn of the servo loop. -/
theorem servoTurn_engineRests (s : State) : EngineRests s (servoTurn s) := by
  cases hp : s.servoLoop with
  | get =>
    have hread := (loopRead_only s.params.readServo 0 s).engineRests
    rcases hr : loopRead s.params.readServo 0 s with ⟨_ | v, t⟩
    · rw [servoTurn_missed hr hp rfl]
      simpa [hr] using hread
    · rw [servoTurn_got hr hp rfl]
      exact .trans (by simpa [hr] using hread) .of_eq
  | _ =>
    -- the phase that holds a frame value
    rw [servoTurn_have hp]
    exact .of_eq

/-- R245: every action but reset leaves a stopped engine alone. -/
theorem runAct_engineRests {a : Act} (ha : a ≠ .rst) {s : State} (hf : s.esc.estate = .fault) :
    Answers EngineRests s (runAct a s) := by
  cases a with
  | rx valid err data =>
    rw [runAct, srcCycle_eq]
    exact .next .of_eq
  | rsp valid err data =>
    rw [runAct, svcCycle_eq]
    exact .next (.arrive s _)
  | svcRead n => exact .next (.of_eq (hw := by simp [svcTake]))
  | cmdFail c => exact .next .of_eq
  | rst => exact absurd rfl ha
  | servoLoop => exact .atPort (servoTurn_engineRests s) 0 0
  | escLoop => exact .atPort (escTurn_engineRests hf) 1 0
  | unit p bs =>
    rw [runAct]
    cases hd : decode p bs with
    | ok i =>
      rw [runUnit_of_decode hd]
      exact exec_engineRests hf i
    | error e =>
      rw [runUnit_of_reject hd]
      exact fun _ => nofun

/-- Settles O52: every action but reset leaves the stopped engine alone. -/
theorem faultedEngineStaysStopped : Obligations.FaultedEngineStaysStopped := by
  intro s t a r hf ha ht
  rw [step_of_scheduled] at ht
  obtain ⟨hstate, hcause, hresponse, hcommand⟩ := runAct_engineRests (s := { s with sched := r }) ha hf t ht
  have hstopped : t.esc.estate = .fault := hstate.trans hf
  exact ⟨hstopped, hcause, by simp [escFault, hstopped], hresponse, hcommand⟩

end Sys2Proof.Machine
end

section
/-! SUPPORT. The proof of the statement on the reset input: a slot after reset, what reset makes of the list of slots, and then
the step that a scheduled reset is. -/

namespace Sys2Proof.Machine

/-! ### A slot after reset -/

/-- R7, R260: reset keeps the consumer ports of a slot. -/
@[simp] theorem length_wait_slot_reset (m : Nat) : (Slot.reset m).wait.length = m := List.length_replicate

/-- R41: a slot is empty after reset and no consumer waits on it. -/
theorem slot_reset_unused (m : Nat) : (Slot.reset m).full = false ∧ true ∉ (Slot.reset m).wait :=
  ⟨rfl, by simp [Slot.reset]⟩

/-! ### The slots of a machine that is reset -/

/-- R7, R260: reset keeps the number of slots and of each slot's consumer ports. -/
theorem resetBlock_keepsPorts (s : State) :
    (resetBlock s).slots.map (·.wait.length) = s.slots.map (·.wait.length) := by
  simp [resetBlock]

/-- R41, R260: after reset every slot is empty, and the TAKEs that waited are dropped. -/
theorem resetBlock_slots_unused (s : State) : ∀ sl ∈ (resetBlock s).slots, sl.full = false ∧ true ∉ sl.wait := by
  intro sl hsl
  obtain ⟨old, -, rfl⟩ := List.mem_map.mp hsl
  exact slot_reset_unused old.wait.length

/-! ### The reset input -/

/-- R260: a step whose action is the reset input resets the block, and nothing stops it. -/
theorem step_of_rst (s : State) (r : List Act) : step (s.scheduled .rst r) = .next (resetBlock { s with sched := r }) :=
  step_of_scheduled s .rst r

/-- Settles O12: a scheduled reset is `resetBlock`, whose definition gives every field but the slots; those follow slot by
slot. -/
theorem rstResetsBlock : Obligations.RstResetsBlock := by
  intro s r
  have hports := resetBlock_keepsPorts { s with sched := r }
  have hslots := resetBlock_slots_unused { s with sched := r }
  exact ⟨_, step_of_rst s r, rfl, rfl, rfl, rfl, rfl, hports, hslots,
    -- the engine
    rfl, rfl, rfl, rfl, rfl,
    -- the streams and the write outcomes
    rfl, rfl, rfl, rfl,
    -- the observation, the parameters, the schedule, the loops
    rfl, rfl, rfl, rfl, rfl, rfl, rfl, rfl, rfl, rfl⟩

end Sys2Proof.Machine
end
